-- ==== Sys2Proof/Word.lean ====
section
/-! DEFINITION. The word types of RSZ (spec 00_scope R5, R6): widths only. -/

namespace Sys2Proof

/-- A byte of memory (R36). -/
abbrev Byte := BitVec 8

/-- A byte address on the memory port, `ADDR_BITS` = 64 (R5, R41): sums of addresses wrap modulo 2^64. -/
abbrev Addr := BitVec 64

/-- The data of a host register access, `REG_DATA_BITS` = 64 (R5). -/
abbrev HostWord := BitVec 64

/-- A command word (R60). -/
abbrev CmdWord := BitVec 32

end Sys2Proof
end

