-- ==== Sys2Proof/Config.lean ====
section
/-! DEFINITION. What is fixed for the machine (R5) and the free values: constants without a body, of which nothing can be
proved. The platform's open parameters NUM_INST, `mapped` and RSZ_BASE are plain data of State (logs 2, 4, 10). -/

namespace Sys2Proof.Config

/-- `REG_COUNT` of R5: host-visible registers, indices 0 to 17. -/
def regCount : Nat := 18

/-- `FILTER_LEN_MAX` of R5. -/
def filterLenMax : Nat := 65535

/-- FREE VALUE (log 6). The byte a pass obtains when it reads a byte that the same pass also writes: R197 calls the values
read "unspecified". Indexed by the counter of draws in State. -/
opaque hazardByte : Nat → Byte

/-- FREE VALUE (log 7). How many memory-port accesses a command had made when a reset ended it "at an unspecified point"
(R191). Indexed by the counter of draws in State; taken modulo the number of accesses plus one. -/
opaque resetPoint : Nat → Nat

end Sys2Proof.Config
end

