-- ==== Sys2Proof/Syntax.lean ====
section
/-! DEFINITION. The syntax of RSZ: the 13 command words of R62 (one constructor each), the fields of a command word (R60),
the memory pixel formats (R48), and the operations a host performs on an instance (R8, R40, R190, R191). -/

namespace Sys2Proof

/-- The commands, one constructor per row of spec/opcode_table.json (R62). No command has an operand in its word (R64). -/
inductive Instr where
  | clamp8      -- CLAMP8, R82
  | clamp16     -- CLAMP16, R83
  | genRgba8    -- RSZ.GEN.RGBA8, R120
  | genRgba16   -- RSZ.GEN.RGBA16, R120
  | genGray8    -- RSZ.GEN.GRAY8, R120
  | genGray16   -- RSZ.GEN.GRAY16, R120
  | genYcc8     -- RSZ.GEN.YCC8, R120
  | rgba8       -- RSZ.RGBA8, R131
  | rgba16      -- RSZ.RGBA16, R132
  | gray8       -- RSZ.GRAY8, R133
  | gray16      -- RSZ.GRAY16, R134
  | ycc8        -- RSZ.YCC8, R135
  | nnYcc8      -- RSZ.NN.YCC8, R150
  deriving DecidableEq, Repr

/-- The fields of a command word, most significant first (R14, R60): reserved bits 31:11, `SFMT` bits 10:8, `OPC` bits 7:0. -/
structure CmdFields where
  /-- Bits 31:11, reserved, zero in every legal word. -/
  zero : BitVec 21
  /-- Bits 10:8, `SFMT`: the source format of `RSZ.GEN`, zero in format N. -/
  sfmt : BitVec 3
  /-- Bits 7:0, `OPC`: the opcode. -/
  opc : BitVec 8
  deriving DecidableEq, Repr

/-- The five pixel formats of memory (R48), which are also the five values of `SFMT` (R63). -/
inductive PixFmt where
  | rgba8
  | rgba16
  | gray8
  | gray16
  | ycc8
  deriving DecidableEq, Repr

/-- What a host does to one instance. `wr` and `rd` are the two host operations of R8; the others are the ways the spec
gives the outside world to the same state. -/
inductive HostOp where
  /-- `WR i, v` (R8, R11): write `v` to the register of index `i`. -/
  | wr (i : Nat) (v : HostWord)
  /-- `RD i` (R8, R12): read the register of index `i`. -/
  | rd (i : Nat)
  /-- A write of `size` bytes at a host address of the register space (R40); 64-bit host addresses are the model's (log 10). -/
  | busWr (addr : BitVec 64) (size : Nat) (v : HostWord)
  /-- A read of `size` bytes at a host address of the register space (R40). -/
  | busRd (addr : BitVec 64) (size : Nat)
  /-- The host writes a byte of memory by its own means (R40 item 2). -/
  | memWr (a : Addr) (b : Byte)
  /-- The host reads a byte of memory by its own means (R40 item 2). -/
  | memRd (a : Addr)
  /-- A reset of the instance while no command runs (R190). -/
  | reset
  /-- `WR 0, v` whose command a reset ends before its end (R191). -/
  | resetDuring (v : HostWord)
  deriving DecidableEq, Repr

/-- A host request: the instance it goes to (R38) and what is done to it. -/
structure HostReq where
  /-- The number of the instance, as the platform numbers them (R176). -/
  inst : Nat
  /-- The operation. -/
  op : HostOp
  deriving DecidableEq, Repr

end Sys2Proof
end

