-- ==== Sys2Proof/WellFormed.lean ====
section
/-! DEFINITION. Well-formed command words (R60, R63, R66) and host requests (R38), one check each. -/

namespace Sys2Proof

/-- Format G is the format of opcode 0x10, `RSZ.GEN` (R60). -/
def CmdFields.isFormatG (f : CmdFields) : Bool := f.opc == 0x10#8

/-- Bits 31:11 are zero (R60). -/
def CmdFields.zeroOk (f : CmdFields) : Bool := f.zero == 0#21

/-- The opcode is one of the nine of R66. -/
def CmdFields.opcOk (f : CmdFields) : Bool :=
  [0x01#8, 0x02#8, 0x10#8, 0x20#8, 0x21#8, 0x22#8, 0x23#8, 0x24#8, 0x30#8].contains f.opc

/-- In format N bits 10:8 are zero (R63). -/
def CmdFields.formatNOk (f : CmdFields) : Bool := f.isFormatG || f.sfmt == 0#3

/-- In format G `SFMT` is 0 to 4 (R63). -/
def CmdFields.sfmtOk (f : CmdFields) : Bool := !f.isFormatG || decide (f.sfmt.toNat ≤ 4)

/-- The fields of a legal command word: all four checks. -/
def CmdFields.wf (f : CmdFields) : Bool := f.zeroOk && f.opcOk && f.formatNOk && f.sfmtOk

/-- A command has no operand (R64), so every term of `Instr` is well formed; the words that are no command are refused
by the decoder. -/
def Instr.wf (_ : Instr) : Bool := true

/-- The request goes to one of `numInst` instances (R38). -/
def HostReq.wf (numInst : Nat) (q : HostReq) : Bool := decide (q.inst < numInst)

end Sys2Proof
end

