-- ==== Sys2Proof/Decode.lean ====
section
/-! DEFINITION. The decoder (R62, R66, R67), total on 32-bit words and rejecting by name; after it the encoder, written from
the fields of R60 and R62. A word is decoded whole: the register space has no byte order (R45). -/

namespace Sys2Proof

/-- Why a word is illegal (the five cases of R66; an undefined opcode covers `OPC` = 0x00). -/
inductive Illegal where
  /-- `OPC` is none of the nine opcodes. -/
  | undefinedOpcode
  /-- A legal `OPC` with any of bits 31:11 nonzero. -/
  | reservedBits
  /-- A format N `OPC` with bits 10:8 nonzero. -/
  | formatNBits
  /-- `OPC` = 0x10 with `SFMT` 5, 6 or 7. -/
  | reservedSfmt
  deriving DecidableEq, Repr

/-- The fields of a word (R14, R60). -/
def splitWord (w : CmdWord) : CmdFields :=
  { zero := w.extractLsb' 11 21, sfmt := w.extractLsb' 8 3, opc := w.extractLsb' 0 8 }

/-- The word of the fields (R60). -/
def joinWord (f : CmdFields) : CmdWord := (f.zero ++ f.sfmt ++ f.opc).setWidth 32

/-- The `match` column of R62. -/
def matchTable : List (CmdWord × Instr) :=
  [(0x00000001#32, .clamp8), (0x00000002#32, .clamp16),
   (0x00000010#32, .genRgba8), (0x00000110#32, .genRgba16), (0x00000210#32, .genGray8),
   (0x00000310#32, .genGray16), (0x00000410#32, .genYcc8),
   (0x00000020#32, .rgba8), (0x00000021#32, .rgba16), (0x00000022#32, .gray8),
   (0x00000023#32, .gray16), (0x00000024#32, .ycc8), (0x00000030#32, .nnYcc8)]

/-- The name under which a word that matches no row is rejected (R66). -/
def illegalReason (w : CmdWord) : Illegal :=
  let f := splitWord w
  if !f.opcOk then .undefinedOpcode
  else if !f.zeroOk then .reservedBits
  else if !f.formatNOk then .formatNBits
  else .reservedSfmt

/-- The decoder: equality of all 32 bits with one of the thirteen `match` values (R62, R67). -/
def decode (w : CmdWord) : Except Illegal Instr :=
  match matchTable.lookup w with
  | some i => .ok i
  | none => .error (illegalReason w)

/-- The `OPC` and `SFMT` columns of R62. -/
def encodeFields : Instr → CmdFields
  | .clamp8 => { zero := 0, sfmt := 0, opc := 0x01 }
  | .clamp16 => { zero := 0, sfmt := 0, opc := 0x02 }
  | .genRgba8 => { zero := 0, sfmt := 0, opc := 0x10 }
  | .genRgba16 => { zero := 0, sfmt := 1, opc := 0x10 }
  | .genGray8 => { zero := 0, sfmt := 2, opc := 0x10 }
  | .genGray16 => { zero := 0, sfmt := 3, opc := 0x10 }
  | .genYcc8 => { zero := 0, sfmt := 4, opc := 0x10 }
  | .rgba8 => { zero := 0, sfmt := 0, opc := 0x20 }
  | .rgba16 => { zero := 0, sfmt := 0, opc := 0x21 }
  | .gray8 => { zero := 0, sfmt := 0, opc := 0x22 }
  | .gray16 => { zero := 0, sfmt := 0, opc := 0x23 }
  | .ycc8 => { zero := 0, sfmt := 0, opc := 0x24 }
  | .nnYcc8 => { zero := 0, sfmt := 0, opc := 0x30 }

/-- The encoder: the command word of an instruction (R60). -/
def encode (i : Instr) : CmdWord := joinWord (encodeFields i)

/-- The instruction the decoder reads from an instruction of `nbits` bits that are `w`. A command word has 32 bits; a number
that does not fit is no command word. -/
def decodeTableWord (nbits w : Nat) : Option Instr :=
  if w % 2 ^ nbits < 2 ^ 32 then (decode (BitVec.ofNat 32 (w % 2 ^ nbits))).toOption else none

end Sys2Proof
end

