-- ==== Sys2Proof/Machine/State.lean ====
section
/-! DEFINITION. The state of the machine as plain data: the register file of R10, the sequencer and accumulators of R32 and
R33, memory (R36), the platform's open parameters (R5) and the model's own fields, and its value after reset (R37). -/

namespace Sys2Proof.Machine

/-- The position of the CONV sequencer inside a running pass (R32): line, destination coordinate, tap. -/
structure SeqPos where
  line : Nat
  dest : Nat
  tap : Nat
  deriving DecidableEq, Repr

/-- One access of the memory port (R43, R44): a byte read, or a byte written with its value. -/
inductive Access where
  | rd (a : Addr)
  | wr (a : Addr) (b : Byte)
  deriving DecidableEq, Repr

/-- What one RSZ instance holds (R38): the 18 registers of R10, and the sequencer position and MAC accumulators, which the
host can neither read nor write (R32, R33). -/
structure RegFile where
  /-- 0, `CMD` (R14). -/
  cmd : CmdWord
  /-- 1, `STATUS` (R15); its fields are read and written through Machine/Flags.lean. -/
  status : BitVec 32
  /-- 2, `ERR_INFO` (R16). -/
  errInfo : BitVec 64
  /-- 3, `SRC_BASE` (R17). -/
  srcBase : BitVec 64
  /-- 4, `SRC_STRIDE` (R18). -/
  srcStride : BitVec 32
  /-- 5, `SRC_MIN` (R19), signed. -/
  srcMin : BitVec 32
  /-- 6, `SRC_MAX` (R20), signed. -/
  srcMax : BitVec 32
  /-- 7, `DST_BASE` (R21). -/
  dstBase : BitVec 64
  /-- 8, `DST_STRIDE` (R22). -/
  dstStride : BitVec 32
  /-- 9, `D_MIN` (R23), signed. -/
  dMin : BitVec 32
  /-- 10, `D_MAX` (R24), signed. -/
  dMax : BitVec 32
  /-- 11, `LINES` (R25). -/
  lines : BitVec 32
  /-- 12, `COEF_BASE` (R26). -/
  coefBase : BitVec 64
  /-- 13, `OFFS_BASE` (R27). -/
  offsBase : BitVec 64
  /-- 14, `FILTER_LEN` (R28). -/
  filterLen : BitVec 16
  /-- 15, `SCALE` (R29). -/
  scale : BitVec 64
  /-- 16, `OPA` (R30), signed. -/
  opa : BitVec 64
  /-- 17, `RESULT` (R31). -/
  result : BitVec 16
  /-- The sequencer position `seq` (R32); it holds nothing between commands. -/
  seq : Option SeqPos
  /-- `ACC[0]` to `ACC[3]` (R33), as the numbers they hold: their type depends on the command (log 8). -/
  acc : List Int
  /-- `WSUM` (R33), as the number it holds (log 8). -/
  wsum : Int
  deriving DecidableEq, Repr

/-- A range of mapped byte addresses: `size` bytes from `base` (R42). -/
structure Range where
  base : Nat
  size : Nat
  deriving DecidableEq, Repr

/-- The platform's open parameters (R5, U15). No step changes them. DESIGN CHOICE (log 10): R40 gives one `RSZ_BASE` and does not
say where the register files of several instances lie in the host's address space, so all instances share it here, and a bus
access reaches the instance that its request names. -/
structure Platform where
  /-- `mapped` (R42): the union of these ranges (log 2). -/
  mapped : List Range
  /-- `NUM_INST` (R38, R176) (log 4). -/
  numInst : Nat
  /-- `RSZ_BASE` (R40); the width of the host's address space is not given, 64 bits are taken (DESIGN CHOICE, log 10). -/
  rszBase : BitVec 64
  deriving DecidableEq, Repr

/-- Memory (R36): (address, byte) pairs, addresses strictly rising, no entry equal to what an unlisted address reads as. -/
abbrev Memory := List Host.Cell

/-- The state of the machine. -/
structure State where
  /-- The register file of the selected instance (R38). -/
  rf : RegFile
  /-- MODEL's own: the number of the selected instance, the one the last request went to (log 4). -/
  sel : Nat
  /-- MODEL's own: the register files of the other instances, by number; an unlisted one holds the reset values (log 4). -/
  parked : List (Nat × RegFile)
  /-- Memory, shared by all instances and hosts (R36). -/
  mem : Memory
  /-- The platform's open parameters (R5). -/
  platform : Platform
  /-- MODEL's own: the host requests not yet performed, the next one first (log 1). -/
  pending : List HostReq
  /-- MODEL's own: the value the last read returned to its host (log 11). -/
  rdData : HostWord
  /-- MODEL's own: the memory-port accesses of the last accepted command, the first one first (log 12). -/
  bus : List Access
  /-- MODEL's own: how many free values have been drawn (logs 6, 7). -/
  draws : Nat
  deriving DecidableEq, Repr

/-- The fault causes of R160. They are latched in `STATUS` and `ERR_INFO` and the machine goes on; none of them stops it. -/
inductive Cause where
  | illegalCmd
  | badDesc
  | divZero
  | busErr
  deriving DecidableEq, Repr

/-- Why a step stops with a fault. No command does: the four faults of R160 are next states. -/
inductive Fault where
  /-- Raised by the host's own access to memory (`memWr`, `memRd`) at an address where memory is not defined (R36, R42).
  Safe: the spec gives such an access no effect (log 13). -/
  | hostUnmapped (a : Addr)
  deriving DecidableEq, Repr

/-- Why a step is refused. No command is. -/
inductive Refusal where
  /-- An instruction without a meaning yet, by mnemonic; raised by a refused arm of exec only. Safe. -/
  | notModelled (mnemonic : String)
  /-- Raised by a host access to the register space that is not one aligned 64-bit access: R40, "not defined by this spec
  and a model refuses them". Safe. -/
  | hostAccessUndefined
  /-- Raised by a request to an instance that the platform does not have (R38, R176). Safe (log 4). -/
  | noSuchInstance
  deriving DecidableEq, Repr

/-- The register file after reset (R37, R190): every register 0, the sequencer holding nothing. The accumulators' zero is
the model's choice (DESIGN CHOICE, log 8). -/
def RegFile.reset : RegFile :=
  { cmd := 0, status := 0, errInfo := 0, srcBase := 0, srcStride := 0, srcMin := 0, srcMax := 0, dstBase := 0,
    dstStride := 0, dMin := 0, dMax := 0, lines := 0, coefBase := 0, offsBase := 0, filterLen := 0, scale := 0, opa := 0,
    result := 0, seq := none, acc := [0, 0, 0, 0], wsum := 0 }

/-- The platform at reset (DESIGN CHOICE, logs 2, 4, 10): the whole 64-bit space mapped, one instance, registers at 0. -/
def Platform.reset : Platform := { mapped := [{ base := 0, size := 2 ^ 64 }], numInst := 1, rszBase := 0 }

/-- The machine right after reset (R37, R190), memory with nothing listed (log 3) and no host request (log 1). -/
def State.reset : State :=
  { rf := RegFile.reset, sel := 0, parked := [], mem := [], platform := Platform.reset, pending := [], rdData := 0,
    bus := [], draws := 0 }

end Sys2Proof.Machine
end

