-- ==== Sys2Proof/Machine/Flags.lean ====
section
/-! DEFINITION. The flags of RSZ (R34): the fields of STATUS (R15) and how they are written. There are no arithmetic flags. -/

namespace Sys2Proof.Machine

/-- `STATUS.DONE`, bit 0 (R15). -/
def statusDone (w : BitVec 32) : Bool := w.getLsbD 0

/-- `STATUS.ERR`, bit 1 (R15). -/
def statusErr (w : BitVec 32) : Bool := w.getLsbD 1

/-- `STATUS.CAUSE`, bits 7:4 (R15). -/
def statusCause (w : BitVec 32) : BitVec 4 := w.extractLsb' 4 4

/-- The reserved bits of `STATUS`, 3:2 and 31:8, read as 0 (R15). -/
def statusReservedZero (w : BitVec 32) : Bool := w &&& 0xFFFFFF0C#32 == 0#32

/-- The fault cause codes of R160. -/
def Cause.code : Cause → BitVec 4
  | .illegalCmd => 1
  | .badDesc => 2
  | .divZero => 3
  | .busErr => 4

/-- `STATUS.DONE <- b`, every other bit kept. -/
def setDone (b : Bool) (w : BitVec 32) : BitVec 32 :=
  (w &&& 0xFFFFFFFE#32) ||| (if b then 1#32 else 0#32)

/-- `STATUS.ERR <- 1`, `STATUS.CAUSE <- c`, every other bit kept (R166). -/
def latchCause (c : BitVec 4) (w : BitVec 32) : BitVec 32 :=
  (w &&& 0xFFFFFF0D#32) ||| 2#32 ||| (c.setWidth 32 <<< 4)

/-- `STATUS.ERR <- 0`, `STATUS.CAUSE <- 0`, every other bit kept (R15). -/
def clearCause (w : BitVec 32) : BitVec 32 := w &&& 0xFFFFFF0D#32

end Sys2Proof.Machine
end

