-- ==== Sys2Proof/Machine/Operands.lean ====
section
/-! DEFINITION. The operands: the host's view of the registers (R10 to R13), the arithmetic primitives (R7), the descriptor
of a pass (R64), the pixel formats (R48) and the address formulas (R41, R50 to R53), the boundary policy (R94). -/

namespace Sys2Proof.Machine

/-- `wrap_N` (R7): the signed N-bit integer congruent to `v` modulo 2^N. -/
def wrapS (n : Nat) (v : Int) : Int := v.bmod (2 ^ n)

/-- `sext_N` of an unsigned integer read from memory (R7). -/
def sextNat (n : Nat) (v : Nat) : Int := (BitVec.ofNat n v).toInt

/-- `tdiv` (R7): the quotient rounded toward zero. -/
def truncDiv (a b : Int) : Int := a.tdiv b

/-- `RD i` (R12, R13): the stored bits zero-extended; 0 above index 17. -/
def readReg (rf : RegFile) : Nat → HostWord
  | 0 => rf.cmd.setWidth 64
  | 1 => rf.status.setWidth 64
  | 2 => rf.errInfo
  | 3 => rf.srcBase
  | 4 => rf.srcStride.setWidth 64
  | 5 => rf.srcMin.setWidth 64
  | 6 => rf.srcMax.setWidth 64
  | 7 => rf.dstBase
  | 8 => rf.dstStride.setWidth 64
  | 9 => rf.dMin.setWidth 64
  | 10 => rf.dMax.setWidth 64
  | 11 => rf.lines.setWidth 64
  | 12 => rf.coefBase
  | 13 => rf.offsBase
  | 14 => rf.filterLen.setWidth 64
  | 15 => rf.scale
  | 16 => rf.opa
  | 17 => rf.result.setWidth 64
  | _ => 0

/-- The W1C write to `STATUS` (R15), which is also how the fault state is left (R168): with `v[1]` = 1 and `ERR` = 1 the
fault is cleared; otherwise nothing changes. `DONE` is never changed. -/
def writeStatus (v : HostWord) (rf : RegFile) : RegFile :=
  if v.getLsbD 1 && statusErr rf.status then { rf with status := clearCause rf.status, errInfo := 0 } else rf

/-- `WR i, v` for `i` other than 0 (R11, R13, R15): `v[W-1:0]` is stored in an RW register, `STATUS` is W1C, read-only
registers and indices above 17 keep everything. The write to `CMD` (index 0) is `hostWriteCmd`. -/
def writeReg (rf : RegFile) (i : Nat) (v : HostWord) : RegFile :=
  match i with
  | 1 => writeStatus v rf
  | 3 => { rf with srcBase := v }
  | 4 => { rf with srcStride := v.setWidth 32 }
  | 5 => { rf with srcMin := v.setWidth 32 }
  | 6 => { rf with srcMax := v.setWidth 32 }
  | 7 => { rf with dstBase := v }
  | 8 => { rf with dstStride := v.setWidth 32 }
  | 9 => { rf with dMin := v.setWidth 32 }
  | 10 => { rf with dMax := v.setWidth 32 }
  | 11 => { rf with lines := v.setWidth 32 }
  | 12 => { rf with coefBase := v }
  | 13 => { rf with offsBase := v }
  | 14 => { rf with filterLen := v.setWidth 16 }
  | 15 => { rf with scale := v }
  | 16 => { rf with opa := v }
  | _ => rf

/-- The register index of a host access of `size` bytes at `addr` (R40): register `i` is at `RSZ_BASE + 8*i` and is accessed
with one 64-bit access; no other access is defined. DESIGN CHOICE (log 10): host addresses have 64 bits and do not wrap, so a
register whose address would lie past 2^64 cannot be reached. -/
def regIndex? (base addr : BitVec 64) (size : Nat) : Option Nat :=
  if size = 8 ∧ base.toNat ≤ addr.toNat ∧ (addr.toNat - base.toNat) % 8 = 0 then
    some ((addr.toNat - base.toNat) / 8)
  else none

/-- The descriptor of a pass (R64): the twelve registers, read at the start of the command and constant during it. -/
structure Desc where
  srcBase : Addr
  srcStride : Nat
  srcMin : Int
  srcMax : Int
  dstBase : Addr
  dstStride : Nat
  dMin : Int
  dMax : Int
  lines : Nat
  coefBase : Addr
  offsBase : Addr
  /-- `L`, the filter length (R28). -/
  taps : Nat
  deriving DecidableEq, Repr

/-- The descriptor that a register file holds; signed registers through `sext_32` (R64). -/
def RegFile.desc (rf : RegFile) : Desc :=
  { srcBase := rf.srcBase, srcStride := rf.srcStride.toNat, srcMin := rf.srcMin.toInt, srcMax := rf.srcMax.toInt,
    dstBase := rf.dstBase, dstStride := rf.dstStride.toNat, dMin := rf.dMin.toInt, dMax := rf.dMax.toInt,
    lines := rf.lines.toNat, coefBase := rf.coefBase, offsBase := rf.offsBase, taps := rf.filterLen.toNat }

/-- How many destination coordinates a line produces (R24): `max(0, D_MAX - D_MIN)`. -/
def Desc.dests (D : Desc) : Nat := (D.dMax - D.dMin).toNat

/-- The first destination coordinate, for a descriptor that passed check 2 of R162 (R23). -/
def Desc.firstDest (D : Desc) : Nat := D.dMin.toNat

/-- Channels of a memory format (R48). -/
def fmtChans : PixFmt → Nat
  | .rgba8 => 4
  | .rgba16 => 4
  | .gray8 => 1
  | .gray16 => 1
  | .ycc8 => 3

/-- Bytes per sample of a memory format (R48). -/
def fmtSw : PixFmt → Nat
  | .rgba8 => 1
  | .rgba16 => 2
  | .gray8 => 1
  | .gray16 => 2
  | .ycc8 => 1

/-- Bytes per pixel, `C*SW` (R47, R48). -/
def fmtBpp (f : PixFmt) : Nat := fmtChans f * fmtSw f

/-- `PA(r, xc)` (R50, R96): the first byte of the source pixel of line `r` at clamped coordinate `xc`. -/
def srcAddr (D : Desc) (bpp r : Nat) (xc : Int) : Addr :=
  BitVec.ofInt 64 (D.srcBase.toNat + r * D.srcStride + (xc - D.srcMin) * bpp)

/-- `DA(r, d)` (R51): the first byte of the destination pixel of line `r` and destination coordinate `d`; the destination is
written transposed. -/
def dstAddr (D : Desc) (bpp r d : Nat) : Addr :=
  BitVec.ofInt 64 (D.dstBase.toNat + (d - D.dMin) * D.dstStride + r * bpp)

/-- `CA(d, i)` (R52): coefficient element `d*L + i`, of `cw` bytes. -/
def coefAddr (D : Desc) (cw d i : Nat) : Addr :=
  BitVec.ofNat 64 (D.coefBase.toNat + cw * (d * D.taps + i))

/-- `OA(d)` (R53): offset element `d`, of 4 bytes. -/
def offsAddr (D : Desc) (d : Nat) : Addr :=
  BitVec.ofNat 64 (D.offsBase.toNat + 4 * d)

/-- `BIDX(xi, smin, smax)` (R94): edge replication, per tap. -/
def bidx (xi smin smax : Int) : Int :=
  if smin ≤ xi ∧ xi < smax then xi else if smax ≤ xi then smax - 1 else smin

/-- The bytes a pass writes, as a region (R51, R197): `rows` rows, `stride` bytes apart, of `rowBytes` bytes each. -/
structure DstRegion where
  base : Addr
  stride : Nat
  rows : Nat
  rowBytes : Nat
  deriving DecidableEq, Repr

/-- The destination of a pass whose destination pixels have `bpp` bytes: `D_MAX - D_MIN` rows of `LINES` pixels (R51). -/
def Desc.dstRegion (D : Desc) (bpp : Nat) : DstRegion :=
  { base := D.dstBase, stride := D.dstStride, rows := D.dests, rowBytes := D.lines * bpp }

/-- Whether `a` is a byte of the region: with `o` the distance from the base, the row that starts last at or below `o` holds
it. It equals "some row and some byte of the row lie at `a`" (lemma `dstRegion_has_iff` of Laws/Operands.lean). -/
def DstRegion.has (g : DstRegion) (a : Addr) : Bool :=
  let o := (a - g.base).toNat
  let row := if g.stride = 0 then 0 else min (o / g.stride) (g.rows - 1)
  decide (0 < g.rows) && decide (o - row * g.stride < g.rowBytes)

end Sys2Proof.Machine
end

