-- ==== Sys2Proof/Machine/Ops.lean ====
section
/-! DEFINITION. The named operations: sparse lists and memory (R36), the memory port (R41 to R45), the instances (R38), the
acceptance of a command, its end, fault entry and the way out of the fault state (R61, R166, R168), reset (R190). -/

namespace Sys2Proof.Machine

/-! ## Sparse lists, the one representation of memory and of the parked instances -/

/-- The value at key `a`; `d` where the list has no entry. -/
def sparseGet {α : Type} (d : α) : List (Nat × α) → Nat → α
  | [], _ => d
  | (k, v) :: l, a => if k = a then v else sparseGet d l a

/-- Put `v` at key `a`, keeping the keys rising and listing no `d`. -/
def sparseSet {α : Type} [DecidableEq α] (d : α) (a : Nat) (v : α) : List (Nat × α) → List (Nat × α)
  | [] => if v = d then [] else [(a, v)]
  | (k, w) :: l =>
    if k < a then (k, w) :: sparseSet d a v l
    else if k = a then (if v = d then l else (a, v) :: l)
    else (if v = d then (k, w) :: l else (a, v) :: (k, w) :: l)

/-- The canonical form: keys strictly rising and below `bound`, no entry equal to `d`. -/
abbrev sparseWf {α : Type} (d : α) (bound : Nat) (l : List (Nat × α)) : Prop :=
  l.Pairwise (fun x y => x.1 < y.1) ∧ ∀ c ∈ l, c.2 ≠ d ∧ c.1 < bound

/-! ## Memory -/

/-- What an unlisted address reads as (DESIGN CHOICE, log 3: the initial contents are the platform's, R37). -/
def unlistedByte : Byte := 0#8

/-- The byte at an address. -/
def Memory.read (m : Memory) (a : Addr) : Byte := sparseGet unlistedByte m a.toNat

/-- Memory with the byte `b` at address `a`. -/
def Memory.write (m : Memory) (a : Addr) (b : Byte) : Memory := sparseSet unlistedByte a.toNat b m

/-- The canonical form of memory. -/
abbrev Memory.wf (m : Memory) : Prop := sparseWf unlistedByte (2 ^ 64) m

/-- Memory after the writes of a list of accesses, the first access first. -/
def applyWrites (m : Memory) : List Access → Memory
  | [] => m
  | .rd _ :: l => applyWrites m l
  | .wr a b :: l => applyWrites (m.write a b) l

/-- `mapped(a)` (R42), the union of the platform's ranges (log 2). -/
def Platform.isMapped (p : Platform) (a : Addr) : Bool :=
  p.mapped.any fun g => decide (g.base ≤ a.toNat) && decide (a.toNat < g.base + g.size)

/-! ## The memory port during a command -/

/-- What a running command changes besides its registers: memory, the sequencer and the accumulators (R32, R33), the record
of its accesses (last one first) and the counter of free values. -/
structure Engine where
  mem : Memory
  bus : List Access
  draws : Nat
  seq : Option SeqPos
  acc : List Int
  wsum : Int
  deriving DecidableEq, Repr

/-- What the port needs to know during a command: the platform, and the bytes the command writes (R197). -/
structure Port where
  platform : Platform
  dst : DstRegion
  deriving DecidableEq, Repr

/-- The result of a piece of a command: it goes on with a value, or `raise Fault(cause, info)` ends the command there (R7).
Both keep what was done before. -/
inductive Run (α : Type) where
  | ok (x : α) (e : Engine)
  | fault (c : Cause) (info : BitVec 64) (e : Engine)
  deriving DecidableEq, Repr

/-- The next piece of a command, not run after a fault. -/
def Run.andThen {α β : Type} (r : Run α) (f : α → Engine → Run β) : Run β :=
  match r with
  | .ok x e => f x e
  | .fault c info e => .fault c info e

/-- One byte read (R42, R43). Unmapped: `BUS_ERR` with the address, and the access does not happen (R164). A byte that the
command itself writes reads as a free value (R197, log 6). -/
def readByte (P : Port) (a : Addr) (e : Engine) : Run Byte :=
  if P.platform.isMapped a then
    if P.dst.has a then
      .ok (Config.hazardByte e.draws) { e with bus := .rd a :: e.bus, draws := e.draws + 1 }
    else .ok (e.mem.read a) { e with bus := .rd a :: e.bus }
  else .fault .busErr a e

/-- One byte written (R42, R44); unmapped: `BUS_ERR` with the address, and the access does not happen (R164). -/
def writeByte (P : Port) (a : Addr) (b : Byte) (e : Engine) : Run Unit :=
  if P.platform.isMapped a then .ok () { e with mem := e.mem.write a b, bus := .wr a b :: e.bus }
  else .fault .busErr a e

/-- The bytes of `MemRead` from the second on: `acc` is the value of the bytes read before. -/
def memReadFrom (P : Port) (acc : Nat) : Nat → Addr → Engine → Run Nat
  | 0, _, e => .ok acc e
  | n + 1, a, e => (readByte P a e).andThen fun b e' => memReadFrom P (acc * 256 + b.toNat) n (a + 1) e'

/-- `MemRead(addr, n)` (R7, R43): `n` single-byte reads at ascending addresses, combined big-endian (R45). -/
def memRead (P : Port) (n : Nat) (a : Addr) (e : Engine) : Run Nat := memReadFrom P 0 n a e

/-- `MemWrite(addr, n, v)` (R7, R44): `n` single-byte writes at ascending addresses, most significant byte first (R45). -/
def memWrite (P : Port) : Nat → Addr → Nat → Engine → Run Unit
  | 0, _, _, e => .ok () e
  | n + 1, a, v, e =>
    (writeByte P a (BitVec.ofNat 8 (v / 256 ^ n)) e).andThen fun _ e' => memWrite P n (a + 1) v e'

/-- A loop of the listing (R92): `body i`, `body (i+1)`, ... `count` times, ended by the first fault. -/
def loopUp (body : Nat → Engine → Run Unit) : (count i : Nat) → Engine → Run Unit
  | 0, _, e => .ok () e
  | n + 1, i, e => (body i e).andThen fun _ e' => loopUp body n (i + 1) e'

/-! ## Commands: acceptance, end, faults -/

/-- Fault entry (R166): `ERR` and `CAUSE` latched, `ERR_INFO` written; nothing else changes. -/
def raiseFault (c : Cause) (info : BitVec 64) (s : State) : State :=
  { s with rf := { s.rf with status := latchCause c.code s.rf.status, errInfo := info } }

/-- Leaving the fault state (R168): the write of `STATUS` with bit 1 set. Nothing is resumed. -/
def clearFault (s : State) : State := { s with rf := writeStatus 2#64 s.rf }

/-- Step (1) of R61: `CMD` takes the word, `STATUS.DONE <- 0`; the record of accesses starts anew (log 12). -/
def acceptCommand (w : CmdWord) (s : State) : State :=
  { s with rf := { s.rf with cmd := w, status := setDone false s.rf.status }, bus := [] }

/-- How the body of a command ends (R177): normally, or by `raise Fault(cause, info)`, in a state in either case. -/
inductive CmdEnd where
  | done (s : State)
  | faulted (c : Cause) (info : BitVec 64) (s : State)
  deriving DecidableEq, Repr

/-- Step (5) of R61: `STATUS.DONE <- 1` if no fault was raised; fault entry otherwise. -/
def CmdEnd.finish : CmdEnd → State
  | .done s => { s with rf := { s.rf with status := setDone true s.rf.status } }
  | .faulted c info s => raiseFault c info s

/-- `WR 0, w` for a word whose execution from step (3) of R61 on is `body`: ignored while `ERR` = 1 (R14, R167), else steps
(1) to (5). -/
def runCommand (w : CmdWord) (body : State → CmdEnd) (s : State) : State :=
  if statusErr s.rf.status then s else (body (acceptCommand w s)).finish

/-- A word that matches no row (R66, R161): `ILLEGAL_CMD` with the word. -/
def execIllegal (w : CmdWord) (s : State) : State :=
  runCommand w (fun s' => .faulted .illegalCmd (w.setWidth 64) s') s

/-! ## Instances and reset -/

/-- The register file of instance `k` (R38). -/
def instanceFile (s : State) (k : Nat) : RegFile :=
  if k = s.sel then s.rf else sparseGet RegFile.reset s.parked k

/-- Make `k` the selected instance: its register file comes into `rf`, the one selected before is parked (log 4). -/
def selectInstance (k : Nat) (s : State) : State :=
  if k = s.sel then s
  else
    { s with
      rf := sparseGet RegFile.reset s.parked k
      sel := k
      parked := sparseSet RegFile.reset k RegFile.reset (sparseSet RegFile.reset s.sel s.rf s.parked) }

/-- Reset of the selected instance (R190): its registers take their reset values; memory and all else is untouched. -/
def resetInstance (s : State) : State := { s with rf := RegFile.reset }

end Sys2Proof.Machine
end

