-- ==== Sys2Proof/Machine/Pfc.lean ====
section
/-! DEFINITION. The pixel format converter and clamp unit, PFC (R1): the clamps (R80, R81), the rounding of the
nearest-neighbour pass (R153) and the unpack of the generic pass (R122). -/

namespace Sys2Proof.Machine

/-- `clamp8` (R80): 0 below 0, 255 above 255, else the value. -/
def clamp8 (v : Int) : Nat := if v < 0 then 0 else if 255 < v then 255 else v.toNat

/-- `clamp16` (R81): the same policy over 0 to 65535. -/
def clamp16 (v : Int) : Nat := if v < 0 then 0 else if 65535 < v then 65535 else v.toNat

/-- The finishing value of the nearest-neighbour pass by the integer formula `floor((2*P + N) / (2*N))`, "which a model should
use" (R153): the mean rounded to nearest, halfway cases up. -/
def roundMean (p n : Int) : Nat := ((2 * p + n) / (2 * n)).toNat

/-- The quotient `a/b` rounded to the nearest integer, halfway cases to even. -/
def nearestEven (a b : Nat) : Nat :=
  if 2 * (a % b) < b then a / b
  else if b < 2 * (a % b) then a / b + 1
  else if (a / b) % 2 = 0 then a / b else a / b + 1

/-- The scale of the binary32 quotient of `p` by `n`: the least exponent `k` from `k` on, within the fuel, at which
`p * 2^k / n` has the 24 bits of a binary32 significand. -/
def quotScale (p n : Nat) : (fuel k : Nat) → Nat
  | 0, k => k
  | f + 1, k => if 2 ^ 23 * n ≤ p * 2 ^ k then k else quotScale p n f (k + 1)

/-- REFERENCE for `roundMean`, not used by any command: R153 literally. The quotient `P/N` in binary32 (a 24-bit significand
over a power of two, rounded to nearest even), then `floor(x + 1/2)` evaluated exactly. For `1 <= N <= 65535` and
`0 <= P <= 255*N`, the values that occur. -/
def roundMeanBinary32 (p n : Nat) : Nat :=
  if p = 0 then 0
  else
    let k := quotScale p n 64 0
    (2 * nearestEven (p * 2 ^ k) n + 2 ^ k) / (2 * 2 ^ k)

/-- The 16-bit widening of an 8-bit sample, `b*257` (R122). -/
def widen8 (b : Nat) : Nat := b * 257

/-- The value of a missing alpha channel (R122). -/
def opaqueAlpha : Nat := 65535

/-- `UNPACK` (R122) on the samples of one source pixel, in ascending address order: the four logical channels red, green,
blue, alpha (R121). -/
def unpackLanes : PixFmt → List Nat → List Nat
  | .rgba8, ss => ss.map widen8
  | .rgba16, ss => ss
  | .gray8, ss => List.replicate 3 (widen8 (ss.headD 0)) ++ [opaqueAlpha]
  | .gray16, ss => List.replicate 3 (ss.headD 0) ++ [opaqueAlpha]
  | .ycc8, ss => ss.map widen8 ++ [opaqueAlpha]

end Sys2Proof.Machine
end

