-- ==== Sys2Proof/Machine/Clamp.lean ====
section
/-! DEFINITION. The clamp commands (R82, R83). -/

namespace Sys2Proof.Machine

/-- The body of a clamp command: `RESULT` takes a 16-bit value computed from `OPA`; nothing can fault. -/
def clampBody (f : Int → Nat) (s : State) : CmdEnd :=
  .done { s with rf := { s.rf with result := BitVec.ofNat 16 (f s.rf.opa.toInt) } }

/-- `CLAMP8` (R82): `RESULT <- clamp8(sext_64(OPA))`. -/
def execClamp8 (s : State) : Host.Outcome State Fault Refusal :=
  .next (runCommand (encode .clamp8) (clampBody clamp8) s)

/-- `CLAMP16` (R83): `RESULT <- clamp16(sext_64(OPA))`. -/
def execClamp16 (s : State) : Host.Outcome State Fault Refusal :=
  .next (runCommand (encode .clamp16) (clampBody clamp16) s)

end Sys2Proof.Machine
end

