-- ==== Sys2Proof/Machine/Pass.lean ====
section
/-! DEFINITION. The resampling pass shared by every `RSZ.*` command: the listing of R92 and its steps R93 to R105. -/

namespace Sys2Proof.Machine

/-- The type of a coefficient-table element (R90): two's complement, or a boolean byte (R151). -/
inductive CoefType where
  | signed
  | boolean
  deriving DecidableEq, Repr

/-- The type of the accumulators (R33): two's complement of a width, or binary32. -/
inductive AccType where
  | signed (width : Nat)
  | binary32
  deriving DecidableEq, Repr

/-- The finishing function (R90). -/
inductive Finish where
  | clamp8
  | clamp16
  | nearest
  deriving DecidableEq, Repr

/-- The parameters of a pass, the columns of R90: the formats give `C`, `SW` and `BPP` (R48). -/
structure PassSpec where
  /-- The memory format of the source. -/
  src : PixFmt
  /-- The memory format of the destination; its channels are the lanes of the pass. -/
  dst : PixFmt
  /-- Whether the source pixel is unpacked to four logical channels (R122) or taken as it is (R99). -/
  unpack : Bool
  /-- `CW`, bytes per coefficient-table element. -/
  cw : Nat
  coef : CoefType
  acc : AccType
  finish : Finish
  deriving DecidableEq, Repr

/-- The value of a coefficient-table element (R98, R151): a boolean counts as 1 when selected. -/
def coefValue (t : CoefType) (cw raw : Nat) : Int :=
  match t with
  | .signed => sextNat (8 * cw) raw
  | .boolean => if raw = 0 then 0 else 1

/-- `wrap_AW` (R101). In the nearest-neighbour pass every sum is an integer below 2^24, exact in binary32 (R152). -/
def accWrap (t : AccType) (v : Int) : Int :=
  match t with
  | .signed w => wrapS w v
  | .binary32 => v

/-- The value stored for a channel (R103, R153): normalised by the weight sum, then finished. -/
def finishValue (ps : PassSpec) (wsum acc : Int) : Nat :=
  match ps.finish with
  | .clamp8 => clamp8 (accWrap ps.acc (truncDiv acc wsum))
  | .clamp16 => clamp16 (accWrap ps.acc (truncDiv acc wsum))
  | .nearest => roundMean acc wsum

/-- `n` samples of `sw` bytes each, in ascending order (R99). -/
def readSamples (P : Port) (sw : Nat) : Nat → Addr → Engine → Run (List Nat)
  | 0, _, e => .ok [] e
  | n + 1, a, e =>
    (memRead P sw a e).andThen fun v e1 =>
      (readSamples P sw n (a + BitVec.ofNat 64 sw) e1).andThen fun vs e2 => .ok (v :: vs) e2

/-- `SAMPLES(r, xc)` (R99), or `UNPACK(SFMT, PA(r, xc))` in the generic pass (R122). -/
def fetchSamples (ps : PassSpec) (P : Port) (D : Desc) (r : Nat) (xc : Int) (e : Engine) : Run (List Nat) :=
  (readSamples P (fmtSw ps.src) (fmtChans ps.src) (srcAddr D (fmtBpp ps.src) r xc) e).andThen fun ss e1 =>
    .ok (if ps.unpack then unpackLanes ps.src ss else ss) e1

/-- Accumulator initialisation (R97): `ACC[0..C-1]` and `WSUM` are zero at the start of a pixel. -/
def clearAcc (ps : PassSpec) (e : Engine) : Engine :=
  { e with acc := List.replicate (fmtChans ps.dst) 0 ++ e.acc.drop (fmtChans ps.dst), wsum := 0 }

/-- Accumulate (R101, R152): every lane takes its product, then the weight sum takes the coefficient. -/
def accumulate (ps : PassSpec) (k : Int) (ss : List Nat) (e : Engine) : Engine :=
  { e with
    acc := List.zipWith (fun a v => accWrap ps.acc (a + k * (v : Nat))) e.acc ss ++ e.acc.drop ss.length
    wsum := accWrap ps.acc (e.wsum + k) }

/-- One tap of the listing (R92, R94, R95, R98): a zero coefficient skips the tap, its source pixel unread. -/
def passTap (ps : PassSpec) (P : Port) (D : Desc) (r d : Nat) (start : Int) (i : Nat) (e : Engine) : Run Unit :=
  (memRead P ps.cw (coefAddr D ps.cw d i) { e with seq := some { line := r, dest := d, tap := i } }).andThen fun raw e1 =>
    if coefValue ps.coef ps.cw raw = 0 then .ok () e1
    else
      (fetchSamples ps P D r (bidx (start + i) D.srcMin D.srcMax) e1).andThen fun ss e2 =>
        .ok () (accumulate ps (coefValue ps.coef ps.cw raw) ss e2)

/-- Store (R105): the values of the channels in ascending order, `sw` bytes each. -/
def storeValues (P : Port) (sw : Nat) : List Nat → Addr → Engine → Run Unit
  | [], _, e => .ok () e
  | v :: vs, a, e =>
    (memWrite P sw a v e).andThen fun _ e1 => storeValues P sw vs (a + BitVec.ofNat 64 sw) e1

/-- The values of the `C` channels of the pixel (R103, R105): all with the same weight sum. -/
def pixelValues (ps : PassSpec) (e : Engine) : List Nat :=
  (e.acc.take (fmtChans ps.dst)).map (finishValue ps e.wsum)

/-- The `ERR_INFO` of a `DIV_ZERO` (R160): line in bits 63:32, destination coordinate in bits 31:0. -/
def divZeroInfo (r d : Nat) : BitVec 64 := BitVec.ofNat 64 (r * 2 ^ 32 + d)

/-- Normalise and store (R103, R105): a zero weight sum faults before any byte of the pixel is written. -/
def finishPixel (ps : PassSpec) (P : Port) (D : Desc) (r d : Nat) (e : Engine) : Run Unit :=
  if e.wsum = 0 then .fault .divZero (divZeroInfo r d) e
  else storeValues P (fmtSw ps.dst) (pixelValues ps e) (dstAddr D (fmtBpp ps.dst) r d) e

/-- One destination pixel of the listing (R92): clear, offset fetch (R93), taps, normalise and store. -/
def passPixel (ps : PassSpec) (P : Port) (D : Desc) (r d : Nat) (e : Engine) : Run Unit :=
  (memRead P 4 (offsAddr D d) (clearAcc ps e)).andThen fun raw e1 =>
    (loopUp (passTap ps P D r d (sextNat 32 raw)) D.taps 0 e1).andThen fun _ e2 =>
      finishPixel ps P D r d e2

/-- One line of the listing (R92): the destination coordinates ascending from `D_MIN`. -/
def passLine (ps : PassSpec) (P : Port) (D : Desc) (r : Nat) (e : Engine) : Run Unit :=
  loopUp (passPixel ps P D r) D.dests D.firstDest e

/-- The three nested loops of the listing (R92): the lines ascending from 0. -/
def passLines (ps : PassSpec) (P : Port) (D : Desc) (e : Engine) : Run Unit :=
  loopUp (passLine ps P D) D.lines 0 e

/-- The number of the first failing descriptor check (R162), if one fails. -/
def failingCheck (D : Desc) : Option Nat :=
  if ¬ D.srcMin < D.srcMax then some 1 else if D.dMin < 0 then some 2 else none

/-- The port of a pass (log 6: it knows the bytes the pass writes). -/
def passPort (ps : PassSpec) (s : State) : Port :=
  { platform := s.platform, dst := s.rf.desc.dstRegion (fmtBpp ps.dst) }

/-- The engine at the start of a pass. -/
def startEngine (s : State) : Engine :=
  { mem := s.mem, bus := [], draws := s.draws, seq := none, acc := s.rf.acc, wsum := s.rf.wsum }

/-- The state when a pass has ended, in whatever way: memory as the engine left it, the sequencer holding nothing (R32), the
accumulators as they stand (log 8), the accesses recorded (log 12). -/
def commitEngine (s : State) (e : Engine) : State :=
  { s with
    rf := { s.rf with seq := none, acc := e.acc, wsum := e.wsum }
    mem := e.mem
    bus := e.bus.reverse
    draws := e.draws }

/-- Steps (3) and (4) of R61 for a pass: the descriptor checks (R162), then the listing (R92). -/
def passBody (ps : PassSpec) (s : State) : CmdEnd :=
  match failingCheck s.rf.desc with
  | some n => .faulted .badDesc (BitVec.ofNat 64 n) s
  | none =>
    match passLines ps (passPort ps s) s.rf.desc (startEngine s) with
    | .ok _ e => .done (commitEngine s e)
    | .fault c info e => .faulted c info (commitEngine s e)

/-- A pass command: the write of its word to `CMD` (R61). -/
def execPass (i : Instr) (ps : PassSpec) (s : State) : Host.Outcome State Fault Refusal :=
  .next (runCommand (encode i) (passBody ps) s)

end Sys2Proof.Machine
end

