-- ==== Sys2Proof/Machine/Fixed.lean ====
section
/-! DEFINITION. The five fixed-format weighted passes (R130 to R135): source and destination in one format. -/

namespace Sys2Proof.Machine

/-- The rows of R90 with 8-bit samples: 16-bit coefficients, 32-bit accumulators, `clamp8`. -/
def fixed8Spec (f : PixFmt) : PassSpec :=
  { src := f, dst := f, unpack := false, cw := 2, coef := .signed, acc := .signed 32, finish := .clamp8 }

/-- The rows of R90 with 16-bit samples: 32-bit coefficients, 64-bit accumulators, `clamp16`. -/
def fixed16Spec (f : PixFmt) : PassSpec :=
  { src := f, dst := f, unpack := false, cw := 4, coef := .signed, acc := .signed 64, finish := .clamp16 }

/-- `RSZ.RGBA8` (R131). -/
def execRgba8 (s : State) : Host.Outcome State Fault Refusal := execPass .rgba8 (fixed8Spec .rgba8) s

/-- `RSZ.RGBA16` (R132). -/
def execRgba16 (s : State) : Host.Outcome State Fault Refusal := execPass .rgba16 (fixed16Spec .rgba16) s

/-- `RSZ.GRAY8` (R133). -/
def execGray8 (s : State) : Host.Outcome State Fault Refusal := execPass .gray8 (fixed8Spec .gray8) s

/-- `RSZ.GRAY16` (R134). -/
def execGray16 (s : State) : Host.Outcome State Fault Refusal := execPass .gray16 (fixed16Spec .gray16) s

/-- `RSZ.YCC8` (R135). -/
def execYcc8 (s : State) : Host.Outcome State Fault Refusal := execPass .ycc8 (fixed8Spec .ycc8) s

end Sys2Proof.Machine
end

