-- ==== Sys2Proof/Machine/Generic.lean ====
section
/-! DEFINITION. The generic pass `RSZ.GEN` with its five source formats (R120 to R123): destination RGBA16, 32-bit
coefficients, 64-bit accumulators, `clamp16`. -/

namespace Sys2Proof.Machine

/-- The row `RSZ.GEN.<sfmt>` of R90. -/
def genSpec (f : PixFmt) : PassSpec :=
  { src := f, dst := .rgba16, unpack := true, cw := 4, coef := .signed, acc := .signed 64, finish := .clamp16 }

/-- `RSZ.GEN.RGBA8` (R120). -/
def execGenRgba8 (s : State) : Host.Outcome State Fault Refusal := execPass .genRgba8 (genSpec .rgba8) s

/-- `RSZ.GEN.RGBA16` (R120). -/
def execGenRgba16 (s : State) : Host.Outcome State Fault Refusal := execPass .genRgba16 (genSpec .rgba16) s

/-- `RSZ.GEN.GRAY8` (R120). -/
def execGenGray8 (s : State) : Host.Outcome State Fault Refusal := execPass .genGray8 (genSpec .gray8) s

/-- `RSZ.GEN.GRAY16` (R120). -/
def execGenGray16 (s : State) : Host.Outcome State Fault Refusal := execPass .genGray16 (genSpec .gray16) s

/-- `RSZ.GEN.YCC8` (R120). -/
def execGenYcc8 (s : State) : Host.Outcome State Fault Refusal := execPass .genYcc8 (genSpec .ycc8) s

end Sys2Proof.Machine
end

