-- ==== Sys2Proof/Machine/Nearest.lean ====
section
/-! DEFINITION. The nearest-neighbour pass (R150 to R153): boolean coefficients, the mean of the selected samples rounded to
nearest, halfway cases up. -/

namespace Sys2Proof.Machine

/-- The row `RSZ.NN.YCC8` of R90. A selected tap has coefficient 1, so the accumulate step is `P[c] + s[c]`, `N + 1` (R152). -/
def nearestSpec : PassSpec :=
  { src := .ycc8, dst := .ycc8, unpack := false, cw := 1, coef := .boolean, acc := .binary32, finish := .nearest }

/-- `RSZ.NN.YCC8` (R150). -/
def execNnYcc8 (s : State) : Host.Outcome State Fault Refusal := execPass .nnYcc8 nearestSpec s

end Sys2Proof.Machine
end

