-- ==== Sys2Proof/Machine/Dispatch.lean ====
section
/-! DEFINITION. The dispatch: one arm per command (R62), each the whole effect of writing its word to CMD (R61). -/

namespace Sys2Proof.Machine

def exec (i : Instr) (s : State) : Host.Outcome State Fault Refusal :=
  match i with
  | .clamp8 => Sys2Proof.Machine.execClamp8 s
  | .clamp16 => Sys2Proof.Machine.execClamp16 s
  | .genRgba8 => Sys2Proof.Machine.execGenRgba8 s
  | .genRgba16 => Sys2Proof.Machine.execGenRgba16 s
  | .genGray8 => Sys2Proof.Machine.execGenGray8 s
  | .genGray16 => Sys2Proof.Machine.execGenGray16 s
  | .genYcc8 => Sys2Proof.Machine.execGenYcc8 s
  | .rgba8 => Sys2Proof.Machine.execRgba8 s
  | .rgba16 => Sys2Proof.Machine.execRgba16 s
  | .gray8 => Sys2Proof.Machine.execGray8 s
  | .gray16 => Sys2Proof.Machine.execGray16 s
  | .ycc8 => Sys2Proof.Machine.execYcc8 s
  | .nnYcc8 => Sys2Proof.Machine.execNnYcc8 s

end Sys2Proof.Machine
end

