-- ==== Sys2Proof/Machine/HostPort.lean ====
section
/-! DEFINITION. What a host does to the selected instance: WR and RD (R8, R11 to R15, R61), bus accesses to the register
space (R40), its own accesses to memory (R40), reset (R190, R191). -/

namespace Sys2Proof.Machine

/-- `WR 0, v` (R14, R61): bits 63:32 are dropped; a legal word runs its command, any other faults with `ILLEGAL_CMD` (R66). -/
def hostWriteCmd (v : HostWord) (s : State) : Host.Outcome State Fault Refusal :=
  match decode (v.setWidth 32) with
  | .ok i => exec i s
  | .error _ => .next (execIllegal (v.setWidth 32) s)

/-- `WR i, v` (R11, R13). -/
def hostWrite (i : Nat) (v : HostWord) (s : State) : Host.Outcome State Fault Refusal :=
  if i = 0 then hostWriteCmd v s else .next { s with rf := writeReg s.rf i v }

/-- `RD i` (R12, R13): only the value returned to the host changes. -/
def hostRead (i : Nat) (s : State) : Host.Outcome State Fault Refusal :=
  .next { s with rdData := readReg s.rf i }

/-- A reset that arrives while the command of `WR 0, v` executes (R191): of the command's accesses some prefix has happened,
how long is a free value (log 7); the registers take their reset values. While `ERR` = 1 no command runs, and the reset is an
ordinary one. -/
def hostResetDuring (v : HostWord) (s : State) : Host.Outcome State Fault Refusal :=
  if statusErr s.rf.status then .next (resetInstance s)
  else
    match hostWriteCmd v s with
    | .next t =>
      let made := t.bus.take (Config.resetPoint t.draws % (t.bus.length + 1))
      .next { resetInstance s with mem := applyWrites s.mem made, bus := made, draws := t.draws + 1 }
    | .fault f => .fault f
    | .refused r => .refused r

/-- One host operation on the selected instance. -/
def hostOp (op : HostOp) (s : State) : Host.Outcome State Fault Refusal :=
  match op with
  | .wr i v => hostWrite i v s
  | .rd i => hostRead i s
  | .busWr addr size v =>
    match regIndex? s.platform.rszBase addr size with
    | some i => hostWrite i v s
    | none => .refused .hostAccessUndefined
  | .busRd addr size =>
    match regIndex? s.platform.rszBase addr size with
    | some i => hostRead i s
    | none => .refused .hostAccessUndefined
  | .memWr a b =>
    if s.platform.isMapped a then .next { s with mem := s.mem.write a b } else .fault (.hostUnmapped a)
  | .memRd a =>
    if s.platform.isMapped a then .next { s with rdData := (s.mem.read a).setWidth 64 } else .fault (.hostUnmapped a)
  | .reset => .next (resetInstance s)
  | .resetDuring v => hostResetDuring v s

/-- One request: the instance it names is selected and the operation performed on it (R38). -/
def hostRequest (q : HostReq) (s : State) : Host.Outcome State Fault Refusal :=
  if q.wf s.platform.numInst then hostOp q.op (selectInstance q.inst s) else .refused .noSuchInstance

end Sys2Proof.Machine
end

