-- ==== Sys2Proof/Machine/Step.lean ====
section
/-! DEFINITION. The step: RSZ has no program counter and fetches nothing (R32); one step performs the next host request
(R69), and without a request the machine is idle (R190). -/

namespace Sys2Proof.Machine

/-- One step. -/
def step (s : State) : Host.Outcome State Fault Refusal :=
  match s.pending with
  | [] => .next s
  | q :: rest => hostRequest q { s with pending := rest }

/-- `s` with the instruction of `nbits` bits `w` placed where the next step takes its command from: the host's next request is
the write of that word to `CMD` of the selected instance (log 1). -/
def State.withFetchWord (s : State) (nbits w : Nat) : State :=
  { s with pending := { inst := s.sel, op := .wr 0 (BitVec.ofNat 64 (w % 2 ^ nbits)) } :: s.pending }

end Sys2Proof.Machine
end

