-- ==== Sys2Proof/Safety.lean ====
section
/-! DEFINITION. What a safe run is, in the terms the statements use: a legal state (the invariant), a pass that is ready to run
to its end, and the values and accesses the rules give it, written as closed formulas over the memory it starts from. -/

namespace Sys2Proof.Machine

/-! ## Legal states -/

/-- The legal values of STATUS and ERR_INFO (R15, R16, R160): reserved bits 0; `CAUSE` 1 to 4 while `ERR` = 1 and 0 while
`ERR` = 0; `DONE` and `ERR` never both 1; `ERR_INFO` 0 while `ERR` = 0. -/
abbrev StatusLegal (rf : RegFile) : Prop :=
  statusReservedZero rf.status = true ∧
  (statusErr rf.status = true → 1 ≤ (statusCause rf.status).toNat ∧ (statusCause rf.status).toNat ≤ 4) ∧
  (statusErr rf.status = false → statusCause rf.status = 0#4 ∧ rf.errInfo = 0#64) ∧
  ¬ (statusDone rf.status = true ∧ statusErr rf.status = true)

/-- A legal register file between commands: a legal STATUS, a sequencer that holds nothing (R32), four accumulators (R33). -/
abbrev RegFileLegal (rf : RegFile) : Prop := StatusLegal rf ∧ rf.seq = none ∧ rf.acc.length = 4

/-- The invariant of the machine: memory and the parked instances in canonical form, the selected instance one of the
platform's and not parked, every register file legal. -/
abbrev Inv (s : State) : Prop :=
  Memory.wf s.mem ∧ s.sel < s.platform.numInst ∧ sparseWf RegFile.reset s.platform.numInst s.parked ∧
  (∀ c ∈ s.parked, c.1 ≠ s.sel ∧ RegFileLegal c.2) ∧ RegFileLegal s.rf

/-- The last command accepted by the selected instance completed and no fault is latched (R177). -/
def Completed (s : State) : Prop := statusDone s.rf.status = true ∧ statusErr s.rf.status = false

/-! ## The passes -/

/-- The pass commands and their rows of R90; `none` for the clamp commands. -/
def passSpecOf : Instr → Option PassSpec
  | .clamp8 => none
  | .clamp16 => none
  | .genRgba8 => some (genSpec .rgba8)
  | .genRgba16 => some (genSpec .rgba16)
  | .genGray8 => some (genSpec .gray8)
  | .genGray16 => some (genSpec .gray16)
  | .genYcc8 => some (genSpec .ycc8)
  | .rgba8 => some (fixed8Spec .rgba8)
  | .rgba16 => some (fixed16Spec .rgba16)
  | .gray8 => some (fixed8Spec .gray8)
  | .gray16 => some (fixed16Spec .gray16)
  | .ycc8 => some (fixed8Spec .ycc8)
  | .nnYcc8 => some nearestSpec

/-! ## What a pass computes, over the memory it starts from -/

/-- The value of `n` bytes read after bytes of value `acc`. -/
def peekFrom (m : Memory) (acc : Nat) : Nat → Addr → Nat
  | 0, _ => acc
  | n + 1, a => peekFrom m (acc * 256 + (m.read a).toNat) n (a + 1)

/-- The big-endian value of the `n` bytes at `a` (R43, R45). -/
def peek (m : Memory) (n : Nat) (a : Addr) : Nat := peekFrom m 0 n a

/-- `offset[d]` (R93). -/
def startOf (m : Memory) (D : Desc) (d : Nat) : Int := sextNat 32 (peek m 4 (offsAddr D d))

/-- The coefficient of tap `i` of destination coordinate `d` (R98, R151). -/
def coefOf (ps : PassSpec) (m : Memory) (D : Desc) (d i : Nat) : Int :=
  coefValue ps.coef ps.cw (peek m ps.cw (coefAddr D ps.cw d i))

/-- The clamped source coordinate of tap `i` of destination coordinate `d` (R94, R95). -/
def coordOf (m : Memory) (D : Desc) (d i : Nat) : Int := bidx (startOf m D d + i) D.srcMin D.srcMax

/-- The samples of the source pixel of line `r` at coordinate `xc` (R99), unpacked in the generic pass (R122). -/
def samplesOf (ps : PassSpec) (m : Memory) (D : Desc) (r : Nat) (xc : Int) : List Nat :=
  let ss := (List.range (fmtChans ps.src)).map fun c =>
    peek m (fmtSw ps.src) (srcAddr D (fmtBpp ps.src) r xc + BitVec.ofNat 64 (c * fmtSw ps.src))
  if ps.unpack then unpackLanes ps.src ss else ss

/-- The sum of the coefficients of row `d` (R101, R110). -/
def weightSum (ps : PassSpec) (m : Memory) (D : Desc) (d : Nat) : Int :=
  ((List.range D.taps).map (coefOf ps m D d)).sum

/-- The weighted sum of channel `c` of the destination pixel `(r, d)` (R101, R110). -/
def laneSum (ps : PassSpec) (m : Memory) (D : Desc) (r d c : Nat) : Int :=
  ((List.range D.taps).map fun i =>
    coefOf ps m D d i * (((samplesOf ps m D r (coordOf m D d i)).getD c 0 : Nat) : Int)).sum

/-- The value of channel `c` of the destination pixel `(r, d)` (R101, R103; R152, R153 for the nearest-neighbour pass). -/
def pixelValue (ps : PassSpec) (m : Memory) (D : Desc) (r d c : Nat) : Nat :=
  finishValue ps (accWrap ps.acc (weightSum ps m D d)) (accWrap ps.acc (laneSum ps m D r d c))

/-! ## When a pass runs to its end -/

/-- The `n` bytes at `a` are mapped, and none of them is written by the pass (R42, R197). -/
abbrev Readable (P : Port) (n : Nat) (a : Addr) : Prop :=
  ∀ j < n, P.platform.isMapped (a + BitVec.ofNat 64 j) = true ∧ P.dst.has (a + BitVec.ofNat 64 j) = false

/-- The `n` bytes at `a` are mapped (R42). -/
abbrev Writable (P : Port) (n : Nat) (a : Addr) : Prop :=
  ∀ j < n, P.platform.isMapped (a + BitVec.ofNat 64 j) = true

/-- Everything tap `i` of the pixel `(r, d)` reads can be read: its coefficient and, unless that is zero, its source pixel. -/
abbrev TapReadable (ps : PassSpec) (P : Port) (m : Memory) (D : Desc) (r d i : Nat) : Prop :=
  Readable P ps.cw (coefAddr D ps.cw d i) ∧
  (coefOf ps m D d i ≠ 0 → Readable P (fmtBpp ps.src) (srcAddr D (fmtBpp ps.src) r (coordOf m D d i)))

/-- Everything the pixel `(r, d)` reads can be read: the offset entry, the coefficients, the source pixels of the taps that
are not skipped. -/
abbrev PixelReadable (ps : PassSpec) (P : Port) (m : Memory) (D : Desc) (r d : Nat) : Prop :=
  Readable P 4 (offsAddr D d) ∧ ∀ i < D.taps, TapReadable ps P m D r d i

/-- The pixel `(r, d)` faults nowhere: it can read and write, and its weight sum is not zero (R163, R164, R195). -/
abbrev PixelReady (ps : PassSpec) (P : Port) (m : Memory) (D : Desc) (r d : Nat) : Prop :=
  PixelReadable ps P m D r d ∧ Writable P (fmtBpp ps.dst) (dstAddr D (fmtBpp ps.dst) r d) ∧
  accWrap ps.acc (weightSum ps m D d) ≠ 0

/-- No fault is latched and both descriptor checks pass (R14, R162). -/
abbrev PassAccepted (s : State) : Prop :=
  statusErr s.rf.status = false ∧ s.rf.desc.srcMin < s.rf.desc.srcMax ∧ 0 ≤ s.rf.desc.dMin

/-- The pass runs to its end with none of its values unspecified (R193 to R197). -/
abbrev PassReady (ps : PassSpec) (s : State) : Prop :=
  PassAccepted s ∧
  ∀ r < s.rf.desc.lines, ∀ j < s.rf.desc.dests,
    PixelReady ps (passPort ps s) s.mem s.rf.desc r (s.rf.desc.firstDest + j)

/-- The destination pixels of the pass do not share bytes (R198). -/
abbrev DestinationsDisjoint (ps : PassSpec) (D : Desc) : Prop :=
  D.dests ≤ 1 ∨ D.lines * fmtBpp ps.dst ≤ D.dstStride

/-- `a` is a byte of a destination pixel of the pass (R51). -/
def IsDestination (ps : PassSpec) (D : Desc) (a : Addr) : Prop :=
  ∃ r < D.lines, ∃ j < D.dests, ∃ b < fmtBpp ps.dst,
    a = dstAddr D (fmtBpp ps.dst) r (D.firstDest + j) + BitVec.ofNat 64 b

/-! ## The accesses of a pass, in order -/

/-- The byte reads of `MemRead(a, n)` (R43). -/
def readAccesses (n : Nat) (a : Addr) : List Access := (List.range n).map fun j => .rd (a + BitVec.ofNat 64 j)

/-- The byte writes of `MemWrite(a, n, v)` (R44). -/
def writeAccesses (n : Nat) (a : Addr) (v : Nat) : List Access :=
  (List.range n).map fun j => .wr (a + BitVec.ofNat 64 j) (BitVec.ofNat 8 (v / 256 ^ (n - 1 - j)))

/-- The reads of tap `i` of the destination pixel `(r, d)`: its coefficient and, unless that is zero, its source pixel (R98). -/
def tapAccesses (ps : PassSpec) (m : Memory) (D : Desc) (r d i : Nat) : List Access :=
  readAccesses ps.cw (coefAddr D ps.cw d i) ++
    (if coefOf ps m D d i = 0 then []
     else readAccesses (fmtBpp ps.src) (srcAddr D (fmtBpp ps.src) r (coordOf m D d i)))

/-- The reads of the destination pixel `(r, d)` before its tap `k`, in the order of the listing (R92): the offset entry, then the
reads of the taps. -/
def readsBeforeTap (ps : PassSpec) (m : Memory) (D : Desc) (r d k : Nat) : List Access :=
  readAccesses 4 (offsAddr D d) ++ (List.range k).flatMap (tapAccesses ps m D r d)

/-- The reads of the destination pixel `(r, d)`: those before the end of its taps. -/
def pixelReads (ps : PassSpec) (m : Memory) (D : Desc) (r d : Nat) : List Access := readsBeforeTap ps m D r d D.taps

/-- The writes of the destination pixel `(r, d)` (R105): its channels in ascending order. -/
def pixelWrites (ps : PassSpec) (m : Memory) (D : Desc) (r d : Nat) : List Access :=
  (List.range (fmtChans ps.dst)).flatMap fun c =>
    writeAccesses (fmtSw ps.dst) (dstAddr D (fmtBpp ps.dst) r d + BitVec.ofNat 64 (c * fmtSw ps.dst))
      (pixelValue ps m D r d c)

/-- The accesses of the destination pixel `(r, d)`: all its reads precede its writes (R169). -/
def pixelAccesses (ps : PassSpec) (m : Memory) (D : Desc) (r d : Nat) : List Access :=
  pixelReads ps m D r d ++ pixelWrites ps m D r d

/-- The accesses of the first `j` destination coordinates of line `r`. -/
def lineAccesses (ps : PassSpec) (m : Memory) (D : Desc) (r j : Nat) : List Access :=
  (List.range j).flatMap fun j' => pixelAccesses ps m D r (D.firstDest + j')

/-- The accesses of all pixels that precede the `j`-th of line `r` in the order of the listing (R92, R108). -/
def accessesBefore (ps : PassSpec) (m : Memory) (D : Desc) (r j : Nat) : List Access :=
  ((List.range r).flatMap fun r' => lineAccesses ps m D r' D.dests) ++ lineAccesses ps m D r j

/-- The accesses of a pass that runs to its end (R92): lines outermost, destination coordinates inside them. -/
def passAccesses (ps : PassSpec) (m : Memory) (D : Desc) : List Access :=
  (List.range D.lines).flatMap fun r => lineAccesses ps m D r D.dests

/-- The pixel of line `r'`, `j'`-th coordinate, precedes the one of line `r`, `j`-th coordinate (R108). -/
abbrev Precedes (r' j' r j : Nat) : Prop := r' < r ∨ (r' = r ∧ j' < j)

/-- Every pixel that precedes the `j`-th of line `r` is ready (R108). -/
abbrev PixelsBeforeReady (ps : PassSpec) (s : State) (r j : Nat) : Prop :=
  ∀ r' < s.rf.desc.lines, ∀ j' < s.rf.desc.dests, Precedes r' j' r j →
    PixelReady ps (passPort ps s) s.mem s.rf.desc r' (s.rf.desc.firstDest + j')

/-- The command ended with `BUS_ERR` at the byte `a` (R164, R166). -/
abbrev EndedWithBusErr (t : State) (a : Addr) : Prop :=
  statusDone t.rf.status = false ∧ statusErr t.rf.status = true ∧ statusCause t.rf.status = 4#4 ∧ t.rf.errInfo = a

/-! ## The register file as the host sees it -/

/-- The width of register `i` (R10); 0 above index 17. -/
def regWidth : Nat → Nat
  | 0 => 32 | 1 => 32 | 2 => 64 | 3 => 64 | 4 => 32 | 5 => 32 | 6 => 32 | 7 => 64 | 8 => 32 | 9 => 32
  | 10 => 32 | 11 => 32 | 12 => 64 | 13 => 64 | 14 => 16 | 15 => 64 | 16 => 64 | 17 => 16 | _ => 0

/-- Register `i` is RW and not `CMD` (R10): indices 3 to 16. -/
abbrev RegIsRW (i : Nat) : Prop := 3 ≤ i ∧ i ≤ 16

/-- The state with another value in `SCALE`. -/
def withScale (x : BitVec 64) (s : State) : State := { s with rf := { s.rf with scale := x } }

/-- Lines `r0` on of a pass as a pass of their own (R176): `SRC_BASE` and `DST_BASE` advanced, `LINES` the count left. -/
def linesFrom (ps : PassSpec) (r0 : Nat) (rf : RegFile) : RegFile :=
  { rf with
    srcBase := rf.srcBase + BitVec.ofNat 64 (r0 * rf.srcStride.toNat)
    dstBase := rf.dstBase + BitVec.ofNat 64 (r0 * fmtBpp ps.dst)
    lines := rf.lines - BitVec.ofNat 32 r0 }

end Sys2Proof.Machine
end

