-- ==== Sys2Proof/Certificates/Slice0/Obligations.lean ====
section
/-! DEFINITION. The statements for the provers, from the numbered rules of spec/. Each docstring names the rules it formalises
and, where a clause rests on a choice of the model, the log entry. The pass commands are those of `passSpecOf`: RSZ.GEN.RGBA8,
RSZ.GEN.RGBA16, RSZ.GEN.GRAY8, RSZ.GEN.GRAY16, RSZ.GEN.YCC8, RSZ.RGBA8, RSZ.RGBA16, RSZ.GRAY8, RSZ.GRAY16, RSZ.YCC8 and
RSZ.NN.YCC8, the eleven constructors other than clamp8 and clamp16. Three fields that the statements name are the model's own:
`bus`, the record of a command's accesses (log 12), `rdData`, where a read leaves its value (log 11), and `pending`, the host's
requests (log 1). -/

open Sys2Proof Sys2Proof.Machine

/-! ## Reset, the step, decoding -/

/-- R37: after reset, and after a reset request in any state, every register reads 0 and the sequencer holds nothing; the
request leaves memory as it was. -/
def Obligations.ResetClearsEveryRegister : Prop :=
  ((∀ i, readReg State.reset.rf i = 0#64) ∧ State.reset.rf.seq = none) ∧
  ∀ s : State, ∃ t, hostOp .reset s = .next t ∧ (∀ i, readReg t.rf i = 0#64) ∧ t.rf.seq = none ∧ t.mem = s.mem

/-- The invariant holds at reset. Its memory, instance and accumulator clauses rest on the model's choices (logs 3, 4, 8). -/
def Obligations.ResetStateIsLegal : Prop := Inv State.reset

/-- Every step keeps the invariant: canonical memory, legal STATUS, CAUSE and ERR_INFO (R15, R16, R160), an idle sequencer
(R32) and four accumulators (R33), in every instance. The form of memory and of the parked instances, and that the accumulators
are fields of State, are the model's (logs 3, 4, 8). -/
def Obligations.StepKeepsTheStateLegal : Prop :=
  ∀ s t : State, Inv s → Sys2Proof.Machine.step s = .next t → Inv t

/-- A step whose next request writes a legal command word to CMD of an existing instance is that command on that instance; and
the word placed by `withFetchWord` is run by the very next step. The request queue is the model's (log 1). -/
def Obligations.StepRunsTheDecodedCommand : Prop :=
  (∀ (s : State) (k : Nat) (v : HostWord) (rest : List HostReq) (i : Instr),
    s.pending = { inst := k, op := .wr 0 v } :: rest → k < s.platform.numInst → decode (v.setWidth 32) = .ok i →
    Sys2Proof.Machine.step s = exec i (selectInstance k { s with pending := rest })) ∧
  ∀ (s : State) (w : CmdWord) (i : Instr), s.sel < s.platform.numInst → decode w = .ok i →
    Sys2Proof.Machine.step (s.withFetchWord 32 w.toNat) = exec i s

/-- R190: without a request the machine is idle (the empty queue is the model's, log 14). -/
def Obligations.IdleWithoutARequest : Prop :=
  ∀ s : State, s.pending = [] → Sys2Proof.Machine.step s = .next s

/-- Words of every family, written out from R62. -/
def Obligations.WordsOfTheOpcodeMapDecode : Prop :=
  decode 0b00000000000000000000000000000001#32 = .ok .clamp8 ∧
  decode 0b00000000000000000000000000000010#32 = .ok .clamp16 ∧
  decode 0b00000000000000000000001000010000#32 = .ok .genGray8 ∧
  decode 0b00000000000000000000010000010000#32 = .ok .genYcc8 ∧
  decode 0b00000000000000000000000000100001#32 = .ok .rgba16 ∧
  decode 0b00000000000000000000000000110000#32 = .ok .nnYcc8

/-- Decode and encode agree in both directions: a word decodes to an instruction exactly when it is that instruction's word
(R62, R67). -/
def Obligations.DecodeIsTheInverseOfEncode : Prop :=
  ∀ (w : CmdWord) (i : Instr), decode w = .ok i ↔ w = encode i

/-- R66: the illegal words are those whose fields break one of the four checks; writing one with `ERR` = 0 stores it in `CMD`,
clears `DONE` and raises `ILLEGAL_CMD` with the word; no memory, no other register, no access. -/
def Obligations.IllegalWordFaults : Prop :=
  (∀ w : CmdWord, (∃ r, decode w = .error r) ↔ (splitWord w).wf = false) ∧
  ∀ (s : State) (v : HostWord), statusErr s.rf.status = false → (∃ r, decode (v.setWidth 32) = .error r) →
    ∃ t, hostOp (.wr 0 v) s = .next t ∧ statusDone t.rf.status = false ∧ statusErr t.rf.status = true ∧
      statusCause t.rf.status = 1#4 ∧ statusReservedZero t.rf.status = statusReservedZero s.rf.status ∧
      t = { s with
        bus := []
        rf := { s.rf with
          cmd := v.setWidth 32, status := t.rf.status, errInfo := (v.setWidth 32 : CmdWord).setWidth 64 } }

/-- R14, R167: while `ERR` = 1 a write to CMD changes nothing, whatever the word; so does every command. -/
def Obligations.CommandIgnoredWhileAFaultIsLatched : Prop :=
  ∀ s : State, statusErr s.rf.status = true →
    (∀ v, hostOp (.wr 0 v) s = .next s) ∧ ∀ i, exec i s = .next s

/-! ## The host's registers -/

/-- R168: a write of STATUS with bit 1 set while `ERR` = 1 clears `ERR`, `CAUSE` and `ERR_INFO` and nothing else; any other
write of STATUS changes nothing. -/
def Obligations.StatusWriteLeavesTheFaultState : Prop :=
  ∀ (s : State) (v : HostWord),
    (v.getLsbD 1 = true → statusErr s.rf.status = true →
      ∃ t, hostOp (.wr 1 v) s = .next t ∧ statusErr t.rf.status = false ∧ statusCause t.rf.status = 0#4 ∧
        statusDone t.rf.status = statusDone s.rf.status ∧
        statusReservedZero t.rf.status = statusReservedZero s.rf.status ∧
        t = { s with rf := { s.rf with status := t.rf.status, errInfo := 0#64 } }) ∧
    (¬ (v.getLsbD 1 = true ∧ statusErr s.rf.status = true) → hostOp (.wr 1 v) s = .next s)

/-- R11 for every index but 0 and 1: an RW register takes the low bits of its width and reads them back; every other register
reads as before; a read-only or undefined index changes nothing. -/
def Obligations.RegisterWriteThenRead : Prop :=
  ∀ (s : State) (i : Nat) (v : HostWord), 2 ≤ i →
    ∃ t, hostOp (.wr i v) s = .next t ∧
      (RegIsRW i → (readReg t.rf i).toNat = v.toNat % 2 ^ regWidth i) ∧
      (∀ j, j ≠ i → readReg t.rf j = readReg s.rf j) ∧ (¬ RegIsRW i → t = s) ∧
      t = { s with rf := t.rf } ∧ t.rf.seq = s.rf.seq ∧ t.rf.acc = s.rf.acc ∧ t.rf.wsum = s.rf.wsum

/-- R12: a read returns the stored bits, zero above the register's width, and changes nothing (the value returned is held in
the model's `rdData`, log 11). -/
def Obligations.RegisterReadZeroExtends : Prop :=
  ∀ (s : State) (i : Nat), i ≤ 17 →
    ∃ x, hostOp (.rd i) s = .next { s with rdData := x } ∧ x.toNat < 2 ^ regWidth i ∧
      x.toNat = [s.rf.cmd.toNat, s.rf.status.toNat, s.rf.errInfo.toNat, s.rf.srcBase.toNat, s.rf.srcStride.toNat,
        s.rf.srcMin.toNat, s.rf.srcMax.toNat, s.rf.dstBase.toNat, s.rf.dstStride.toNat, s.rf.dMin.toNat,
        s.rf.dMax.toNat, s.rf.lines.toNat, s.rf.coefBase.toNat, s.rf.offsBase.toNat, s.rf.filterLen.toNat,
        s.rf.scale.toNat, s.rf.opa.toNat, s.rf.result.toNat].getD i 0

/-- R13: indices above 17 keep everything and read 0. -/
def Obligations.UndefinedIndicesAreInert : Prop :=
  ∀ (s : State) (i : Nat), 17 < i →
    (∀ v, hostOp (.wr i v) s = .next s) ∧ hostOp (.rd i) s = .next { s with rdData := 0#64 }

/-- R40: an aligned 64-bit access at `RSZ_BASE + 8*i` is the operation on register `i`; a narrower or misaligned access is
refused. The model's choices (log 10): the 64-bit host address space, the operation for `i` above 17 (the inert one of R13), the
refusal of an access wider than 64 bits or below `RSZ_BASE`. -/
def Obligations.OnlyWholeRegisterAccessesAreDefined : Prop :=
  ∀ (s : State) (v : HostWord),
    (∀ i, s.platform.rszBase.toNat + 8 * i < 2 ^ 64 →
      hostOp (.busWr (s.platform.rszBase + BitVec.ofNat 64 (8 * i)) 8 v) s = hostOp (.wr i v) s ∧
      hostOp (.busRd (s.platform.rszBase + BitVec.ofNat 64 (8 * i)) 8) s = hostOp (.rd i) s) ∧
    ∀ (addr : BitVec 64) (size : Nat),
      size ≠ 8 ∨ addr.toNat < s.platform.rszBase.toNat ∨ ¬ (8 ∣ addr.toNat - s.platform.rszBase.toNat) →
      hostOp (.busWr addr size v) s = .refused .hostAccessUndefined ∧
      hostOp (.busRd addr size) s = .refused .hostAccessUndefined

/-! ## The clamp commands -/

/-- R82: CLAMP8 completes in every state without a latched fault; RESULT is OPA, signed, limited to 0 to 255; nothing else
changes but CMD and DONE. -/
def Obligations.Clamp8StoresTheClampedOperand : Prop :=
  ∀ s : State, statusErr s.rf.status = false →
    ∃ t, exec .clamp8 s = .next t ∧ statusDone t.rf.status = true ∧ statusErr t.rf.status = false ∧
      t = { s with
        bus := []
        rf := { s.rf with
          cmd := 0x00000001#32, status := setDone true s.rf.status
          result := BitVec.ofInt 16 (max 0 (min 255 s.rf.opa.toInt)) } }

/-- R83: the same for CLAMP16 and 0 to 65535. -/
def Obligations.Clamp16StoresTheClampedOperand : Prop :=
  ∀ s : State, statusErr s.rf.status = false →
    ∃ t, exec .clamp16 s = .next t ∧ statusDone t.rf.status = true ∧ statusErr t.rf.status = false ∧
      t = { s with
        bus := []
        rf := { s.rf with
          cmd := 0x00000002#32, status := setDone true s.rf.status
          result := BitVec.ofInt 16 (max 0 (min 65535 s.rf.opa.toInt)) } }

/-- R80, R81, R85: the clamps are min and max, monotonic, idempotent, and compose; a shifted 16-bit clamp is another function;
the document's boundary tests. -/
def Obligations.ClampFunctionsAreMinMax : Prop :=
  (∀ v, (clamp8 v : Int) = min 255 (max 0 v) ∧ (clamp16 v : Int) = min 65535 (max 0 v)) ∧
  (∀ v w, v ≤ w → clamp8 v ≤ clamp8 w ∧ clamp16 v ≤ clamp16 w) ∧
  (∀ v, clamp8 (clamp8 v) = clamp8 v ∧ clamp16 (clamp16 v) = clamp16 v ∧ clamp8 (clamp16 v) = clamp8 v) ∧
  (clamp16 300 / 256 = 1 ∧ clamp8 300 = 255) ∧
  clamp8 (-1) = 0 ∧ clamp8 256 = 255 ∧ clamp8 128 = 128 ∧
  clamp16 (-1) = 0 ∧ clamp16 65536 = 65535 ∧ clamp16 32768 = 32768

/-! ## The arithmetic of a pass -/

/-- R94: edge replication, per tap. -/
def Obligations.BoundaryIndexReplicatesEdges : Prop :=
  ∀ xi smin smax : Int, smin < smax →
    (smin ≤ xi → xi < smax → bidx xi smin smax = xi) ∧ (smax ≤ xi → bidx xi smin smax = smax - 1) ∧
    (xi < smin → bidx xi smin smax = smin) ∧ bidx xi smin smax = min (smax - 1) (max smin xi) ∧
    smin ≤ bidx xi smin smax ∧ bidx xi smin smax < smax

/-- R101: accumulating with a wrap at every tap gives the wrapped sum of the products, for any width. -/
def Obligations.AccumulationIsTheWrappedSum : Prop :=
  ∀ (t : AccType) (taps : List (Int × Nat)),
    taps.foldl (fun a (kv : Int × Nat) => accWrap t (a + kv.1 * (kv.2 : Int))) 0 =
      accWrap t ((taps.map fun kv => kv.1 * (kv.2 : Int)).sum)

/-- R102: no 64-bit accumulator ever wraps, no 32-bit one up to 257 taps, and with 258 taps one can. -/
def Obligations.AccumulatorHeadroom : Prop :=
  (∀ taps : List (Int × Nat), taps.length ≤ 65535 →
    (∀ kv ∈ taps, -(2 ^ 31) ≤ kv.1 ∧ kv.1 < 2 ^ 31 ∧ kv.2 ≤ 65535) →
    accWrap (.signed 64) ((taps.map fun kv => kv.1 * (kv.2 : Int)).sum) = (taps.map fun kv => kv.1 * (kv.2 : Int)).sum ∧
    accWrap (.signed 64) ((taps.map Prod.fst).sum) = (taps.map Prod.fst).sum) ∧
  (∀ taps : List (Int × Nat), taps.length ≤ 257 →
    (∀ kv ∈ taps, -(2 ^ 15) ≤ kv.1 ∧ kv.1 < 2 ^ 15 ∧ kv.2 ≤ 255) →
    accWrap (.signed 32) ((taps.map fun kv => kv.1 * (kv.2 : Int)).sum) = (taps.map fun kv => kv.1 * (kv.2 : Int)).sum ∧
    accWrap (.signed 32) ((taps.map Prod.fst).sum) = (taps.map Prod.fst).sum) ∧
  ∃ taps : List (Int × Nat), taps.length = 258 ∧
    (∀ kv ∈ taps, -(2 ^ 15) ≤ kv.1 ∧ kv.1 < 2 ^ 15 ∧ kv.2 ≤ 255) ∧
    accWrap (.signed 32) ((taps.map fun kv => kv.1 * (kv.2 : Int)).sum) ≠ (taps.map fun kv => kv.1 * (kv.2 : Int)).sum

/-- R104: truncating division in all sign combinations; the remainder has the sign of the dividend; the one quotient of two
`AW`-bit values that does not fit is `-2^(AW-1) / -1`, which wraps to `-2^(AW-1)` and clamps to 0. -/
def Obligations.DivisionTruncatesAndOneQuotientWraps : Prop :=
  (truncDiv 7 2 = 3 ∧ truncDiv (-7) 2 = -3 ∧ truncDiv 7 (-2) = -3 ∧ truncDiv (-7) (-2) = 3) ∧
  (∀ a b : Int, b ≠ 0 → truncDiv 0 b = 0 ∧ (|a| < |b| → truncDiv a b = 0) ∧
    |a - b * truncDiv a b| < |b| ∧ 0 ≤ (a - b * truncDiv a b) * a ∧ (0 < |truncDiv a b| → 0 < truncDiv a b * a * b)) ∧
  ∀ (w : Nat) (a b : Int), 0 < w → b ≠ 0 → -(2 ^ (w - 1)) ≤ a → a < 2 ^ (w - 1) → -(2 ^ (w - 1)) ≤ b → b < 2 ^ (w - 1) →
    (wrapS w (truncDiv a b) ≠ truncDiv a b ↔ a = -(2 ^ (w - 1)) ∧ b = -1 ∧ truncDiv a b = 2 ^ (w - 1)) ∧
    (a = -(2 ^ (w - 1)) → b = -1 → wrapS w (truncDiv a b) = -(2 ^ (w - 1)) ∧
      clamp8 (wrapS w (truncDiv a b)) = 0 ∧ clamp16 (wrapS w (truncDiv a b)) = 0)

/-- R122: the unpack table, and that the samples of a pixel, each as wide as its format says, give four lanes of 16 bits. -/
def Obligations.UnpackWidensToFourLanes : Prop :=
  (∀ a b c d : Nat,
    unpackLanes .rgba8 [a, b, c, d] = [a * 257, b * 257, c * 257, d * 257] ∧
    unpackLanes .rgba16 [a, b, c, d] = [a, b, c, d] ∧
    unpackLanes .gray8 [a] = [a * 257, a * 257, a * 257, 65535] ∧
    unpackLanes .gray16 [a] = [a, a, a, 65535] ∧
    unpackLanes .ycc8 [a, b, c] = [a * 257, b * 257, c * 257, 65535]) ∧
  ∀ (f : PixFmt) (ss : List Nat), ss.length = fmtChans f → (∀ x ∈ ss, x < 256 ^ fmtSw f) →
    (unpackLanes f ss).length = 4 ∧ ∀ v ∈ unpackLanes f ss, v ≤ 65535

/-- R156: the table of the rounding function; R155: one sample, or one value everywhere, is reproduced. -/
def Obligations.NearestRoundingTable : Prop :=
  (roundMean 21 2 = 11 ∧ roundMean 1 2 = 1 ∧ roundMean 509 2 = 255 ∧ roundMean 10 3 = 3 ∧ roundMean 11 3 = 4 ∧
    roundMean 5 4 = 1 ∧ roundMean 6 4 = 2 ∧ roundMean 7 4 = 2 ∧ roundMean 0 7 = 0 ∧
    roundMean (255 * 65535) 65535 = 255) ∧
  (∀ s : Nat, roundMean s 1 = s) ∧ ∀ v n : Nat, 0 < n → roundMean (v * n) n = v

/-- R153, R154: for every sum and count that can occur, the integer formula is the binary32 quotient rounded to nearest even,
then rounded half up; and it is a byte. -/
def Obligations.NearestRoundingIsTheBinary32Computation : Prop :=
  ∀ p n : Nat, 1 ≤ n → n ≤ 65535 → p ≤ 255 * n →
    roundMean p n = roundMeanBinary32 p n ∧ roundMean p n ≤ 255

/-- R43 to R45: what `MemWrite` stores, `MemRead` answers, at any address, whole. -/
def Obligations.PortReadsBackWhatItWrote : Prop :=
  ∀ (P : Port) (n : Nat) (a : Addr) (v : Nat) (e : Engine), n ≤ 8 → v < 256 ^ n → Memory.wf e.mem → Readable P n a →
    ∃ e1 e2, memWrite P n a v e = .ok () e1 ∧ memRead P n a e1 = .ok v e2 ∧
      ∀ x, (∀ j < n, x ≠ a + BitVec.ofNat 64 j) → e1.mem.read x = e.mem.read x

/-! ## The passes -/

/-- R162: the two checks of every pass, in order, before any access, whatever the extents; and no other condition raises
`BAD_DESC`. -/
def Obligations.DescriptorChecks : Prop :=
  ∀ (i : Instr) (ps : PassSpec) (s : State), passSpecOf i = some ps → statusErr s.rf.status = false →
    (∀ n : Nat, (n = 1 ∧ ¬ s.rf.srcMin.toInt < s.rf.srcMax.toInt) ∨
        (n = 2 ∧ s.rf.srcMin.toInt < s.rf.srcMax.toInt ∧ s.rf.dMin.toInt < 0) →
      ∃ t, exec i s = .next t ∧ statusDone t.rf.status = false ∧ statusErr t.rf.status = true ∧
        statusCause t.rf.status = 2#4 ∧
        t = { s with
          bus := []
          rf := { s.rf with cmd := encode i, status := t.rf.status, errInfo := BitVec.ofNat 64 n } }) ∧
    (s.rf.srcMin.toInt < s.rf.srcMax.toInt → 0 ≤ s.rf.dMin.toInt → StatusLegal s.rf →
      ∀ t, exec i s = .next t → statusCause t.rf.status ≠ 2#4)

/-- R24, R25: an accepted pass without lines or without destination coordinates accesses nothing and ends with `DONE`. -/
def Obligations.EmptyPassCompletes : Prop :=
  ∀ (i : Instr) (ps : PassSpec) (s : State), passSpecOf i = some ps → PassAccepted s →
    s.rf.lines = 0#32 ∨ s.rf.dMax.toInt ≤ s.rf.dMin.toInt →
    exec i s = .next { s with
      bus := []
      rf := { s.rf with cmd := encode i, status := setDone true s.rf.status, seq := none } }

/-- R92, R98, R103, R105 and the commands' rules R120, R131 to R135, R150: a pass that is ready completes; its accesses are
exactly those of the listing, in its order, with the values of the formulas; memory takes its writes; of the registers only CMD,
DONE, the sequencer and the accumulators change. The record of accesses is the model's field `bus` (log 12). -/
def Obligations.ReadyPassMakesItsAccessesInOrder : Prop :=
  ∀ (i : Instr) (ps : PassSpec) (s : State), passSpecOf i = some ps → PassReady ps s →
    ∃ t, exec i s = .next t ∧ statusDone t.rf.status = true ∧ statusErr t.rf.status = false ∧
      t.bus = passAccesses ps s.mem s.rf.desc ∧
      t = { s with
        mem := applyWrites s.mem (passAccesses ps s.mem s.rf.desc)
        bus := t.bus
        rf := { s.rf with
          cmd := encode i, status := setDone true s.rf.status, seq := none, acc := t.rf.acc, wsum := t.rf.wsum } }

/-- R51, R101, R103, R105, R122, R153: after a ready pass whose destination pixels share no bytes, every channel of every
destination pixel holds its value, big-endian, at its transposed address; every byte that belongs to no destination pixel is
unchanged. -/
def Obligations.ReadyPassStoresEveryPixelValue : Prop :=
  ∀ (i : Instr) (ps : PassSpec) (s : State), passSpecOf i = some ps → PassReady ps s →
    DestinationsDisjoint ps s.rf.desc → Memory.wf s.mem →
    ∃ t, exec i s = .next t ∧ Completed t ∧
      (∀ r < s.rf.desc.lines, ∀ j < s.rf.desc.dests, ∀ c < fmtChans ps.dst,
        peek t.mem (fmtSw ps.dst) (dstAddr s.rf.desc (fmtBpp ps.dst) r (s.rf.desc.firstDest + j) +
          BitVec.ofNat 64 (c * fmtSw ps.dst)) = pixelValue ps s.mem s.rf.desc r (s.rf.desc.firstDest + j) c) ∧
      ∀ a, ¬ IsDestination ps s.rf.desc a → t.mem.read a = s.mem.read a

/-- The frame of every pass in every state, however it ends (R36, R166, R196): memory changes only at bytes of destination
pixels, at the addresses the command computes; of the registers only CMD, STATUS, ERR_INFO, the sequencer and the accumulators
may change; the other instances, the platform and the requests are untouched. -/
def Obligations.PassWritesOnlyItsDestination : Prop :=
  ∀ (i : Instr) (ps : PassSpec) (s t : State), passSpecOf i = some ps → exec i s = .next t →
    (∀ a, ¬ IsDestination ps s.rf.desc a → t.mem.read a = s.mem.read a) ∧
    t = { s with
      mem := t.mem, bus := t.bus, draws := t.draws
      rf := { s.rf with
        cmd := t.rf.cmd, status := t.rf.status, errInfo := t.rf.errInfo, seq := t.rf.seq, acc := t.rf.acc
        wsum := t.rf.wsum } }

/-- R160, R166, R177: an accepted pass ends with `DONE`, no fault and ERR_INFO as it was, or with `ERR`, `DONE` 0 and a cause
of a pass: BAD_DESC with the number of a check, DIV_ZERO, or BUS_ERR. CMD holds its word in either case. -/
def Obligations.PassEndsDoneOrFaulted : Prop :=
  ∀ (i : Instr) (ps : PassSpec) (s t : State), passSpecOf i = some ps → statusErr s.rf.status = false →
    StatusLegal s.rf → exec i s = .next t →
    t.rf.cmd = encode i ∧ StatusLegal t.rf ∧
    ((Completed t ∧ t.rf.errInfo = s.rf.errInfo) ∨
     (statusErr t.rf.status = true ∧ statusDone t.rf.status = false ∧
      ((statusCause t.rf.status = 2#4 ∧ (t.rf.errInfo = 1#64 ∨ t.rf.errInfo = 2#64)) ∨
        statusCause t.rf.status = 3#4 ∨ statusCause t.rf.status = 4#4)))

/-- R42, R55, R164: after an accepted command memory is what its recorded writes make of it, every recorded access went to a
mapped byte, and a `BUS_ERR` names a byte that is not mapped. -/
def Obligations.MemoryIsTheRecordedWritesAndAllMapped : Prop :=
  ∀ (i : Instr) (s t : State), statusErr s.rf.status = false → statusCause s.rf.status = 0#4 → exec i s = .next t →
    t.mem = applyWrites s.mem t.bus ∧
    (∀ x ∈ t.bus, s.platform.isMapped (match x with | .rd a => a | .wr a _ => a) = true) ∧
    (statusCause t.rf.status = 4#4 → s.platform.isMapped t.rf.errInfo = false)

/-- R93, R164, R169: the first access of a pass is the first byte of its first offset entry; if that is not mapped the pass
ends with `BUS_ERR` at it and no access. -/
def Obligations.FirstOffsetEntryUnmapped : Prop :=
  ∀ (i : Instr) (ps : PassSpec) (s : State), passSpecOf i = some ps → PassAccepted s →
    0 < s.rf.desc.lines → 0 < s.rf.desc.dests →
    s.platform.isMapped (offsAddr s.rf.desc s.rf.desc.firstDest) = false →
    ∃ t, exec i s = .next t ∧ statusDone t.rf.status = false ∧ statusErr t.rf.status = true ∧
      statusCause t.rf.status = 4#4 ∧
      t = { s with
        bus := []
        rf := { s.rf with
          cmd := encode i, status := t.rf.status, errInfo := offsAddr s.rf.desc s.rf.desc.firstDest, seq := none
          acc := t.rf.acc, wsum := t.rf.wsum } }

/-- R28, R163: with filter length 0 the first destination pixel reads its offset entry, no coefficient, and faults with
`DIV_ZERO` at line 0 and `D_MIN`; memory is unchanged. -/
def Obligations.ZeroFilterLengthDividesByZero : Prop :=
  ∀ (i : Instr) (ps : PassSpec) (s : State), passSpecOf i = some ps → PassAccepted s →
    0 < s.rf.desc.lines → 0 < s.rf.desc.dests → s.rf.filterLen = 0#16 →
    Readable (passPort ps s) 4 (offsAddr s.rf.desc s.rf.desc.firstDest) →
    ∃ t, exec i s = .next t ∧ statusDone t.rf.status = false ∧ statusErr t.rf.status = true ∧
      statusCause t.rf.status = 3#4 ∧
      t = { s with
        bus := readAccesses 4 (offsAddr s.rf.desc s.rf.desc.firstDest)
        rf := { s.rf with
          cmd := encode i, status := t.rf.status, errInfo := s.rf.dMin.setWidth 64, seq := none
          acc := t.rf.acc, wsum := t.rf.wsum } }

/-- R103, R108, R163: a `DIV_ZERO` is precise: if every pixel before line `r`, coordinate `j` is ready, and that one can be read
and its weight sum is zero, the pass made the accesses of all pixels before it and the reads of that one, and nothing else. -/
def Obligations.DivZeroIsPrecise : Prop :=
  ∀ (i : Instr) (ps : PassSpec) (s : State) (r j : Nat), passSpecOf i = some ps → PassAccepted s →
    r < s.rf.desc.lines → j < s.rf.desc.dests →
    (∀ r' < s.rf.desc.lines, ∀ j' < s.rf.desc.dests, Precedes r' j' r j →
      PixelReady ps (passPort ps s) s.mem s.rf.desc r' (s.rf.desc.firstDest + j')) →
    PixelReadable ps (passPort ps s) s.mem s.rf.desc r (s.rf.desc.firstDest + j) →
    accWrap ps.acc (weightSum ps s.mem s.rf.desc (s.rf.desc.firstDest + j)) = 0 →
    ∃ t, exec i s = .next t ∧ statusDone t.rf.status = false ∧ statusErr t.rf.status = true ∧
      statusCause t.rf.status = 3#4 ∧ t.rf.errInfo = divZeroInfo r (s.rf.desc.firstDest + j) ∧
      t.bus = accessesBefore ps s.mem s.rf.desc r j ++ pixelReads ps s.mem s.rf.desc r (s.rf.desc.firstDest + j) ∧
      t.mem = applyWrites s.mem (accessesBefore ps s.mem s.rf.desc r j)

/-- R108, R164, R169: a `BUS_ERR` on a source byte is precise: the pixels before have been written and nothing of this one; the
accesses before the failing byte (the offset entry, the taps before, the coefficient of this tap, the source bytes before) have
happened, no other; its address is in ERR_INFO. -/
def Obligations.SourceBusErrorIsPrecise : Prop :=
  ∀ (i : Instr) (ps : PassSpec) (s : State) (r j k b : Nat), passSpecOf i = some ps → PassAccepted s →
    r < s.rf.desc.lines → j < s.rf.desc.dests → k < s.rf.desc.taps → b < fmtBpp ps.src → PixelsBeforeReady ps s r j →
    Readable (passPort ps s) 4 (offsAddr s.rf.desc (s.rf.desc.firstDest + j)) →
    (∀ k' < k, TapReadable ps (passPort ps s) s.mem s.rf.desc r (s.rf.desc.firstDest + j) k') →
    Readable (passPort ps s) ps.cw (coefAddr s.rf.desc ps.cw (s.rf.desc.firstDest + j) k) →
    coefOf ps s.mem s.rf.desc (s.rf.desc.firstDest + j) k ≠ 0 →
    Readable (passPort ps s) b
      (srcAddr s.rf.desc (fmtBpp ps.src) r (coordOf s.mem s.rf.desc (s.rf.desc.firstDest + j) k)) →
    s.platform.isMapped (srcAddr s.rf.desc (fmtBpp ps.src) r (coordOf s.mem s.rf.desc (s.rf.desc.firstDest + j) k) +
      BitVec.ofNat 64 b) = false →
    ∃ t, exec i s = .next t ∧
      EndedWithBusErr t (srcAddr s.rf.desc (fmtBpp ps.src) r (coordOf s.mem s.rf.desc (s.rf.desc.firstDest + j) k) +
        BitVec.ofNat 64 b) ∧
      t.bus = accessesBefore ps s.mem s.rf.desc r j ++
        readsBeforeTap ps s.mem s.rf.desc r (s.rf.desc.firstDest + j) k ++
        readAccesses ps.cw (coefAddr s.rf.desc ps.cw (s.rf.desc.firstDest + j) k) ++
        readAccesses b (srcAddr s.rf.desc (fmtBpp ps.src) r (coordOf s.mem s.rf.desc (s.rf.desc.firstDest + j) k)) ∧
      t.mem = applyWrites s.mem (accessesBefore ps s.mem s.rf.desc r j)

/-- R93, R108, R164, R169: a `BUS_ERR` on a byte of an offset entry, of whatever pixel, is precise: the pixels before have been
written and nothing of this one; of this pixel only the bytes of the entry before the failing one have been read. -/
def Obligations.OffsetBusErrorIsPrecise : Prop :=
  ∀ (i : Instr) (ps : PassSpec) (s : State) (r j b : Nat), passSpecOf i = some ps → PassAccepted s →
    r < s.rf.desc.lines → j < s.rf.desc.dests → b < 4 → PixelsBeforeReady ps s r j →
    Readable (passPort ps s) b (offsAddr s.rf.desc (s.rf.desc.firstDest + j)) →
    s.platform.isMapped (offsAddr s.rf.desc (s.rf.desc.firstDest + j) + BitVec.ofNat 64 b) = false →
    ∃ t, exec i s = .next t ∧
      EndedWithBusErr t (offsAddr s.rf.desc (s.rf.desc.firstDest + j) + BitVec.ofNat 64 b) ∧
      t.bus = accessesBefore ps s.mem s.rf.desc r j ++ readAccesses b (offsAddr s.rf.desc (s.rf.desc.firstDest + j)) ∧
      t.mem = applyWrites s.mem (accessesBefore ps s.mem s.rf.desc r j)

/-- R98, R108, R164, R169: a `BUS_ERR` on a byte of a coefficient is precise: the pixels before have been written and nothing of
this one; of this pixel the offset entry, the taps before and the bytes of the coefficient before the failing one have been
read. -/
def Obligations.CoefficientBusErrorIsPrecise : Prop :=
  ∀ (i : Instr) (ps : PassSpec) (s : State) (r j k b : Nat), passSpecOf i = some ps → PassAccepted s →
    r < s.rf.desc.lines → j < s.rf.desc.dests → k < s.rf.desc.taps → b < ps.cw → PixelsBeforeReady ps s r j →
    Readable (passPort ps s) 4 (offsAddr s.rf.desc (s.rf.desc.firstDest + j)) →
    (∀ k' < k, TapReadable ps (passPort ps s) s.mem s.rf.desc r (s.rf.desc.firstDest + j) k') →
    Readable (passPort ps s) b (coefAddr s.rf.desc ps.cw (s.rf.desc.firstDest + j) k) →
    s.platform.isMapped (coefAddr s.rf.desc ps.cw (s.rf.desc.firstDest + j) k + BitVec.ofNat 64 b) = false →
    ∃ t, exec i s = .next t ∧
      EndedWithBusErr t (coefAddr s.rf.desc ps.cw (s.rf.desc.firstDest + j) k + BitVec.ofNat 64 b) ∧
      t.bus = accessesBefore ps s.mem s.rf.desc r j ++
        readsBeforeTap ps s.mem s.rf.desc r (s.rf.desc.firstDest + j) k ++
        readAccesses b (coefAddr s.rf.desc ps.cw (s.rf.desc.firstDest + j) k) ∧
      t.mem = applyWrites s.mem (accessesBefore ps s.mem s.rf.desc r j)

/-- R108, R164, R169: a `BUS_ERR` on a destination write is precise: the pixels before have been written, and of the pixel
itself exactly the bytes before the failing one, whose address is in ERR_INFO. -/
def Obligations.DestinationBusErrorIsPrecise : Prop :=
  ∀ (i : Instr) (ps : PassSpec) (s : State) (r j b : Nat), passSpecOf i = some ps → PassAccepted s →
    r < s.rf.desc.lines → j < s.rf.desc.dests → b < fmtBpp ps.dst →
    (∀ r' < s.rf.desc.lines, ∀ j' < s.rf.desc.dests, Precedes r' j' r j →
      PixelReady ps (passPort ps s) s.mem s.rf.desc r' (s.rf.desc.firstDest + j')) →
    PixelReadable ps (passPort ps s) s.mem s.rf.desc r (s.rf.desc.firstDest + j) →
    accWrap ps.acc (weightSum ps s.mem s.rf.desc (s.rf.desc.firstDest + j)) ≠ 0 →
    Writable (passPort ps s) b (dstAddr s.rf.desc (fmtBpp ps.dst) r (s.rf.desc.firstDest + j)) →
    s.platform.isMapped (dstAddr s.rf.desc (fmtBpp ps.dst) r (s.rf.desc.firstDest + j) + BitVec.ofNat 64 b) = false →
    ∃ t, exec i s = .next t ∧ statusDone t.rf.status = false ∧ statusErr t.rf.status = true ∧
      statusCause t.rf.status = 4#4 ∧
      t.rf.errInfo = dstAddr s.rf.desc (fmtBpp ps.dst) r (s.rf.desc.firstDest + j) + BitVec.ofNat 64 b ∧
      t.bus = accessesBefore ps s.mem s.rf.desc r j ++ pixelReads ps s.mem s.rf.desc r (s.rf.desc.firstDest + j) ++
        (pixelWrites ps s.mem s.rf.desc r (s.rf.desc.firstDest + j)).take b ∧
      t.mem = applyWrites s.mem t.bus

/-- R109: if every tap of a pixel that is not skipped has the same value in a channel, and neither sum wraps, a ready weighted
pass stores that value, for a negative weight sum too. -/
def Obligations.ConstantWindowIsReproduced : Prop :=
  ∀ (i : Instr) (ps : PassSpec) (s : State) (r j c V : Nat), passSpecOf i = some ps → i ≠ .nnYcc8 → PassReady ps s →
    DestinationsDisjoint ps s.rf.desc → Memory.wf s.mem →
    r < s.rf.desc.lines → j < s.rf.desc.dests → c < fmtChans ps.dst →
    (∀ k < s.rf.desc.taps, coefOf ps s.mem s.rf.desc (s.rf.desc.firstDest + j) k ≠ 0 →
      (samplesOf ps s.mem s.rf.desc r (coordOf s.mem s.rf.desc (s.rf.desc.firstDest + j) k)).getD c 0 = V) →
    accWrap ps.acc (weightSum ps s.mem s.rf.desc (s.rf.desc.firstDest + j)) =
      weightSum ps s.mem s.rf.desc (s.rf.desc.firstDest + j) →
    accWrap ps.acc (V * weightSum ps s.mem s.rf.desc (s.rf.desc.firstDest + j)) =
      V * weightSum ps s.mem s.rf.desc (s.rf.desc.firstDest + j) →
    ∃ t, exec i s = .next t ∧
      peek t.mem (fmtSw ps.dst) (dstAddr s.rf.desc (fmtBpp ps.dst) r (s.rf.desc.firstDest + j) +
        BitVec.ofNat 64 (c * fmtSw ps.dst)) = V

/-- R125: in a ready generic pass over a source without alpha every destination pixel has alpha 65535, whatever the
coefficients; over a gray source its three colour lanes are equal. -/
def Obligations.AlphaOfAlphaLessSourcesIsOpaque : Prop :=
  ∀ (f : PixFmt) (i : Instr) (s : State), (f, i) ∈ [(PixFmt.gray8, Instr.genGray8), (.gray16, .genGray16), (.ycc8, .genYcc8)] →
    PassReady (genSpec f) s → DestinationsDisjoint (genSpec f) s.rf.desc → Memory.wf s.mem →
    ∃ t, exec i s = .next t ∧ ∀ r < s.rf.desc.lines, ∀ j < s.rf.desc.dests,
      peek t.mem 2 (dstAddr s.rf.desc 8 r (s.rf.desc.firstDest + j) + 6#64) = 65535 ∧
      (f ≠ .ycc8 →
        peek t.mem 2 (dstAddr s.rf.desc 8 r (s.rf.desc.firstDest + j)) =
          peek t.mem 2 (dstAddr s.rf.desc 8 r (s.rf.desc.firstDest + j) + 2#64) ∧
        peek t.mem 2 (dstAddr s.rf.desc 8 r (s.rf.desc.firstDest + j)) =
          peek t.mem 2 (dstAddr s.rf.desc 8 r (s.rf.desc.firstDest + j) + 4#64))

/-- R155: in a ready nearest-neighbour pass a pixel with exactly one selected tap is that tap's source pixel, byte for byte. -/
def Obligations.NearestSingleTapReproducesItsPixel : Prop :=
  ∀ (s : State) (r j k : Nat), PassReady nearestSpec s → DestinationsDisjoint nearestSpec s.rf.desc → Memory.wf s.mem →
    r < s.rf.desc.lines → j < s.rf.desc.dests → k < s.rf.desc.taps →
    coefOf nearestSpec s.mem s.rf.desc (s.rf.desc.firstDest + j) k ≠ 0 →
    (∀ k' < s.rf.desc.taps, k' ≠ k → coefOf nearestSpec s.mem s.rf.desc (s.rf.desc.firstDest + j) k' = 0) →
    ∃ t, exec .nnYcc8 s = .next t ∧ ∀ b < 3,
      t.mem.read (dstAddr s.rf.desc 3 r (s.rf.desc.firstDest + j) + BitVec.ofNat 64 b) =
        s.mem.read (srcAddr s.rf.desc 3 r (coordOf s.mem s.rf.desc (s.rf.desc.firstDest + j) k) + BitVec.ofNat 64 b)

/-- R176: a ready pass over all its lines leaves the memory of two passes, one over its first `n` lines and one over the rest,
with `SRC_BASE` advanced by `n*SRC_STRIDE` and `DST_BASE` by `n*BPP_dst`. -/
def Obligations.SplitPassLeavesTheSameMemory : Prop :=
  ∀ (i : Instr) (ps : PassSpec) (s : State) (n : Nat), passSpecOf i = some ps → PassReady ps s → n ≤ s.rf.lines.toNat →
    ∃ t t1 t2, exec i s = .next t ∧
      exec i { s with rf := { s.rf with lines := BitVec.ofNat 32 n } } = .next t1 ∧
      exec i { t1 with rf := linesFrom ps n { t1.rf with lines := s.rf.lines } } = .next t2 ∧
      t2.mem = t.mem ∧ Completed t2

/-- R35: what a pass does to memory, STATUS and, at a fault, ERR_INFO, and its accesses, are a function of the descriptor, STATUS,
memory and the platform's map (and the counter of the free values, log 6): no other register, no accumulator and no earlier
command matters. -/
def Obligations.NoHiddenStateInfluencesAPass : Prop :=
  ∀ (i : Instr) (ps : PassSpec) (s1 s2 t1 t2 : State), passSpecOf i = some ps →
    s1.rf.desc = s2.rf.desc → s1.rf.status = s2.rf.status → s1.mem = s2.mem →
    s1.platform.mapped = s2.platform.mapped → s1.draws = s2.draws →
    exec i s1 = .next t1 → exec i s2 = .next t2 →
    t1.mem = t2.mem ∧ t1.rf.status = t2.rf.status ∧ t1.draws = t2.draws ∧
    (statusErr s1.rf.status = false →
      t1.bus = t2.bus ∧ (statusErr t1.rf.status = true → t1.rf.errInfo = t2.rf.errInfo))

/-- R29: the host may store any value in SCALE; no command reads or changes it, and it influences nothing. -/
def Obligations.ScaleInfluencesNothing : Prop :=
  (∀ (s : State) (x : BitVec 64), hostOp (.wr 15 x) s = .next (withScale x s)) ∧
  ∀ (i : Instr) (s t : State) (x : BitVec 64), exec i s = .next t →
    t.rf.scale = s.rf.scale ∧ exec i (withScale x s) = .next (withScale x t)

/-- R192: in the reset state every pass faults with `BAD_DESC`, check 1, and the clamps work. -/
def Obligations.CommandsInTheResetState : Prop :=
  (∀ i, passSpecOf i ≠ none →
    ∃ t, exec i State.reset = .next t ∧ t.rf.status = 0x22#32 ∧ statusCause t.rf.status = 2#4 ∧ t.rf.errInfo = 1#64) ∧
  ∀ i, passSpecOf i = none →
    ∃ t, exec i State.reset = .next t ∧ statusDone t.rf.status = true ∧ t.rf.result = 0#16

/-! ## The machine as a whole -/

/-- R107, R177: every command ends, in every state, in a next state; RSZ has no hang. -/
def Obligations.EveryCommandEndsInANextState : Prop :=
  ∀ (i : Instr) (s : State), ∃ t, exec i s = .next t

/-- A step stops only for what the host does outside RSZ: its own access to an unmapped byte (log 13), a request to no instance
(log 4), an access to the register space that R40 and log 10 give no register. -/
def Obligations.StepStopsOnlyForTheHost : Prop :=
  ∀ s : State,
    (∀ f, Sys2Proof.Machine.step s = .fault f → ∃ a k rest, f = .hostUnmapped a ∧ s.platform.isMapped a = false ∧
      ((∃ b, s.pending = { inst := k, op := .memWr a b } :: rest) ∨ s.pending = { inst := k, op := .memRd a } :: rest)) ∧
    ∀ p, Sys2Proof.Machine.step s = .refused p → ∃ q rest, s.pending = q :: rest ∧
      ((p = .noSuchInstance ∧ ¬ q.inst < s.platform.numInst) ∨
       (p = .hostAccessUndefined ∧ ∃ addr size, regIndex? s.platform.rszBase addr size = none ∧
        ((∃ v, q.op = .busWr addr size v) ∨ q.op = .busRd addr size)))

/-- R38: a step for one instance leaves the registers of every other instance as they are (how the instances are held is the
model's, log 4). -/
def Obligations.InstancesShareNoRegister : Prop :=
  ∀ (s t : State) (q : HostReq) (rest : List HostReq) (j : Nat), Inv s → s.pending = q :: rest → j ≠ q.inst →
    Sys2Proof.Machine.step s = .next t → instanceFile t j = instanceFile s j

/-- The model's choice (logs 2, 4, 10): the platform's open parameters of R5 (the map, NUM_INST, RSZ_BASE) are fields of State that
no step changes; another map is another state, not an event of a run. -/
def Obligations.PlatformNeverChanges : Prop :=
  ∀ s t : State, Sys2Proof.Machine.step s = .next t → t.platform = s.platform

/-- R191: a reset during a command leaves the writes of some prefix of the accesses the whole command makes, and every register
at its reset value (how long the prefix is, is a free value: log 7). -/
def Obligations.ResetDuringACommandLeavesAPrefix : Prop :=
  ∀ (s : State) (v : HostWord), statusErr s.rf.status = false →
    ∃ u t n, hostOp (.wr 0 v) s = .next u ∧ hostOp (.resetDuring v) s = .next t ∧ n ≤ u.bus.length ∧
      t.mem = applyWrites s.mem (u.bus.take n) ∧ (∀ i, readReg t.rf i = 0#64) ∧ t.rf.seq = none

/-- The host's own accesses to memory (R40 item 2, R57; the model's choice, log 13): a byte written reads back, no other byte
changes, and an unmapped byte stops the machine. -/
def Obligations.HostMemoryAccess : Prop :=
  ∀ (s : State) (a : Addr) (b : Byte),
    (s.platform.isMapped a = true → Memory.wf s.mem →
      ∃ t, hostOp (.memWr a b) s = .next t ∧ hostOp (.memRd a) t = .next { t with rdData := b.setWidth 64 } ∧
        t = { s with mem := t.mem } ∧ ∀ c, c ≠ a → t.mem.read c = s.mem.read c) ∧
    (s.platform.isMapped a = false →
      hostOp (.memWr a b) s = .fault (.hostUnmapped a) ∧ hostOp (.memRd a) s = .fault (.hostUnmapped a))
end

