-- ==== Sys2Proof/Laws/State.lean ====
section
/-! SUPPORT. One lemma per field of State per named update, each true by rfl, so that no proof unfolds an update. -/

namespace Sys2Proof.Machine

/-! ### raiseFault -/

@[simp] theorem raiseFault_rf (c : Cause) (info : BitVec 64) (s : State) : (raiseFault c info s).rf = { s.rf with status := latchCause c.code s.rf.status, errInfo := info } := rfl
@[simp] theorem raiseFault_sel (c : Cause) (info : BitVec 64) (s : State) : (raiseFault c info s).sel = s.sel := rfl
@[simp] theorem raiseFault_parked (c : Cause) (info : BitVec 64) (s : State) : (raiseFault c info s).parked = s.parked := rfl
@[simp] theorem raiseFault_mem (c : Cause) (info : BitVec 64) (s : State) : (raiseFault c info s).mem = s.mem := rfl
@[simp] theorem raiseFault_platform (c : Cause) (info : BitVec 64) (s : State) : (raiseFault c info s).platform = s.platform := rfl
@[simp] theorem raiseFault_pending (c : Cause) (info : BitVec 64) (s : State) : (raiseFault c info s).pending = s.pending := rfl
@[simp] theorem raiseFault_rdData (c : Cause) (info : BitVec 64) (s : State) : (raiseFault c info s).rdData = s.rdData := rfl
@[simp] theorem raiseFault_bus (c : Cause) (info : BitVec 64) (s : State) : (raiseFault c info s).bus = s.bus := rfl
@[simp] theorem raiseFault_draws (c : Cause) (info : BitVec 64) (s : State) : (raiseFault c info s).draws = s.draws := rfl

/-! ### clearFault -/

@[simp] theorem clearFault_rf (s : State) : (clearFault s).rf = writeStatus 2#64 s.rf := rfl
@[simp] theorem clearFault_sel (s : State) : (clearFault s).sel = s.sel := rfl
@[simp] theorem clearFault_parked (s : State) : (clearFault s).parked = s.parked := rfl
@[simp] theorem clearFault_mem (s : State) : (clearFault s).mem = s.mem := rfl
@[simp] theorem clearFault_platform (s : State) : (clearFault s).platform = s.platform := rfl
@[simp] theorem clearFault_pending (s : State) : (clearFault s).pending = s.pending := rfl
@[simp] theorem clearFault_rdData (s : State) : (clearFault s).rdData = s.rdData := rfl
@[simp] theorem clearFault_bus (s : State) : (clearFault s).bus = s.bus := rfl
@[simp] theorem clearFault_draws (s : State) : (clearFault s).draws = s.draws := rfl

/-! ### acceptCommand -/

@[simp] theorem acceptCommand_rf (w : CmdWord) (s : State) : (acceptCommand w s).rf = { s.rf with cmd := w, status := setDone false s.rf.status } := rfl
@[simp] theorem acceptCommand_sel (w : CmdWord) (s : State) : (acceptCommand w s).sel = s.sel := rfl
@[simp] theorem acceptCommand_parked (w : CmdWord) (s : State) : (acceptCommand w s).parked = s.parked := rfl
@[simp] theorem acceptCommand_mem (w : CmdWord) (s : State) : (acceptCommand w s).mem = s.mem := rfl
@[simp] theorem acceptCommand_platform (w : CmdWord) (s : State) : (acceptCommand w s).platform = s.platform := rfl
@[simp] theorem acceptCommand_pending (w : CmdWord) (s : State) : (acceptCommand w s).pending = s.pending := rfl
@[simp] theorem acceptCommand_rdData (w : CmdWord) (s : State) : (acceptCommand w s).rdData = s.rdData := rfl
@[simp] theorem acceptCommand_bus (w : CmdWord) (s : State) : (acceptCommand w s).bus = [] := rfl
@[simp] theorem acceptCommand_draws (w : CmdWord) (s : State) : (acceptCommand w s).draws = s.draws := rfl

/-! ### finish_done -/

@[simp] theorem finish_done_rf (s : State) : ((CmdEnd.done s).finish).rf = { s.rf with status := setDone true s.rf.status } := rfl
@[simp] theorem finish_done_sel (s : State) : ((CmdEnd.done s).finish).sel = s.sel := rfl
@[simp] theorem finish_done_parked (s : State) : ((CmdEnd.done s).finish).parked = s.parked := rfl
@[simp] theorem finish_done_mem (s : State) : ((CmdEnd.done s).finish).mem = s.mem := rfl
@[simp] theorem finish_done_platform (s : State) : ((CmdEnd.done s).finish).platform = s.platform := rfl
@[simp] theorem finish_done_pending (s : State) : ((CmdEnd.done s).finish).pending = s.pending := rfl
@[simp] theorem finish_done_rdData (s : State) : ((CmdEnd.done s).finish).rdData = s.rdData := rfl
@[simp] theorem finish_done_bus (s : State) : ((CmdEnd.done s).finish).bus = s.bus := rfl
@[simp] theorem finish_done_draws (s : State) : ((CmdEnd.done s).finish).draws = s.draws := rfl

/-! ### commitEngine -/

@[simp] theorem commitEngine_rf (s : State) (e : Engine) : (commitEngine s e).rf = { s.rf with seq := none, acc := e.acc, wsum := e.wsum } := rfl
@[simp] theorem commitEngine_sel (s : State) (e : Engine) : (commitEngine s e).sel = s.sel := rfl
@[simp] theorem commitEngine_parked (s : State) (e : Engine) : (commitEngine s e).parked = s.parked := rfl
@[simp] theorem commitEngine_mem (s : State) (e : Engine) : (commitEngine s e).mem = e.mem := rfl
@[simp] theorem commitEngine_platform (s : State) (e : Engine) : (commitEngine s e).platform = s.platform := rfl
@[simp] theorem commitEngine_pending (s : State) (e : Engine) : (commitEngine s e).pending = s.pending := rfl
@[simp] theorem commitEngine_rdData (s : State) (e : Engine) : (commitEngine s e).rdData = s.rdData := rfl
@[simp] theorem commitEngine_bus (s : State) (e : Engine) : (commitEngine s e).bus = e.bus.reverse := rfl
@[simp] theorem commitEngine_draws (s : State) (e : Engine) : (commitEngine s e).draws = e.draws := rfl

/-! ### resetInstance -/

@[simp] theorem resetInstance_rf (s : State) : (resetInstance s).rf = RegFile.reset := rfl
@[simp] theorem resetInstance_sel (s : State) : (resetInstance s).sel = s.sel := rfl
@[simp] theorem resetInstance_parked (s : State) : (resetInstance s).parked = s.parked := rfl
@[simp] theorem resetInstance_mem (s : State) : (resetInstance s).mem = s.mem := rfl
@[simp] theorem resetInstance_platform (s : State) : (resetInstance s).platform = s.platform := rfl
@[simp] theorem resetInstance_pending (s : State) : (resetInstance s).pending = s.pending := rfl
@[simp] theorem resetInstance_rdData (s : State) : (resetInstance s).rdData = s.rdData := rfl
@[simp] theorem resetInstance_bus (s : State) : (resetInstance s).bus = s.bus := rfl
@[simp] theorem resetInstance_draws (s : State) : (resetInstance s).draws = s.draws := rfl

/-! ### the end of a command by a fault, and the engine of a pass -/

@[simp] theorem finish_faulted (c : Cause) (info : BitVec 64) (s : State) :
    (CmdEnd.faulted c info s).finish = raiseFault c info s := rfl
@[simp] theorem startEngine_mem (s : State) : (startEngine s).mem = s.mem := rfl
@[simp] theorem startEngine_bus (s : State) : (startEngine s).bus = [] := rfl
@[simp] theorem startEngine_draws (s : State) : (startEngine s).draws = s.draws := rfl
@[simp] theorem startEngine_seq (s : State) : (startEngine s).seq = none := rfl
@[simp] theorem startEngine_acc (s : State) : (startEngine s).acc = s.rf.acc := rfl
@[simp] theorem startEngine_wsum (s : State) : (startEngine s).wsum = s.rf.wsum := rfl

/-! ### the next piece of a command -/

@[simp] theorem andThen_ok {α β : Type} (x : α) (e : Engine) (f : α → Engine → Run β) :
    (Run.ok x e).andThen f = f x e := rfl
@[simp] theorem andThen_fault {α β : Type} (c : Cause) (info : BitVec 64) (e : Engine) (f : α → Engine → Run β) :
    (Run.fault c info e).andThen f = .fault c info e := rfl

/-- What `andThen` can answer with a value: both pieces did. -/
theorem andThen_eq_ok {α β : Type} {r : Run α} {f : α → Engine → Run β} {y : β} {e' : Engine} :
    r.andThen f = .ok y e' ↔ ∃ x e, r = .ok x e ∧ f x e = .ok y e' := by
  cases r <;> simp

/-- What `andThen` can fault with: the first piece did, or the second after the first answered. -/
theorem andThen_eq_fault {α β : Type} {r : Run α} {f : α → Engine → Run β} {c : Cause} {info : BitVec 64}
    {e' : Engine} :
    r.andThen f = .fault c info e' ↔
      r = .fault c info e' ∨ ∃ x e, r = .ok x e ∧ f x e = .fault c info e' := by
  cases r <;> simp

end Sys2Proof.Machine
end

