-- ==== Sys2Proof/Laws/Flags.lean ====
section
/-! SUPPORT. The fields of STATUS after each write of STATUS (R15, R166). -/

namespace Sys2Proof.Machine

@[simp] theorem statusDone_setDone (b : Bool) (w : BitVec 32) : statusDone (setDone b w) = b := by
  cases b <;> simp [statusDone, setDone]

@[simp] theorem statusErr_setDone (b : Bool) (w : BitVec 32) : statusErr (setDone b w) = statusErr w := by
  cases b <;> simp [statusErr, setDone]

@[simp] theorem statusCause_setDone (b : Bool) (w : BitVec 32) : statusCause (setDone b w) = statusCause w := by
  apply BitVec.eq_of_getLsbD_eq
  intro i hi
  interval_cases i <;> cases b <;> simp [statusCause, setDone]

@[simp] theorem statusDone_latchCause (c : BitVec 4) (w : BitVec 32) :
    statusDone (latchCause c w) = statusDone w := by
  simp [statusDone, latchCause]

@[simp] theorem statusErr_latchCause (c : BitVec 4) (w : BitVec 32) : statusErr (latchCause c w) = true := by
  simp [statusErr, latchCause]

@[simp] theorem statusCause_latchCause (c : BitVec 4) (w : BitVec 32) : statusCause (latchCause c w) = c := by
  apply BitVec.eq_of_getLsbD_eq
  intro i hi
  interval_cases i <;> simp [statusCause, latchCause]

@[simp] theorem statusDone_clearCause (w : BitVec 32) : statusDone (clearCause w) = statusDone w := by
  simp [statusDone, clearCause]

@[simp] theorem statusErr_clearCause (w : BitVec 32) : statusErr (clearCause w) = false := by
  simp [statusErr, clearCause]

@[simp] theorem statusCause_clearCause (w : BitVec 32) : statusCause (clearCause w) = 0#4 := by
  apply BitVec.eq_of_getLsbD_eq
  intro i hi
  interval_cases i <;> simp [statusCause, clearCause]

@[simp] theorem setDone_setDone (a b : Bool) (w : BitVec 32) : setDone a (setDone b w) = setDone a w := by
  apply BitVec.eq_of_getLsbD_eq
  intro i hi
  interval_cases i <;> cases a <;> cases b <;> simp [setDone]

/-- The reserved bits are those under one mask. -/
theorem statusReservedZero_iff (w : BitVec 32) : statusReservedZero w = true ↔ w &&& 0xFFFFFF0C#32 = 0#32 := by
  simp [statusReservedZero]

theorem setDone_reserved (b : Bool) (w : BitVec 32) :
    setDone b w &&& 0xFFFFFF0C#32 = w &&& 0xFFFFFF0C#32 := by
  apply BitVec.eq_of_getLsbD_eq
  intro i hi
  interval_cases i <;> cases b <;> simp [setDone]

theorem latchCause_reserved (c : BitVec 4) (w : BitVec 32) :
    latchCause c w &&& 0xFFFFFF0C#32 = w &&& 0xFFFFFF0C#32 := by
  apply BitVec.eq_of_getLsbD_eq
  intro i hi
  interval_cases i <;> simp [latchCause]

theorem clearCause_reserved (w : BitVec 32) : clearCause w &&& 0xFFFFFF0C#32 = w &&& 0xFFFFFF0C#32 := by
  apply BitVec.eq_of_getLsbD_eq
  intro i hi
  interval_cases i <;> simp [clearCause]

@[simp] theorem statusReservedZero_setDone (b : Bool) (w : BitVec 32) :
    statusReservedZero (setDone b w) = statusReservedZero w := by
  unfold statusReservedZero; rw [setDone_reserved]

@[simp] theorem statusReservedZero_latchCause (c : BitVec 4) (w : BitVec 32) :
    statusReservedZero (latchCause c w) = statusReservedZero w := by
  unfold statusReservedZero; rw [latchCause_reserved]

@[simp] theorem statusReservedZero_clearCause (w : BitVec 32) :
    statusReservedZero (clearCause w) = statusReservedZero w := by
  unfold statusReservedZero; rw [clearCause_reserved]

end Sys2Proof.Machine
end

