-- ==== Sys2Proof/Laws/Memory.lean ====
section
/-! SUPPORT. The laws of sparse lists and of memory (R36): read after write, writes elsewhere, the canonical form. -/

namespace Sys2Proof.Machine

/-! ## Sparse lists -/

section
variable {α : Type} [DecidableEq α] {d : α}

omit [DecidableEq α] in
theorem sparseGet_eq_default {l : List (Nat × α)} {a : Nat} (h : ∀ c ∈ l, c.1 ≠ a) : sparseGet d l a = d := by
  induction l with
  | nil => rfl
  | cons c l ih =>
    obtain ⟨k, v⟩ := c
    have hk : k ≠ a := h (k, v) (by simp)
    simp only [sparseGet, hk, if_false]
    exact ih fun c hc => h c (by simp [hc])

/-- Putting a value at one key leaves every other key alone, in canonical form or not. -/
theorem sparseGet_sparseSet_ne (l : List (Nat × α)) {a b : Nat} (v : α) (h : b ≠ a) :
    sparseGet d (sparseSet d a v l) b = sparseGet d l b := by
  induction l with
  | nil => unfold sparseSet; split <;> simp [sparseGet, Ne.symm h]
  | cons c l ih =>
    obtain ⟨k, w⟩ := c
    unfold sparseSet
    split
    · simp [sparseGet, ih]
    · split
      · subst k; split <;> simp [sparseGet, Ne.symm h]
      · split <;> simp [sparseGet, Ne.symm h]

/-- In canonical form, the value put at a key is the value found there. -/
theorem sparseGet_sparseSet_same {l : List (Nat × α)} (a : Nat) (v : α)
    (h : l.Pairwise (fun x y => x.1 < y.1)) : sparseGet d (sparseSet d a v l) a = v := by
  induction l with
  | nil => unfold sparseSet; split <;> simp_all [sparseGet]
  | cons c l ih =>
    obtain ⟨k, w⟩ := c
    rw [List.pairwise_cons] at h
    unfold sparseSet
    split
    · next hk => simp [sparseGet, Nat.ne_of_lt hk, ih h.2]
    · split
      · next hk =>
        subst hk
        split
        · next hv => rw [hv]; exact sparseGet_eq_default fun c hc => Nat.ne_of_gt (h.1 c hc)
        · simp [sparseGet]
      · next h1 h2 =>
        split
        · next hv =>
          rw [hv]
          refine sparseGet_eq_default fun c hc => ?_
          rcases List.mem_cons.1 hc with rfl | hc
          · exact h2
          · have := h.1 c hc; simp only at this; omega
        · simp [sparseGet]

/-- Every entry after a put is the new one or an old one at another key. -/
theorem mem_sparseSet {l : List (Nat × α)} {a : Nat} {v : α} {c : Nat × α} (h : c ∈ sparseSet d a v l) :
    (c = (a, v) ∧ v ≠ d) ∨ c ∈ l := by
  induction l with
  | nil => unfold sparseSet at h; split at h <;> simp_all
  | cons e l ih =>
    obtain ⟨k, w⟩ := e
    unfold sparseSet at h
    split at h
    · rcases List.mem_cons.1 h with rfl | h
      · simp
      · rcases ih h with h | h <;> simp [h]
    · split at h
      · split at h
        · simp [h]
        · rcases List.mem_cons.1 h with rfl | h <;> simp_all
      · split at h
        · exact .inr h
        · rcases List.mem_cons.1 h with rfl | h <;> simp_all

/-- A put keeps the canonical form. -/
theorem sparseWf_sparseSet {bound : Nat} {l : List (Nat × α)} {a : Nat} (v : α) (ha : a < bound)
    (h : sparseWf d bound l) : sparseWf d bound (sparseSet d a v l) := by
  refine ⟨?_, fun c hc => ?_⟩
  · obtain ⟨hp, -⟩ := h
    induction l with
    | nil => unfold sparseSet; split <;> simp
    | cons e l ih =>
      obtain ⟨k, w⟩ := e
      rw [List.pairwise_cons] at hp
      unfold sparseSet
      split
      · next hk =>
        refine List.pairwise_cons.2 ⟨fun c hc => ?_, ih hp.2⟩
        rcases mem_sparseSet hc with ⟨rfl, -⟩ | hc
        · exact hk
        · exact hp.1 c hc
      · split
        · next hk =>
          subst hk
          split
          · exact hp.2
          · exact List.pairwise_cons.2 hp
        · next h1 h2 =>
          split
          · exact List.pairwise_cons.2 hp
          · refine List.pairwise_cons.2 ⟨fun c hc => ?_, List.pairwise_cons.2 hp⟩
            rcases List.mem_cons.1 hc with rfl | hc
            · simp only; omega
            · have := hp.1 c hc; simp only at this ⊢; omega
  · rcases mem_sparseSet hc with ⟨rfl, hv⟩ | hc
    · exact ⟨hv, ha⟩
    · exact h.2 c hc

/-- After a put of the default, no entry has that key. -/
theorem sparseSet_default_key {bound : Nat} {l : List (Nat × α)} {a : Nat} (h : sparseWf d bound l) :
    ∀ c ∈ sparseSet d a d l, c.1 ≠ a := by
  obtain ⟨hp, -⟩ := h
  induction l with
  | nil => simp [sparseSet]
  | cons e l ih =>
    obtain ⟨k, w⟩ := e
    rw [List.pairwise_cons] at hp
    intro c hc
    unfold sparseSet at hc
    split at hc
    · next hk =>
      rcases List.mem_cons.1 hc with rfl | hc
      · exact Nat.ne_of_lt hk
      · exact ih hp.2 c hc
    · split at hc
      · next hk =>
        subst hk
        simp only [if_true] at hc
        exact Nat.ne_of_gt (hp.1 c hc)
      · next h1 h2 =>
        simp only [if_true] at hc
        rcases List.mem_cons.1 hc with rfl | hc
        · exact h2
        · have := hp.1 c hc; simp only at this; omega

end

/-! ## Memory -/

@[simp] theorem Memory.read_nil (a : Addr) : Memory.read [] a = unlistedByte := rfl

theorem Memory.read_write_same {m : Memory} (h : m.wf) (a : Addr) (b : Byte) : (m.write a b).read a = b :=
  sparseGet_sparseSet_same _ _ h.1

theorem Memory.read_write_ne (m : Memory) {a c : Addr} (b : Byte) (h : c ≠ a) : (m.write a b).read c = m.read c :=
  sparseGet_sparseSet_ne m b fun hn => h (BitVec.eq_of_toNat_eq hn)

theorem Memory.wf_write {m : Memory} (h : m.wf) (a : Addr) (b : Byte) : (m.write a b).wf :=
  sparseWf_sparseSet b a.isLt h

theorem Memory.wf_nil : Memory.wf [] := by simp [Memory.wf, sparseWf]

/-! ## Lists of accesses -/

@[simp] theorem applyWrites_nil (m : Memory) : applyWrites m [] = m := rfl
@[simp] theorem applyWrites_rd (m : Memory) (a : Addr) (l : List Access) :
    applyWrites m (.rd a :: l) = applyWrites m l := rfl
@[simp] theorem applyWrites_wr (m : Memory) (a : Addr) (b : Byte) (l : List Access) :
    applyWrites m (.wr a b :: l) = applyWrites (m.write a b) l := rfl

@[simp] theorem applyWrites_append (m : Memory) (l l' : List Access) :
    applyWrites m (l ++ l') = applyWrites (applyWrites m l) l' := by
  induction l generalizing m with
  | nil => rfl
  | cons x l ih => cases x <;> simp [ih]

theorem applyWrites_wf {m : Memory} (h : m.wf) (l : List Access) : (applyWrites m l).wf := by
  induction l generalizing m with
  | nil => exact h
  | cons x l ih =>
    cases x with
    | rd a => exact ih h
    | wr a b => exact ih (Memory.wf_write h a b)

/-- A byte that no access of the list writes is unchanged. -/
theorem applyWrites_read_of_not_written (m : Memory) (l : List Access) (c : Addr)
    (h : ∀ a b, Access.wr a b ∈ l → c ≠ a) : (applyWrites m l).read c = m.read c := by
  induction l generalizing m with
  | nil => rfl
  | cons x l ih =>
    cases x with
    | rd a => exact ih m fun a b hab => h a b (by simp [hab])
    | wr a b =>
      simp only [applyWrites_wr]
      rw [ih (m.write a b) fun a' b' hab => h a' b' (by simp [hab])]
      exact Memory.read_write_ne m b (h a b (by simp))

end Sys2Proof.Machine
end

