-- ==== Sys2Proof/Laws/Operands.lean ====
section
/-! SUPPORT. The laws of the address formulas (R51) and of the region a pass writes. -/

namespace Sys2Proof.Machine

/-- The closed form of `DstRegion.has`: some byte of some row lies at `a`. -/
theorem dstRegion_has_iff (g : DstRegion) (a : Addr) (hb : g.rows * g.stride + g.rowBytes ≤ 2 ^ 64) :
    g.has a = true ↔ ∃ q < g.rows, ∃ x < g.rowBytes, a = g.base + BitVec.ofNat 64 (q * g.stride + x) := by
  obtain ⟨base, stride, rows, rowBytes⟩ := g
  simp only [DstRegion.has, Bool.and_eq_true, decide_eq_true_eq]
  simp only at hb
  constructor
  · rintro ⟨hr, hx⟩
    set o := (a - base).toNat with ho
    set q := (if stride = 0 then 0 else min (o / stride) (rows - 1)) with hq
    have hqr : q < rows := by rw [hq]; split <;> omega
    have hqo : q * stride ≤ o := by
      rw [hq]
      split
      · omega
      · exact le_trans (Nat.mul_le_mul_right _ (min_le_left _ _)) (Nat.div_mul_le_self _ _)
    refine ⟨q, hqr, o - q * stride, hx, ?_⟩
    rw [Nat.add_sub_cancel' hqo, ho, BitVec.ofNat_toNat, BitVec.setWidth_eq]
    rw [BitVec.add_comm, BitVec.sub_add_cancel]
  · rintro ⟨q, hqr, x, hx, rfl⟩
    have hlt : q * stride + x < 2 ^ 64 := by
      have : q * stride ≤ rows * stride := Nat.mul_le_mul_right _ (le_of_lt hqr)
      omega
    have ho : (base + BitVec.ofNat 64 (q * stride + x) - base).toNat = q * stride + x := by
      rw [BitVec.add_comm, BitVec.add_sub_cancel, BitVec.toNat_ofNat, Nat.mod_eq_of_lt hlt]
    rw [ho]
    refine ⟨by omega, ?_⟩
    split
    · next h => subst h; simpa using hx
    · next h =>
      have hs : 0 < stride := Nat.pos_of_ne_zero h
      have hq : q ≤ min ((q * stride + x) / stride) (rows - 1) := by
        refine le_min ((Nat.le_div_iff_mul_le hs).2 (by omega)) (by omega)
      have := Nat.mul_le_mul_right stride hq
      omega

theorem fmtBpp_le (f : PixFmt) : fmtBpp f ≤ 8 := by cases f <;> decide

theorem fmtBpp_pos (f : PixFmt) : 0 < fmtBpp f := by cases f <;> decide

/-- A destination pixel lies `j` rows and `r` pixels behind the base, wherever the coordinates start. -/
theorem dstAddr_eq (rf : RegFile) (bpp r j : Nat) (h : 0 ≤ rf.desc.dMin) :
    dstAddr rf.desc bpp r (rf.desc.firstDest + j) =
      rf.dstBase + BitVec.ofNat 64 (j * rf.desc.dstStride + r * bpp) := by
  have hd : (((rf.desc.firstDest + j : Nat) : Int) - rf.desc.dMin) = j := by
    unfold Desc.firstDest; omega
  have hb : rf.desc.dstBase = rf.dstBase := rfl
  unfold dstAddr
  rw [hd, hb]
  have he : ((rf.dstBase.toNat : Int) + (j : Int) * (rf.desc.dstStride : Int) + (r : Int) * (bpp : Int)) =
      ((rf.dstBase.toNat + (j * rf.desc.dstStride + r * bpp) : Nat) : Int) := by push_cast; ring
  rw [he, BitVec.ofInt_natCast, BitVec.ofNat_add, BitVec.ofNat_toNat, BitVec.setWidth_eq]

/-- No descriptor reaches around the address space. -/
theorem dstRegion_bound (rf : RegFile) (bpp : Nat) (hb : bpp ≤ 8) (h : 0 ≤ rf.desc.dMin) :
    (rf.desc.dstRegion bpp).rows * (rf.desc.dstRegion bpp).stride + (rf.desc.dstRegion bpp).rowBytes ≤ 2 ^ 64 := by
  have h1 : rf.desc.dests ≤ 2 ^ 31 := by
    have hm : rf.desc.dMax = rf.dMax.toInt := rfl
    have := BitVec.toInt_lt (x := rf.dMax)
    unfold Desc.dests; omega
  have h2 : rf.desc.dstStride < 2 ^ 32 := rf.dstStride.isLt
  have h3 : rf.desc.lines < 2 ^ 32 := rf.lines.isLt
  have h4 : rf.desc.dests * rf.desc.dstStride ≤ 2 ^ 31 * 2 ^ 32 := Nat.mul_le_mul h1 (le_of_lt h2)
  have h5 : rf.desc.lines * bpp ≤ 2 ^ 32 * 8 := Nat.mul_le_mul (le_of_lt h3) hb
  simp only [Desc.dstRegion]
  omega

/-- The bytes a pass writes are those of its destination pixels (R51): the region of the port is the set of addresses of the
formula. -/
theorem passPort_has_iff (ps : PassSpec) (s : State) (a : Addr) (h : 0 ≤ s.rf.desc.dMin) :
    (passPort ps s).dst.has a = true ↔ IsDestination ps s.rf.desc a := by
  have hp := fmtBpp_pos ps.dst
  simp only [passPort]
  rw [dstRegion_has_iff _ _ (dstRegion_bound s.rf _ (fmtBpp_le _) h)]
  simp only [Desc.dstRegion, IsDestination]
  constructor
  · rintro ⟨q, hq, x, hx, rfl⟩
    refine ⟨x / fmtBpp ps.dst, (Nat.div_lt_iff_lt_mul hp).2 hx, q, hq, x % fmtBpp ps.dst, Nat.mod_lt _ hp, ?_⟩
    rw [dstAddr_eq _ _ _ _ h, BitVec.add_assoc, ← BitVec.ofNat_add]
    have : q * s.rf.desc.dstStride + x / fmtBpp ps.dst * fmtBpp ps.dst + x % fmtBpp ps.dst =
        q * s.rf.desc.dstStride + x := by
      rw [Nat.add_assoc, Nat.div_add_mod']
    rw [this]; rfl
  · rintro ⟨r, hr, j, hj, b, hb, rfl⟩
    refine ⟨j, hj, r * fmtBpp ps.dst + b, ?_, ?_⟩
    · calc r * fmtBpp ps.dst + b < r * fmtBpp ps.dst + fmtBpp ps.dst := by omega
        _ = (r + 1) * fmtBpp ps.dst := by ring
        _ ≤ s.rf.desc.lines * fmtBpp ps.dst := Nat.mul_le_mul_right _ hr
    · rw [dstAddr_eq _ _ _ _ h, BitVec.add_assoc, ← BitVec.ofNat_add, Nat.add_assoc]; rfl

end Sys2Proof.Machine
end

