-- ==== Sys2Proof/Laws/Port.lean ====
section
/-! SUPPORT. What the operations of the memory port can do, said once: every one extends the record of accesses and changes
memory by exactly the writes recorded (R43, R44, R55); on bytes that can be read or written it answers, with the value the
bytes have. -/

namespace Sys2Proof.Machine

/-- The engine a piece of a command leaves, whether it goes on or faults. -/
def Run.engine {α : Type} : Run α → Engine
  | .ok _ e => e
  | .fault _ _ e => e

@[simp] theorem Run.engine_ok {α : Type} (x : α) (e : Engine) : (Run.ok x e).engine = e := rfl
@[simp] theorem Run.engine_fault {α : Type} (c : Cause) (i : BitVec 64) (e : Engine) :
    (Run.fault c i e : Run α).engine = e := rfl

/-- The address of an access. -/
def Access.addr : Access → Addr
  | .rd a => a
  | .wr a _ => a

@[simp] theorem Access.addr_rd (a : Addr) : (Access.rd a).addr = a := rfl
@[simp] theorem Access.addr_wr (a : Addr) (b : Byte) : (Access.wr a b).addr = a := rfl

/-- From `e` to `e'` some accesses were made: they are recorded, memory changed by their writes and by nothing else, all went
to mapped bytes (R42), and the writes to addresses in `W`. -/
def Extends (P : Port) (W : Addr → Prop) (e e' : Engine) : Prop :=
  ∃ l : List Access, e'.bus = l.reverse ++ e.bus ∧ e'.mem = applyWrites e.mem l ∧
    (∀ x ∈ l, P.platform.isMapped x.addr = true) ∧ ∀ a b, Access.wr a b ∈ l → W a

theorem Extends.refl (P : Port) (W : Addr → Prop) (e : Engine) : Extends P W e e := ⟨[], by simp⟩

/-- Only the recorded accesses and memory matter. -/
theorem Extends.of_eq {P : Port} {W : Addr → Prop} {e e' : Engine} (hb : e'.bus = e.bus) (hm : e'.mem = e.mem) :
    Extends P W e e' := ⟨[], by simp [hb, hm]⟩

theorem Extends.trans {P : Port} {W : Addr → Prop} {e e1 e2 : Engine} (h1 : Extends P W e e1)
    (h2 : Extends P W e1 e2) : Extends P W e e2 := by
  obtain ⟨l1, hb1, hm1, ha1, hw1⟩ := h1
  obtain ⟨l2, hb2, hm2, ha2, hw2⟩ := h2
  refine ⟨l1 ++ l2, by simp [hb1, hb2], by simp [hm1, hm2], ?_, ?_⟩
  · intro x hx
    rcases List.mem_append.1 hx with h | h
    · exact ha1 x h
    · exact ha2 x h
  · intro a b hx
    rcases List.mem_append.1 hx with h | h
    · exact hw1 a b h
    · exact hw2 a b h

/-- A piece of a command that only extends the accesses, in whatever way it ends. -/
theorem extends_andThen {α β : Type} {P : Port} {W : Addr → Prop} {e : Engine} {r : Run α}
    {f : α → Engine → Run β} (h1 : Extends P W e r.engine)
    (h2 : ∀ x e1, r = .ok x e1 → Extends P W e1 (f x e1).engine) : Extends P W e (r.andThen f).engine := by
  cases r with
  | ok x e1 => exact h1.trans (h2 x e1 rfl)
  | fault c i e1 => exact h1

/-- Why a piece of a pass can fault: an unmapped byte, whose address is the information (R164), or a zero weight sum (R163). -/
def FaultLegal {α : Type} (P : Port) : Run α → Prop
  | .ok _ _ => True
  | .fault c info _ => (c = .busErr ∧ P.platform.isMapped info = false) ∨ c = .divZero

theorem faultLegal_andThen {α β : Type} {P : Port} {r : Run α} {f : α → Engine → Run β} (h1 : FaultLegal P r)
    (h2 : ∀ x e1, r = .ok x e1 → FaultLegal P (f x e1)) : FaultLegal P (r.andThen f) := by
  cases r with
  | ok x e1 => exact h2 x e1 rfl
  | fault c i e1 => exact h1

/-! ## One byte -/

/-- Everything a byte read can do. -/
theorem readByte_cases (P : Port) (a : Addr) (e : Engine) :
    (P.platform.isMapped a = false ∧ readByte P a e = .fault .busErr a e) ∨
    (P.platform.isMapped a = true ∧ P.dst.has a = true ∧
      readByte P a e = .ok (Config.hazardByte e.draws) { e with bus := .rd a :: e.bus, draws := e.draws + 1 }) ∨
    (P.platform.isMapped a = true ∧ P.dst.has a = false ∧
      readByte P a e = .ok (e.mem.read a) { e with bus := .rd a :: e.bus }) := by
  unfold readByte
  cases P.platform.isMapped a <;> cases P.dst.has a <;> simp

/-- Everything a byte write can do. -/
theorem writeByte_cases (P : Port) (a : Addr) (b : Byte) (e : Engine) :
    (P.platform.isMapped a = false ∧ writeByte P a b e = .fault .busErr a e) ∨
    (P.platform.isMapped a = true ∧
      writeByte P a b e = .ok () { e with mem := e.mem.write a b, bus := .wr a b :: e.bus }) := by
  unfold writeByte
  cases P.platform.isMapped a <;> simp

theorem readByte_extends (P : Port) (W : Addr → Prop) (a : Addr) (e : Engine) :
    Extends P W e (readByte P a e).engine := by
  rcases readByte_cases P a e with ⟨-, h⟩ | ⟨hm, -, h⟩ | ⟨hm, -, h⟩ <;> rw [h]
  · exact Extends.refl P W e
  all_goals exact ⟨[.rd a], by simp [hm]⟩

theorem writeByte_extends (P : Port) (W : Addr → Prop) (a : Addr) (b : Byte) (e : Engine) (hw : W a) :
    Extends P W e (writeByte P a b e).engine := by
  rcases writeByte_cases P a b e with ⟨-, h⟩ | ⟨hm, h⟩ <;> rw [h]
  · exact Extends.refl P W e
  · exact ⟨[.wr a b], by simp [hm, hw]⟩

theorem readByte_faultLegal (P : Port) (a : Addr) (e : Engine) : FaultLegal P (readByte P a e) := by
  rcases readByte_cases P a e with ⟨hm, h⟩ | ⟨-, -, h⟩ | ⟨-, -, h⟩ <;> rw [h] <;> simp [FaultLegal]
  exact hm

theorem writeByte_faultLegal (P : Port) (a : Addr) (b : Byte) (e : Engine) : FaultLegal P (writeByte P a b e) := by
  rcases writeByte_cases P a b e with ⟨hm, h⟩ | ⟨-, h⟩ <;> rw [h] <;> simp [FaultLegal]
  exact hm

/-! ## Several bytes -/

theorem memReadFrom_extends (P : Port) (W : Addr → Prop) (acc n : Nat) (a : Addr) (e : Engine) :
    Extends P W e (memReadFrom P acc n a e).engine := by
  induction n generalizing acc a e with
  | zero => exact Extends.refl P W e
  | succ n ih => exact extends_andThen (readByte_extends P W a e) fun b e1 _ => ih _ _ _

theorem memRead_extends (P : Port) (W : Addr → Prop) (n : Nat) (a : Addr) (e : Engine) :
    Extends P W e (memRead P n a e).engine := memReadFrom_extends P W 0 n a e

theorem memReadFrom_faultLegal (P : Port) (acc n : Nat) (a : Addr) (e : Engine) :
    FaultLegal P (memReadFrom P acc n a e) := by
  induction n generalizing acc a e with
  | zero => trivial
  | succ n ih => exact faultLegal_andThen (readByte_faultLegal P a e) fun b e1 _ => ih _ _ _

theorem memRead_faultLegal (P : Port) (n : Nat) (a : Addr) (e : Engine) : FaultLegal P (memRead P n a e) :=
  memReadFrom_faultLegal P 0 n a e

theorem addr_succ (a : Addr) (j : Nat) : a + BitVec.ofNat 64 (j + 1) = a + 1 + BitVec.ofNat 64 j := by
  rw [BitVec.ofNat_add, BitVec.add_assoc, BitVec.add_comm (BitVec.ofNat 64 j)]; rfl

theorem memWrite_extends (P : Port) (W : Addr → Prop) (n : Nat) (a : Addr) (v : Nat) (e : Engine)
    (hw : ∀ j < n, W (a + BitVec.ofNat 64 j)) : Extends P W e (memWrite P n a v e).engine := by
  induction n generalizing a e with
  | zero => exact Extends.refl P W e
  | succ n ih =>
    refine extends_andThen (writeByte_extends P W a _ e (by simpa using hw 0 (by omega))) fun _ e1 _ => ih _ _ ?_
    intro j hj
    rw [← addr_succ]
    exact hw (j + 1) (by omega)

theorem memWrite_faultLegal (P : Port) (n : Nat) (a : Addr) (v : Nat) (e : Engine) :
    FaultLegal P (memWrite P n a v e) := by
  induction n generalizing a e with
  | zero => trivial
  | succ n ih => exact faultLegal_andThen (writeByte_faultLegal P a _ e) fun _ e1 _ => ih _ _

/-! ## Bytes that can be read and written -/

theorem readAccesses_succ (n : Nat) (a : Addr) :
    readAccesses (n + 1) a = .rd a :: readAccesses n (a + 1) := by
  simp only [readAccesses, List.range_succ_eq_map, List.map_cons, List.map_map, Function.comp_def]
  refine congrArg₂ _ (by simp) (List.map_congr_left fun j _ => ?_)
  rw [Nat.succ_eq_add_one, addr_succ]

theorem writeAccesses_succ (n : Nat) (a : Addr) (v : Nat) :
    writeAccesses (n + 1) a v = .wr a (BitVec.ofNat 8 (v / 256 ^ n)) :: writeAccesses n (a + 1) v := by
  simp only [writeAccesses, List.range_succ_eq_map, List.map_cons, List.map_map, Function.comp_def]
  refine congrArg₂ _ (by simp) (List.map_congr_left fun j _ => ?_)
  rw [Nat.succ_eq_add_one, addr_succ, show n + 1 - 1 - (j + 1) = n - 1 - j by omega]

theorem memReadFrom_of_readable (P : Port) (acc n : Nat) (a : Addr) (e : Engine) (h : Readable P n a) :
    memReadFrom P acc n a e =
      .ok (peekFrom e.mem acc n a) { e with bus := (readAccesses n a).reverse ++ e.bus } := by
  induction n generalizing acc a e with
  | zero => rfl
  | succ n ih =>
    obtain ⟨hm, hd⟩ := h 0 (by omega)
    simp only [BitVec.add_zero] at hm hd
    have hr : readByte P a e = .ok (e.mem.read a) { e with bus := .rd a :: e.bus } := by
      simp [readByte, hm, hd]
    have ht : Readable P n (a + 1) := fun j hj => by rw [← addr_succ]; exact h (j + 1) (by omega)
    simp only [memReadFrom, hr, andThen_ok, ih _ _ _ ht, peekFrom, readAccesses_succ, List.reverse_cons,
      List.append_assoc, List.singleton_append]

/-- A `MemRead` of readable bytes answers their big-endian value and records its reads (R43). -/
theorem memRead_of_readable (P : Port) (n : Nat) (a : Addr) (e : Engine) (h : Readable P n a) :
    memRead P n a e = .ok (peek e.mem n a) { e with bus := (readAccesses n a).reverse ++ e.bus } :=
  memReadFrom_of_readable P 0 n a e h

/-- A `MemWrite` of mapped bytes writes and records its bytes (R44). -/
theorem memWrite_of_writable (P : Port) (n : Nat) (a : Addr) (v : Nat) (e : Engine) (h : Writable P n a) :
    memWrite P n a v e =
      .ok () { e with
        mem := applyWrites e.mem (writeAccesses n a v)
        bus := (writeAccesses n a v).reverse ++ e.bus } := by
  induction n generalizing a e with
  | zero => rfl
  | succ n ih =>
    have hm := h 0 (by omega)
    simp only [BitVec.add_zero] at hm
    have hr : writeByte P a (BitVec.ofNat 8 (v / 256 ^ n)) e =
        .ok () { e with
          mem := e.mem.write a (BitVec.ofNat 8 (v / 256 ^ n)), bus := .wr a (BitVec.ofNat 8 (v / 256 ^ n)) :: e.bus } := by
      simp [writeByte, hm]
    have ht : Writable P n (a + 1) := fun j hj => by rw [← addr_succ]; exact h (j + 1) (by omega)
    simp only [memWrite, hr, andThen_ok, ih _ _ ht, writeAccesses_succ, List.reverse_cons, List.append_assoc,
      List.singleton_append, applyWrites_wr]

/-! ## Loops -/

/-- The induction of every loop of the listing (R92): what each iteration keeps, the loop keeps. -/
theorem loopUp_induct {Q : Engine → Prop} {body : Nat → Engine → Run Unit} (n i : Nat) (e : Engine) (h0 : Q e)
    (hs : ∀ k e, i ≤ k → k < i + n → Q e → Q (body k e).engine) : Q (loopUp body n i e).engine := by
  induction n generalizing i e with
  | zero => exact h0
  | succ n ih =>
    have h1 := hs i e (le_refl _) (by omega) h0
    unfold loopUp
    cases hb : body i e with
    | ok x e1 =>
      rw [hb] at h1
      exact ih (i + 1) e1 h1 fun k e hk hk' => hs k e (by omega) (by omega)
    | fault c info e1 => rw [hb] at h1; exact h1

theorem loopUp_extends (P : Port) (W : Addr → Prop) (body : Nat → Engine → Run Unit) (n i : Nat) (e : Engine)
    (hs : ∀ k e, i ≤ k → k < i + n → Extends P W e (body k e).engine) :
    Extends P W e (loopUp body n i e).engine :=
  loopUp_induct (Q := fun e' => Extends P W e e') n i e (Extends.refl P W e)
    fun k e' hk hk' h => h.trans (hs k e' hk hk')

theorem loopUp_faultLegal (P : Port) (body : Nat → Engine → Run Unit) (n i : Nat) (e : Engine)
    (hs : ∀ k e, FaultLegal P (body k e)) : FaultLegal P (loopUp body n i e) := by
  induction n generalizing i e with
  | zero => trivial
  | succ n ih => exact faultLegal_andThen (hs i e) fun _ e1 _ => ih _ _

/-- A loop whose iterations all answer, the k-th by `f k`, answers with all of them done in order. -/
theorem loopUp_of_ok {body : Nat → Engine → Run Unit} {f : Nat → Engine → Engine} {Q : Engine → Prop} (n i : Nat)
    (e : Engine) (h0 : Q e)
    (hs : ∀ k e, i ≤ k → k < i + n → Q e → body k e = .ok () (f k e) ∧ Q (f k e)) :
    loopUp body n i e = .ok () ((List.range' i n).foldl (fun e k => f k e) e) := by
  induction n generalizing i e with
  | zero => rfl
  | succ n ih =>
    obtain ⟨h1, h2⟩ := hs i e (le_refl _) (by omega) h0
    simp only [loopUp, h1, andThen_ok, List.range'_succ, List.foldl_cons]
    exact ih (i + 1) (f i e) h2 fun k e hk hk' => hs k e (by omega) (by omega)

end Sys2Proof.Machine
end

