-- ==== Sys2Proof/Laws/Pass.lean ====
section
/-! SUPPORT. What the steps of a pass can do (R92 to R105), said once: they only extend the accesses, they write destination
pixels only, they fault only as R163 and R164 say; and a pixel that is ready makes exactly its accesses, with its values. -/

namespace Sys2Proof.Machine

/-! ## Samples -/

theorem readSamples_extends (P : Port) (W : Addr → Prop) (sw n : Nat) (a : Addr) (e : Engine) :
    Extends P W e (readSamples P sw n a e).engine := by
  induction n generalizing a e with
  | zero => exact Extends.refl P W e
  | succ n ih =>
    refine extends_andThen (memRead_extends P W sw a e) fun v e1 _ => ?_
    exact extends_andThen (ih _ _) fun vs e2 _ => Extends.refl P W e2

theorem readSamples_faultLegal (P : Port) (sw n : Nat) (a : Addr) (e : Engine) :
    FaultLegal P (readSamples P sw n a e) := by
  induction n generalizing a e with
  | zero => trivial
  | succ n ih =>
    exact faultLegal_andThen (memRead_faultLegal P sw a e) fun v e1 _ =>
      faultLegal_andThen (ih _ _) fun vs e2 _ => trivial

/-- An answered sample fetch has as many samples as were asked for. -/
theorem readSamples_length {P : Port} {sw n : Nat} {a : Addr} {e e' : Engine} {vs : List Nat}
    (h : readSamples P sw n a e = .ok vs e') : vs.length = n := by
  induction n generalizing a e e' vs with
  | zero => simp only [readSamples, Run.ok.injEq] at h; simp [← h.1]
  | succ n ih =>
    obtain ⟨v, e1, -, h⟩ := andThen_eq_ok.1 h
    obtain ⟨ws, e2, h2, h⟩ := andThen_eq_ok.1 h
    simp only [Run.ok.injEq] at h
    simp [← h.1, ih h2]

theorem fetchSamples_extends (ps : PassSpec) (P : Port) (W : Addr → Prop) (D : Desc) (r : Nat) (xc : Int)
    (e : Engine) : Extends P W e (fetchSamples ps P D r xc e).engine :=
  extends_andThen (readSamples_extends P W _ _ _ e) fun _ e1 _ => Extends.refl P W e1

theorem fetchSamples_faultLegal (ps : PassSpec) (P : Port) (D : Desc) (r : Nat) (xc : Int) (e : Engine) :
    FaultLegal P (fetchSamples ps P D r xc e) :=
  faultLegal_andThen (readSamples_faultLegal P _ _ _ e) fun _ _ _ => trivial

/-! ## Taps and pixels: what they extend -/

theorem accumulate_extends (ps : PassSpec) (P : Port) (W : Addr → Prop) (k : Int) (ss : List Nat) (e : Engine) :
    Extends P W e (accumulate ps k ss e) := Extends.of_eq rfl rfl

theorem clearAcc_extends (ps : PassSpec) (P : Port) (W : Addr → Prop) (e : Engine) :
    Extends P W e (clearAcc ps e) := Extends.of_eq rfl rfl

/-- A tap reads and writes no byte. -/
theorem passTap_extends (ps : PassSpec) (P : Port) (W : Addr → Prop) (D : Desc) (r d : Nat) (start : Int) (i : Nat)
    (e : Engine) : Extends P W e (passTap ps P D r d start i e).engine := by
  refine Extends.trans (e1 := { e with seq := some ⟨r, d, i⟩ }) (Extends.of_eq rfl rfl) ?_
  refine extends_andThen (memRead_extends P W _ _ _) fun raw e1 _ => ?_
  split
  · exact Extends.refl P W e1
  · exact extends_andThen (fetchSamples_extends ps P W D r _ e1) fun ss e2 _ => accumulate_extends ps P W _ _ e2

theorem passTap_faultLegal (ps : PassSpec) (P : Port) (D : Desc) (r d : Nat) (start : Int) (i : Nat) (e : Engine) :
    FaultLegal P (passTap ps P D r d start i e) := by
  refine faultLegal_andThen (memRead_faultLegal P _ _ _) fun raw e1 _ => ?_
  split
  · trivial
  · exact faultLegal_andThen (fetchSamples_faultLegal ps P D r _ e1) fun ss e2 _ => trivial

theorem storeValues_extends (P : Port) (W : Addr → Prop) (sw : Nat) (vs : List Nat) (a : Addr) (e : Engine)
    (hw : ∀ j < vs.length * sw, W (a + BitVec.ofNat 64 j)) : Extends P W e (storeValues P sw vs a e).engine := by
  induction vs generalizing a e with
  | nil => exact Extends.refl P W e
  | cons v vs ih =>
    simp only [List.length_cons, Nat.add_mul, Nat.one_mul] at hw
    refine extends_andThen (memWrite_extends P W sw a v e fun j hj => hw j (by omega)) fun _ e1 _ => ih _ _ ?_
    intro j hj
    rw [BitVec.add_assoc, ← BitVec.ofNat_add]
    exact hw (sw + j) (by omega)

theorem storeValues_faultLegal (P : Port) (sw : Nat) (vs : List Nat) (a : Addr) (e : Engine) :
    FaultLegal P (storeValues P sw vs a e) := by
  induction vs generalizing a e with
  | nil => trivial
  | cons v vs ih => exact faultLegal_andThen (memWrite_faultLegal P sw a v e) fun _ e1 _ => ih _ _

theorem pixelValues_length_le (ps : PassSpec) (e : Engine) : (pixelValues ps e).length ≤ fmtChans ps.dst := by
  simp [pixelValues]

/-- Normalise and store writes bytes of its destination pixel only (R105). -/
theorem finishPixel_extends (ps : PassSpec) (P : Port) (W : Addr → Prop) (D : Desc) (r d : Nat) (e : Engine)
    (hw : ∀ b < fmtBpp ps.dst, W (dstAddr D (fmtBpp ps.dst) r d + BitVec.ofNat 64 b)) :
    Extends P W e (finishPixel ps P D r d e).engine := by
  unfold finishPixel
  split
  · exact Extends.refl P W e
  · refine storeValues_extends P W _ _ _ _ fun j hj => hw j (lt_of_lt_of_le hj ?_)
    exact Nat.mul_le_mul_right _ (pixelValues_length_le ps e)

theorem finishPixel_faultLegal (ps : PassSpec) (P : Port) (D : Desc) (r d : Nat) (e : Engine) :
    FaultLegal P (finishPixel ps P D r d e) := by
  unfold finishPixel
  split
  · exact .inr rfl
  · exact storeValues_faultLegal P _ _ _ _

/-- A destination pixel writes its own bytes only (R51, R92, R105). -/
theorem passPixel_extends (ps : PassSpec) (P : Port) (W : Addr → Prop) (D : Desc) (r d : Nat) (e : Engine)
    (hw : ∀ b < fmtBpp ps.dst, W (dstAddr D (fmtBpp ps.dst) r d + BitVec.ofNat 64 b)) :
    Extends P W e (passPixel ps P D r d e).engine := by
  refine (clearAcc_extends ps P W e).trans ?_
  refine extends_andThen (memRead_extends P W _ _ _) fun raw e1 _ => ?_
  refine extends_andThen (loopUp_extends P W _ _ _ _ fun k e' _ _ => passTap_extends ps P W D r d _ k e')
    fun _ e2 _ => finishPixel_extends ps P W D r d e2 hw

theorem passPixel_faultLegal (ps : PassSpec) (P : Port) (D : Desc) (r d : Nat) (e : Engine) :
    FaultLegal P (passPixel ps P D r d e) := by
  refine faultLegal_andThen (memRead_faultLegal P _ _ _) fun raw e1 _ => ?_
  exact faultLegal_andThen (loopUp_faultLegal P _ _ _ _ fun k e' => passTap_faultLegal ps P D r d _ k e')
    fun _ e2 _ => finishPixel_faultLegal ps P D r d e2

/-- The whole listing writes destination pixels only (R36, R92). -/
theorem passLines_extends (ps : PassSpec) (P : Port) (D : Desc) (e : Engine) :
    Extends P (IsDestination ps D) e (passLines ps P D e).engine := by
  refine loopUp_extends P _ _ _ _ _ fun r e1 _ hr => loopUp_extends P _ _ _ _ _ fun d e2 hd hd' => ?_
  refine passPixel_extends ps P _ D r d e2 fun b hb => ⟨r, by omega, d - D.firstDest, by omega, b, hb, ?_⟩
  rw [Nat.add_sub_cancel' hd]

theorem passLines_faultLegal (ps : PassSpec) (P : Port) (D : Desc) (e : Engine) :
    FaultLegal P (passLines ps P D e) :=
  loopUp_faultLegal P _ _ _ _ fun r _ => loopUp_faultLegal P _ _ _ _ fun d e2 => passPixel_faultLegal ps P D r d e2

/-! ## The number of accumulators -/

theorem accumulate_acc_length (ps : PassSpec) (k : Int) (ss : List Nat) (e : Engine) :
    (accumulate ps k ss e).acc.length = e.acc.length := by
  simp only [accumulate, List.length_append, List.length_zipWith, List.length_drop]; omega

theorem clearAcc_acc_length (ps : PassSpec) (e : Engine) (h : e.acc.length = 4) : (clearAcc ps e).acc.length = 4 := by
  have : fmtChans ps.dst ≤ 4 := by cases ps.dst <;> decide
  simp only [clearAcc, List.length_append, List.length_replicate, List.length_drop]; omega

/-! ## The sums of wrapped sums -/

/-- Wrapping a partial sum first does not change the wrapped sum (R101). -/
theorem accWrap_add_left (t : AccType) (x y : Int) : accWrap t (accWrap t x + y) = accWrap t (x + y) := by
  cases t with
  | signed w => simp [accWrap, wrapS]
  | binary32 => rfl

@[simp] theorem accWrap_zero (t : AccType) : accWrap t 0 = 0 := by
  cases t with
  | signed w => simp [accWrap, wrapS]
  | binary32 => rfl

end Sys2Proof.Machine
end

