-- ==== Sys2Proof/Laws/Pixel.lean ====
section
/-! SUPPORT. A destination pixel that is ready (R193 to R197) makes exactly the accesses of the listing, in its order, with the
values of the closed formulas (R92 to R105), starting from any memory that agrees with the first one outside the destination. -/

namespace Sys2Proof.Machine

/-- The two memories hold the same bytes wherever the pass does not write. -/
def Agree (P : Port) (m m0 : Memory) : Prop := ∀ a, P.dst.has a = false → m.read a = m0.read a

theorem Agree.refl (P : Port) (m : Memory) : Agree P m m := fun _ _ => rfl

/-- Writes to the destination keep the agreement. -/
theorem Agree.applyWrites {P : Port} {m m0 : Memory} (h : Agree P m m0) (l : List Access)
    (hl : ∀ a b, Access.wr a b ∈ l → P.dst.has a = true) : Agree P (applyWrites m l) m0 := by
  intro a ha
  rw [applyWrites_read_of_not_written m l a fun a' b hab hc => ?_, h a ha]
  subst hc
  rw [hl _ _ hab] at ha
  exact absurd ha (by decide)

theorem peekFrom_agree {P : Port} {m m0 : Memory} (h : Agree P m m0) (acc n : Nat) (a : Addr)
    (hr : Readable P n a) : peekFrom m acc n a = peekFrom m0 acc n a := by
  induction n generalizing acc a with
  | zero => rfl
  | succ n ih =>
    have h0 := (hr 0 (by omega)).2
    simp only [BitVec.add_zero] at h0
    have ht : Readable P n (a + 1) := fun j hj => by rw [← addr_succ]; exact hr (j + 1) (by omega)
    simp only [peekFrom, h a h0, ih _ _ ht]

theorem peek_agree {P : Port} {m m0 : Memory} (h : Agree P m m0) {n : Nat} {a : Addr} (hr : Readable P n a) :
    peek m n a = peek m0 n a := peekFrom_agree h 0 n a hr

theorem readable_add {P : Port} {n k : Nat} {a : Addr} (h : Readable P (n + k) a) :
    Readable P n a ∧ Readable P k (a + BitVec.ofNat 64 n) := by
  refine ⟨fun j hj => h j (by omega), fun j hj => ?_⟩
  rw [BitVec.add_assoc, ← BitVec.ofNat_add]
  exact h (n + j) (by omega)

theorem writable_add {P : Port} {n k : Nat} {a : Addr} (h : Writable P (n + k) a) :
    Writable P n a ∧ Writable P k (a + BitVec.ofNat 64 n) := by
  refine ⟨fun j hj => h j (by omega), fun j hj => ?_⟩
  rw [BitVec.add_assoc, ← BitVec.ofNat_add]
  exact h (n + j) (by omega)

theorem readAccesses_add (n k : Nat) (a : Addr) :
    readAccesses (n + k) a = readAccesses n a ++ readAccesses k (a + BitVec.ofNat 64 n) := by
  simp only [readAccesses, List.range_add, List.map_append, List.map_map, Function.comp_def]
  refine congrArg _ (List.map_congr_left fun j _ => ?_)
  rw [BitVec.ofNat_add, BitVec.add_assoc]

/-! ## Samples -/

theorem readSamples_of_readable (P : Port) (sw n : Nat) (a : Addr) (e : Engine) (h : Readable P (n * sw) a) :
    readSamples P sw n a e =
      .ok ((List.range n).map fun c => peek e.mem sw (a + BitVec.ofNat 64 (c * sw)))
        { e with bus := (readAccesses (n * sw) a).reverse ++ e.bus } := by
  induction n generalizing a e with
  | zero => simp [readSamples, readAccesses]
  | succ n ih =>
    rw [Nat.add_mul, Nat.one_mul, Nat.add_comm] at h
    obtain ⟨h1, h2⟩ := readable_add h
    simp only [readSamples, memRead_of_readable P sw a e h1, andThen_ok, ih _ _ h2]
    rw [Nat.add_mul, Nat.one_mul, Nat.add_comm (n * sw), readAccesses_add, List.reverse_append, List.append_assoc]
    congr 1
    simp only [List.range_succ_eq_map, List.map_cons, List.map_map, Function.comp_def]
    refine congrArg₂ _ (by simp) (List.map_congr_left fun c _ => ?_)
    rw [BitVec.add_assoc, ← BitVec.ofNat_add, Nat.succ_eq_add_one, Nat.add_mul, Nat.one_mul, Nat.add_comm sw]

/-- The pixel of a source coordinate that can be read is answered whole (R99, R122). -/
theorem fetchSamples_of_readable (ps : PassSpec) (P : Port) (D : Desc) (r : Nat) (xc : Int) (e : Engine)
    (h : Readable P (fmtBpp ps.src) (srcAddr D (fmtBpp ps.src) r xc)) :
    fetchSamples ps P D r xc e =
      .ok (samplesOf ps e.mem D r xc)
        { e with bus := (readAccesses (fmtBpp ps.src) (srcAddr D (fmtBpp ps.src) r xc)).reverse ++ e.bus } := by
  unfold fetchSamples
  rw [readSamples_of_readable P _ _ _ e h]
  rfl

theorem samplesOf_agree {ps : PassSpec} {P : Port} {m m0 : Memory} {D : Desc} {r : Nat} {xc : Int}
    (h : Agree P m m0) (hr : Readable P (fmtBpp ps.src) (srcAddr D (fmtBpp ps.src) r xc)) :
    samplesOf ps m D r xc = samplesOf ps m0 D r xc := by
  have : ∀ c ∈ List.range (fmtChans ps.src),
      peek m (fmtSw ps.src) (srcAddr D (fmtBpp ps.src) r xc + BitVec.ofNat 64 (c * fmtSw ps.src)) =
      peek m0 (fmtSw ps.src) (srcAddr D (fmtBpp ps.src) r xc + BitVec.ofNat 64 (c * fmtSw ps.src)) := by
    intro c hc
    refine peek_agree h fun j hj => ?_
    rw [BitVec.add_assoc, ← BitVec.ofNat_add]
    refine hr _ ?_
    have hc' : c + 1 ≤ fmtChans ps.src := List.mem_range.1 hc
    have := Nat.mul_le_mul_right (fmtSw ps.src) hc'
    rw [Nat.add_mul, Nat.one_mul] at this
    unfold fmtBpp
    omega
  simp only [samplesOf, List.map_congr_left this]

/-- Every pass command has as many lanes as its destination has channels (R90). -/
theorem samplesOf_length {i : Instr} {ps : PassSpec} (h : passSpecOf i = some ps) (m : Memory) (D : Desc) (r : Nat)
    (xc : Int) : (samplesOf ps m D r xc).length = fmtChans ps.dst := by
  cases i <;> simp only [passSpecOf, Option.some.injEq, reduceCtorEq] at h <;> subst h <;>
    simp [samplesOf, genSpec, fixed8Spec, fixed16Spec, nearestSpec, unpackLanes, fmtChans]

/-! ## Taps -/

/-- The accumulators and the weight sum after the first `n` taps, from lanes that start at 0 (R97, R101). -/
def tapsEngine (ps : PassSpec) (m : Memory) (D : Desc) (r d n : Nat) (rest : List Int) (e : Engine) : Engine :=
  { e with
    bus := ((List.range n).flatMap (tapAccesses ps m D r d)).reverse ++ e.bus
    seq := if n = 0 then e.seq else some ⟨r, d, n - 1⟩
    acc := ((List.range (fmtChans ps.dst)).map fun c => accWrap ps.acc
      (((List.range n).map fun i =>
        coefOf ps m D d i * (((samplesOf ps m D r (coordOf m D d i)).getD c 0 : Nat) : Int)).sum)) ++ rest
    wsum := accWrap ps.acc (((List.range n).map (coefOf ps m D d)).sum) }

theorem loopUp_snoc (body : Nat → Engine → Run Unit) (n i : Nat) (e : Engine) :
    loopUp body (n + 1) i e = (loopUp body n i e).andThen fun _ e' => body (i + n) e' := by
  induction n generalizing i e with
  | zero =>
    simp only [loopUp, andThen_ok, Nat.add_zero]
    cases body i e <;> rfl
  | succ n ih =>
    rw [loopUp]
    conv_rhs => rw [loopUp]
    cases h : body i e with
    | ok x e1 => simp only [andThen_ok]; rw [ih, Nat.add_right_comm, Nat.add_assoc]
    | fault c info e1 => rfl

theorem zipWith_map_range (C : Nat) (f : Int → Nat → Int) (g : Nat → Int) (rest : List Int) (ss : List Nat)
    (h : ss.length = C) :
    List.zipWith f ((List.range C).map g ++ rest) ss = (List.range C).map fun c => f (g c) (ss.getD c 0) := by
  apply List.ext_getElem
  · simp; omega
  · intro k h1 h2
    simp only [List.length_map, List.length_range] at h2
    have hk : k < ss.length := by omega
    simp [h2, List.getD_eq_getElem?_getD, hk]

/-- A tap whose bytes can be read makes its accesses and accumulates its product, or nothing when its coefficient is 0. -/
theorem passTap_of_readable (ps : PassSpec) (P : Port) (m : Memory) (D : Desc) (r d i : Nat) (e : Engine)
    (hm : Agree P e.mem m) (hc : Readable P ps.cw (coefAddr D ps.cw d i))
    (hs : coefOf ps m D d i ≠ 0 →
      Readable P (fmtBpp ps.src) (srcAddr D (fmtBpp ps.src) r (coordOf m D d i))) :
    passTap ps P D r d (startOf m D d) i e =
      .ok () { (if coefOf ps m D d i = 0 then e
        else accumulate ps (coefOf ps m D d i) (samplesOf ps m D r (coordOf m D d i)) e) with
        bus := (tapAccesses ps m D r d i).reverse ++ e.bus, seq := some ⟨r, d, i⟩ } := by
  unfold passTap
  rw [memRead_of_readable P _ _ _ hc]
  simp only [andThen_ok, peek_agree hm hc]
  change (if coefOf ps m D d i = 0 then _ else _) = _
  by_cases h0 : coefOf ps m D d i = 0
  · simp [h0, tapAccesses]
  · simp only [h0, if_false]
    have hx : bidx (startOf m D d + i) D.srcMin D.srcMax = coordOf m D d i := rfl
    rw [hx, fetchSamples_of_readable ps P D r _ _ (hs h0)]
    simp only [andThen_ok, samplesOf_agree hm (hs h0)]
    have ht : tapAccesses ps m D r d i = readAccesses ps.cw (coefAddr D ps.cw d i) ++
        readAccesses (fmtBpp ps.src) (srcAddr D (fmtBpp ps.src) r (coordOf m D d i)) := by
      simp only [tapAccesses, h0, if_false]
    rw [ht, List.reverse_append, List.append_assoc]
    rfl

theorem loopUp_passTap_of_readable (ps : PassSpec) (P : Port) (m : Memory) (D : Desc) (r d n : Nat)
    (rest : List Int) (e : Engine) (hm : Agree P e.mem m)
    (hlen : ∀ xc, (samplesOf ps m D r xc).length = fmtChans ps.dst)
    (ha : e.acc = List.replicate (fmtChans ps.dst) 0 ++ rest) (hw : e.wsum = 0)
    (h : ∀ i < n, Readable P ps.cw (coefAddr D ps.cw d i) ∧ (coefOf ps m D d i ≠ 0 →
      Readable P (fmtBpp ps.src) (srcAddr D (fmtBpp ps.src) r (coordOf m D d i)))) :
    loopUp (passTap ps P D r d (startOf m D d)) n 0 e = .ok () (tapsEngine ps m D r d n rest e) := by
  induction n with
  | zero =>
    obtain ⟨mem, bus, draws, seq, acc, wsum⟩ := e
    simp only at ha hw
    subst ha hw
    simp [loopUp, tapsEngine, List.map_const']
  | succ n ih =>
    rw [loopUp_snoc, ih fun i hi => h i (by omega), andThen_ok, Nat.zero_add]
    obtain ⟨h1, h2⟩ := h n (by omega)
    rw [passTap_of_readable ps P m D r d n (tapsEngine ps m D r d n rest e) hm h1 h2]
    congr 1
    by_cases h0 : coefOf ps m D d n = 0
    · simp only [h0, if_true, tapsEngine, List.range_succ, List.map_append, List.sum_append, List.map_cons,
        List.map_nil, List.sum_cons, List.sum_nil, zero_mul, add_zero, List.flatMap_append, List.flatMap_cons,
        List.flatMap_nil, List.append_nil, List.reverse_append, List.append_assoc]
      simp
    · simp only [h0, if_false, tapsEngine, accumulate, hlen]
      rw [zipWith_map_range _ _ _ _ _ (hlen _)]
      simp only [accWrap_add_left, List.range_succ, List.map_append, List.sum_append, List.map_cons,
        List.map_nil, List.sum_cons, List.sum_nil, add_zero, List.flatMap_append, List.flatMap_cons,
        List.flatMap_nil, List.append_nil, List.reverse_append, List.append_assoc]
      simp

/-! ## Store -/

/-- The accesses of the store of the values `vs` (R105). -/
def storeAccesses (sw : Nat) : List Nat → Addr → List Access
  | [], _ => []
  | v :: vs, a => writeAccesses sw a v ++ storeAccesses sw vs (a + BitVec.ofNat 64 sw)

theorem storeValues_of_writable (P : Port) (sw : Nat) (vs : List Nat) (a : Addr) (e : Engine)
    (h : Writable P (vs.length * sw) a) :
    storeValues P sw vs a e =
      .ok () { e with
        mem := applyWrites e.mem (storeAccesses sw vs a)
        bus := (storeAccesses sw vs a).reverse ++ e.bus } := by
  induction vs generalizing a e with
  | nil => rfl
  | cons v vs ih =>
    rw [List.length_cons, Nat.add_mul, Nat.one_mul, Nat.add_comm] at h
    obtain ⟨h1, h2⟩ := writable_add h
    simp only [storeValues, memWrite_of_writable P sw a v e h1, andThen_ok, ih _ _ h2, storeAccesses,
      applyWrites_append, List.reverse_append, List.append_assoc]

theorem storeAccesses_map_range (sw C : Nat) (f : Nat → Nat) (a : Addr) :
    storeAccesses sw ((List.range C).map f) a =
      (List.range C).flatMap fun c => writeAccesses sw (a + BitVec.ofNat 64 (c * sw)) (f c) := by
  induction C generalizing f a with
  | zero => rfl
  | succ C ih =>
    simp only [List.range_succ_eq_map, List.map_cons, List.map_map, storeAccesses, List.flatMap_cons,
      Nat.zero_mul, BitVec.add_zero, List.flatMap_map, Function.comp_def]
    rw [ih]
    refine congrArg _ (List.flatMap_congr fun c _ => ?_)
    rw [BitVec.add_assoc, ← BitVec.ofNat_add, Nat.succ_eq_add_one, Nat.add_mul, Nat.one_mul, Nat.add_comm sw]

/-- A list without writes leaves memory as it is. -/
theorem applyWrites_readsOnly (m : Memory) {l : List Access} (h : ∀ a b, Access.wr a b ∉ l) : applyWrites m l = m := by
  induction l with
  | nil => rfl
  | cons x l ih =>
    cases x with
    | rd a => exact ih fun a b hab => h a b (by simp [hab])
    | wr a b => exact absurd List.mem_cons_self (h a b)

theorem readAccesses_readsOnly (n : Nat) (x a : Addr) (b : Byte) : Access.wr a b ∉ readAccesses n x := by
  simp [readAccesses]

theorem tapAccesses_readsOnly (ps : PassSpec) (m : Memory) (D : Desc) (r d i : Nat) (a : Addr) (b : Byte) :
    Access.wr a b ∉ tapAccesses ps m D r d i := by
  unfold tapAccesses
  split <;> simp [readAccesses_readsOnly]

theorem readsBeforeTap_readsOnly (ps : PassSpec) (m : Memory) (D : Desc) (r d k : Nat) (a : Addr) (b : Byte) :
    Access.wr a b ∉ readsBeforeTap ps m D r d k := by
  simp [readsBeforeTap, readAccesses_readsOnly, tapAccesses_readsOnly]

/-- The reads of a pixel hold no write (R169). -/
theorem pixelReads_readsOnly (ps : PassSpec) (m : Memory) (D : Desc) (r d : Nat) (a : Addr) (b : Byte) :
    Access.wr a b ∉ pixelReads ps m D r d := readsBeforeTap_readsOnly ps m D r d D.taps a b

/-- A ready pixel makes exactly its accesses, and memory takes their writes (R92 to R105). -/
theorem passPixel_of_ready (ps : PassSpec) (P : Port) (m : Memory) (D : Desc) (r d : Nat) (e : Engine)
    (hm : Agree P e.mem m) (hlen : ∀ xc, (samplesOf ps m D r xc).length = fmtChans ps.dst)
    (h : PixelReady ps P m D r d) :
    ∃ e', passPixel ps P D r d e = .ok () e' ∧ e'.bus = (pixelAccesses ps m D r d).reverse ++ e.bus ∧
      e'.mem = applyWrites e.mem (pixelAccesses ps m D r d) ∧ e'.draws = e.draws := by
  obtain ⟨⟨ho, ht⟩, hw, hs⟩ := h
  unfold passPixel
  rw [memRead_of_readable P 4 _ _ ho]
  simp only [andThen_ok]
  have hst : sextNat 32 (peek (clearAcc ps e).mem 4 (offsAddr D d)) = startOf m D d := by
    unfold startOf; rw [← peek_agree hm ho]; rfl
  rw [hst, loopUp_passTap_of_readable ps P m D r d D.taps (e.acc.drop (fmtChans ps.dst))
    { clearAcc ps e with bus := (readAccesses 4 (offsAddr D d)).reverse ++ (clearAcc ps e).bus } hm hlen rfl rfl ht]
  simp only [andThen_ok, finishPixel]
  have hws : (tapsEngine ps m D r d D.taps (e.acc.drop (fmtChans ps.dst))
      { clearAcc ps e with bus := (readAccesses 4 (offsAddr D d)).reverse ++ (clearAcc ps e).bus }).wsum ≠ 0 := hs
  rw [if_neg hws]
  have hv : pixelValues ps (tapsEngine ps m D r d D.taps (e.acc.drop (fmtChans ps.dst))
      { clearAcc ps e with bus := (readAccesses 4 (offsAddr D d)).reverse ++ (clearAcc ps e).bus }) =
      (List.range (fmtChans ps.dst)).map fun c => pixelValue ps m D r d c := by
    unfold pixelValues tapsEngine
    simp only
    rw [List.take_left' (by simp), List.map_map]
    rfl
  rw [hv, storeValues_of_writable _ _ _ _ _ (by simpa [fmtBpp] using hw)]
  refine ⟨_, rfl, ?_, ?_, rfl⟩
  · simp only [storeAccesses_map_range, tapsEngine, clearAcc, pixelAccesses, pixelReads, readsBeforeTap, pixelWrites,
      List.reverse_append, List.append_assoc]
  · rw [pixelAccesses, applyWrites_append, applyWrites_readsOnly _ (pixelReads_readsOnly ps m D r d), pixelWrites]
    simp only [storeAccesses_map_range, tapsEngine, clearAcc]

end Sys2Proof.Machine
end

