-- ==== Sys2Proof/Laws/Exec.lean ====
section
/-! SUPPORT. What a command, a host request and a step can do, said once over the shared operations. -/

namespace Sys2Proof.Machine

/-! ## Commands -/

/-- Every pass command is the shared pass with its row of R90. -/
theorem exec_pass {i : Instr} {ps : PassSpec} (h : passSpecOf i = some ps) (s : State) : exec i s = execPass i ps s := by
  cases i <;> simp only [passSpecOf, Option.some.injEq, reduceCtorEq] at h <;> subst h <;> rfl

/-- While a fault is latched a command does nothing (R14). -/
theorem runCommand_of_err {w : CmdWord} {body : State → CmdEnd} {s : State} (h : statusErr s.rf.status = true) :
    runCommand w body s = s := by simp [runCommand, h]

/-- With no fault latched a command is accepted, run and ended (R61). -/
theorem runCommand_of_ok {w : CmdWord} {body : State → CmdEnd} {s : State} (h : statusErr s.rf.status = false) :
    runCommand w body s = (body (acceptCommand w s)).finish := by simp [runCommand, h]

/-- The descriptor checks pass exactly when the extent is not empty and `D_MIN` is not negative (R162). -/
theorem failingCheck_eq_none {D : Desc} : failingCheck D = none ↔ D.srcMin < D.srcMax ∧ 0 ≤ D.dMin := by
  unfold failingCheck
  split
  · simp; omega
  · split <;> simp <;> omega

/-- Acceptance leaves the descriptor and the port of a pass as they are (R39). -/
@[simp] theorem acceptCommand_desc (w : CmdWord) (s : State) : (acceptCommand w s).rf.desc = s.rf.desc := rfl
@[simp] theorem passPort_acceptCommand (ps : PassSpec) (w : CmdWord) (s : State) :
    passPort ps (acceptCommand w s) = passPort ps s := rfl
@[simp] theorem startEngine_acceptCommand (w : CmdWord) (s : State) :
    startEngine (acceptCommand w s) = startEngine s := rfl

/-- Everything the body of a pass can do (R61 steps (3) and (4)): a failed check changes nothing; else the listing ran, to its
end or to a fault of R163 or R164, and the engine it left is committed. -/
theorem passBody_cases (ps : PassSpec) (s : State) :
    (∃ n, failingCheck s.rf.desc = some n ∧ passBody ps s = .faulted .badDesc (BitVec.ofNat 64 n) s) ∨
    (failingCheck s.rf.desc = none ∧ ∃ e,
      Extends (passPort ps s) (IsDestination ps s.rf.desc) (startEngine s) e ∧
      (passBody ps s = .done (commitEngine s e) ∨
        ∃ c info, passBody ps s = .faulted c info (commitEngine s e) ∧
          ((c = .busErr ∧ s.platform.isMapped info = false) ∨ c = .divZero))) := by
  unfold passBody
  cases hc : failingCheck s.rf.desc with
  | some n => exact .inl ⟨n, rfl, rfl⟩
  | none =>
    right
    have he := passLines_extends ps (passPort ps s) s.rf.desc (startEngine s)
    have hf := passLines_faultLegal ps (passPort ps s) s.rf.desc (startEngine s)
    cases hr : passLines ps (passPort ps s) s.rf.desc (startEngine s) with
    | ok x e => rw [hr] at he; exact ⟨rfl, e, he, .inl rfl⟩
    | fault c info e => rw [hr] at he hf; exact ⟨rfl, e, he, .inr ⟨c, info, rfl, hf⟩⟩

/-! ## Accumulators: four, always (R33) -/

theorem memReadFrom_acc (P : Port) (k n : Nat) (a : Addr) (e : Engine) :
    (memReadFrom P k n a e).engine.acc = e.acc := by
  induction n generalizing k a e with
  | zero => rfl
  | succ n ih =>
    unfold memReadFrom
    rcases readByte_cases P a e with ⟨-, h⟩ | ⟨-, -, h⟩ | ⟨-, -, h⟩ <;> rw [h] <;> simp [ih]

theorem memRead_acc (P : Port) (n : Nat) (a : Addr) (e : Engine) : (memRead P n a e).engine.acc = e.acc :=
  memReadFrom_acc P 0 n a e

theorem memWrite_acc (P : Port) (n : Nat) (a : Addr) (v : Nat) (e : Engine) :
    (memWrite P n a v e).engine.acc = e.acc := by
  induction n generalizing a e with
  | zero => rfl
  | succ n ih =>
    unfold memWrite
    rcases writeByte_cases P a (BitVec.ofNat 8 (v / 256 ^ n)) e with ⟨-, h⟩ | ⟨-, h⟩ <;> rw [h] <;> simp [ih]

/-- A property of the accumulators that a piece of a command keeps, `andThen` keeps. -/
theorem engine_andThen {α β : Type} {Q : Engine → Prop} {r : Run α} {f : α → Engine → Run β} (h1 : Q r.engine)
    (h2 : ∀ x e1, Q e1 → Q (f x e1).engine) : Q (r.andThen f).engine := by
  cases r with
  | ok x e1 => exact h2 x e1 h1
  | fault c i e1 => exact h1

theorem readSamples_acc (P : Port) (sw n : Nat) (a : Addr) (e : Engine) :
    (readSamples P sw n a e).engine.acc = e.acc := by
  induction n generalizing a e with
  | zero => rfl
  | succ n ih =>
    refine engine_andThen (Q := fun e' => e'.acc = e.acc) (memRead_acc P sw a e) fun v e1 h1 => ?_
    exact engine_andThen (Q := fun e' => e'.acc = e.acc) ((ih _ _).trans h1) fun vs e2 h2 => h2

theorem storeValues_acc (P : Port) (sw : Nat) (vs : List Nat) (a : Addr) (e : Engine) :
    (storeValues P sw vs a e).engine.acc = e.acc := by
  induction vs generalizing a e with
  | nil => rfl
  | cons v vs ih =>
    exact engine_andThen (Q := fun e' => e'.acc = e.acc) (memWrite_acc P sw a v e) fun _ e1 h1 => (ih _ _).trans h1

theorem passTap_acc_length (ps : PassSpec) (P : Port) (D : Desc) (r d : Nat) (start : Int) (i : Nat) (e : Engine)
    (h : e.acc.length = 4) : (passTap ps P D r d start i e).engine.acc.length = 4 := by
  refine engine_andThen (Q := fun e' => e'.acc.length = 4) (by rw [memRead_acc]; exact h) fun raw e1 h1 => ?_
  split
  · exact h1
  · refine engine_andThen (Q := fun e' => e'.acc.length = 4) ?_ fun ss e2 h2 => by
      rw [Run.engine_ok, accumulate_acc_length]; exact h2
    exact engine_andThen (Q := fun e' => e'.acc.length = 4) (by rw [readSamples_acc]; exact h1) fun _ _ h2 => h2

theorem passPixel_acc_length (ps : PassSpec) (P : Port) (D : Desc) (r d : Nat) (e : Engine) (h : e.acc.length = 4) :
    (passPixel ps P D r d e).engine.acc.length = 4 := by
  refine engine_andThen (Q := fun e' => e'.acc.length = 4)
    (by rw [memRead_acc]; exact clearAcc_acc_length ps e h) fun raw e1 h1 => ?_
  refine engine_andThen (Q := fun e' => e'.acc.length = 4)
    (loopUp_induct (Q := fun e' => e'.acc.length = 4) _ _ _ h1 fun k e' _ _ h' => passTap_acc_length _ _ _ _ _ _ _ _ h')
    fun _ e2 h2 => ?_
  unfold finishPixel
  split
  · exact h2
  · rw [storeValues_acc]; exact h2

theorem passLines_acc_length (ps : PassSpec) (P : Port) (D : Desc) (e : Engine) (h : e.acc.length = 4) :
    (passLines ps P D e).engine.acc.length = 4 :=
  loopUp_induct (Q := fun e' => e'.acc.length = 4) _ _ _ h fun r _ _ _ h1 =>
    loopUp_induct (Q := fun e' => e'.acc.length = 4) _ _ _ h1 fun d e2 _ _ h2 => passPixel_acc_length ps P D r d e2 h2

/-! ## Instances -/

@[simp] theorem selectInstance_self (s : State) : selectInstance s.sel s = s := by simp [selectInstance]
@[simp] theorem selectInstance_sel (k : Nat) (s : State) : (selectInstance k s).sel = k := by
  unfold selectInstance; split <;> simp_all
@[simp] theorem selectInstance_mem (k : Nat) (s : State) : (selectInstance k s).mem = s.mem := by
  unfold selectInstance; split <;> rfl
@[simp] theorem selectInstance_platform (k : Nat) (s : State) : (selectInstance k s).platform = s.platform := by
  unfold selectInstance; split <;> rfl
@[simp] theorem selectInstance_pending (k : Nat) (s : State) : (selectInstance k s).pending = s.pending := by
  unfold selectInstance; split <;> rfl
@[simp] theorem selectInstance_rdData (k : Nat) (s : State) : (selectInstance k s).rdData = s.rdData := by
  unfold selectInstance; split <;> rfl
@[simp] theorem selectInstance_bus (k : Nat) (s : State) : (selectInstance k s).bus = s.bus := by
  unfold selectInstance; split <;> rfl
@[simp] theorem selectInstance_draws (k : Nat) (s : State) : (selectInstance k s).draws = s.draws := by
  unfold selectInstance; split <;> rfl

/-- The selected register file is the one of the instance selected (R38). -/
@[simp] theorem selectInstance_rf (k : Nat) (s : State) : (selectInstance k s).rf = instanceFile s k := by
  unfold selectInstance instanceFile; split <;> rfl

end Sys2Proof.Machine
end

