-- ==== Sys2Proof/Laws/PerInstr.lean ====
section
/-! SUPPORT. The statements made per instruction. `EncodingFields`: the fields that the encoder writes are legal (R60, R63, R66)
and are the fields that its word holds (R14, R60). -/

/-- The encoder's fields of `i` pass every check, and splitting the word of `i` gives them back. -/
def Sys2Proof.Laws.EncodingFields.Statement (i : Sys2Proof.Instr) : Prop :=
  i.wf = true → (Sys2Proof.encodeFields i).wf = true ∧ Sys2Proof.splitWord (Sys2Proof.encode i) = Sys2Proof.encodeFields i

theorem Sys2Proof.Laws.EncodingFields.clamp8 : Sys2Proof.Laws.EncodingFields.Statement .clamp8 := fun _ => by decide
theorem Sys2Proof.Laws.EncodingFields.clamp16 : Sys2Proof.Laws.EncodingFields.Statement .clamp16 := fun _ => by decide
theorem Sys2Proof.Laws.EncodingFields.genRgba8 : Sys2Proof.Laws.EncodingFields.Statement .genRgba8 := fun _ => by decide
theorem Sys2Proof.Laws.EncodingFields.genRgba16 : Sys2Proof.Laws.EncodingFields.Statement .genRgba16 := fun _ => by decide
theorem Sys2Proof.Laws.EncodingFields.genGray8 : Sys2Proof.Laws.EncodingFields.Statement .genGray8 := fun _ => by decide
theorem Sys2Proof.Laws.EncodingFields.genGray16 : Sys2Proof.Laws.EncodingFields.Statement .genGray16 := fun _ => by decide
theorem Sys2Proof.Laws.EncodingFields.genYcc8 : Sys2Proof.Laws.EncodingFields.Statement .genYcc8 := fun _ => by decide
theorem Sys2Proof.Laws.EncodingFields.rgba8 : Sys2Proof.Laws.EncodingFields.Statement .rgba8 := fun _ => by decide
theorem Sys2Proof.Laws.EncodingFields.rgba16 : Sys2Proof.Laws.EncodingFields.Statement .rgba16 := fun _ => by decide
theorem Sys2Proof.Laws.EncodingFields.gray8 : Sys2Proof.Laws.EncodingFields.Statement .gray8 := fun _ => by decide
theorem Sys2Proof.Laws.EncodingFields.gray16 : Sys2Proof.Laws.EncodingFields.Statement .gray16 := fun _ => by decide
theorem Sys2Proof.Laws.EncodingFields.ycc8 : Sys2Proof.Laws.EncodingFields.Statement .ycc8 := fun _ => by decide
theorem Sys2Proof.Laws.EncodingFields.nnYcc8 : Sys2Proof.Laws.EncodingFields.Statement .nnYcc8 := fun _ => by decide
end

