-- ==== Sys2Proof/Tests/Slice0.lean ====
section
/-! SUPPORT. Tests: the ill-formed words and requests that WellFormed refuses, the words of R62 written out, the vectors of
spec/95_test_vectors.md (named V<n>, P<n>), and a state that meets the hypotheses of every statement that has some. -/

-- One evaluation at a time: each waiting one holds a thread.
set_option Elab.async false

namespace Sys2Proof.Tests

open Sys2Proof Sys2Proof.Machine

/-! ## WellFormed -/

/-- Bit 11 set in the word of RSZ.GRAY8 (V29). -/
theorem test_wf_refuses_reserved_bits : ({ zero := 1, sfmt := 0, opc := 0x22 } : CmdFields).wf = false := by decide
/-- Opcode 0x11 (V26). -/
theorem test_wf_refuses_undefined_opcode : ({ zero := 0, sfmt := 0, opc := 0x11 } : CmdFields).wf = false := by decide
/-- Bits 10:8 set in a format N word (V28). -/
theorem test_wf_refuses_format_n_bits : ({ zero := 0, sfmt := 1, opc := 0x20 } : CmdFields).wf = false := by decide
/-- SFMT 5 (V27). -/
theorem test_wf_refuses_reserved_sfmt : ({ zero := 0, sfmt := 5, opc := 0x10 } : CmdFields).wf = false := by decide
/-- Each refusal above is of one check alone. -/
theorem test_wf_checks_are_separate :
    ({ zero := 1, sfmt := 0, opc := 0x22 } : CmdFields).zeroOk = false ∧
    ({ zero := 0, sfmt := 0, opc := 0x11 } : CmdFields).opcOk = false ∧
    ({ zero := 0, sfmt := 1, opc := 0x20 } : CmdFields).formatNOk = false ∧
    ({ zero := 0, sfmt := 5, opc := 0x10 } : CmdFields).sfmtOk = false ∧
    ({ zero := 0, sfmt := 4, opc := 0x10 } : CmdFields).wf = true := by decide
/-- A request to instance 1 of one. -/
theorem test_wf_refuses_missing_instance :
    ({ inst := 1, op := .rd 0 } : HostReq).wf 1 = false ∧ ({ inst := 0, op := .rd 0 } : HostReq).wf 1 = true := by decide

/-! ## Decoding: the words of R62 from the `encoding` column of opcode_table.json -/

theorem test_decode_clamp8 : decode 0b00000000000000000000000000000001#32 = .ok .clamp8 := by decide
theorem test_decode_clamp16 : decode 0b00000000000000000000000000000010#32 = .ok .clamp16 := by decide
theorem test_decode_genRgba8 : decode 0b00000000000000000000000000010000#32 = .ok .genRgba8 := by decide
theorem test_decode_genRgba16 : decode 0b00000000000000000000000100010000#32 = .ok .genRgba16 := by decide
theorem test_decode_genGray8 : decode 0b00000000000000000000001000010000#32 = .ok .genGray8 := by decide
theorem test_decode_genGray16 : decode 0b00000000000000000000001100010000#32 = .ok .genGray16 := by decide
theorem test_decode_genYcc8 : decode 0b00000000000000000000010000010000#32 = .ok .genYcc8 := by decide
theorem test_decode_rgba8 : decode 0b00000000000000000000000000100000#32 = .ok .rgba8 := by decide
theorem test_decode_rgba16 : decode 0b00000000000000000000000000100001#32 = .ok .rgba16 := by decide
theorem test_decode_gray8 : decode 0b00000000000000000000000000100010#32 = .ok .gray8 := by decide
theorem test_decode_gray16 : decode 0b00000000000000000000000000100011#32 = .ok .gray16 := by decide
theorem test_decode_ycc8 : decode 0b00000000000000000000000000100100#32 = .ok .ycc8 := by decide
theorem test_decode_nnYcc8 : decode 0b00000000000000000000000000110000#32 = .ok .nnYcc8 := by decide

/-- V24 to V29: the illegal words, each rejected by the name of its reason. -/
theorem test_decode_illegal :
    decode 0x00000000 = .error .undefinedOpcode ∧ decode 0x00000003 = .error .undefinedOpcode ∧
    decode 0x00000011 = .error .undefinedOpcode ∧ decode 0x00000025 = .error .undefinedOpcode ∧
    decode 0x00000031 = .error .undefinedOpcode ∧ decode 0x000000FF = .error .undefinedOpcode ∧
    decode 0x00000510 = .error .reservedSfmt ∧ decode 0x00000120 = .error .formatNBits ∧
    decode 0x00000810 = .error .reservedBits ∧ decode 0x80000020 = .error .reservedBits := by decide

/-- The host's view of the decoder: the word must fit in 32 bits. -/
theorem test_decodeTableWord :
    decodeTableWord 32 0x310 = some .genGray16 ∧ decodeTableWord 32 0x510 = none ∧
    decodeTableWord 64 0x100000001 = none := by decide

/-! ## Helpers: small states -/

/-- Memory with bytes put at ascending addresses. -/
def put : Nat → List Nat → Memory → Memory
  | _, [], m => m
  | a, b :: bs, m => put (a + 1) bs (Memory.write m (BitVec.ofNat 64 a) (BitVec.ofNat 8 b))

/-- A pass of one line over the layout of 95_test_vectors.md: source at 0x1000, destination at 0x2000, coefficients at 0x4000,
offsets at 0x4100. -/
def onePass (src coef offs : List Nat) (srcMax dMax dstStride len : Nat) : State :=
  { State.reset with
    mem := put 0x1000 src (put 0x4000 coef (put 0x4100 offs []))
    rf := { RegFile.reset with
      srcBase := 0x1000, srcMax := BitVec.ofNat 32 srcMax, dstBase := 0x2000, dstStride := BitVec.ofNat 32 dstStride
      dMax := BitVec.ofNat 32 dMax, lines := 1, coefBase := 0x4000, offsBase := 0x4100
      filterLen := BitVec.ofNat 16 len } }

/-- The state with only the given ranges mapped. -/
def mapOnly (rs : List (Nat × Nat)) (s : State) : State :=
  { s with platform := { s.platform with mapped := rs.map fun x => { base := x.1, size := x.2 } } }

/-- The next state of an outcome. -/
def nextOf (o : Host.Outcome State Fault Refusal) (s : State) : State :=
  match o with
  | .next t => t
  | .fault _ => s
  | .refused _ => s

/-- The state after a command. -/
def after (i : Instr) (s : State) : State := nextOf (exec i s) s

/-- The state after a list of host operations on the selected instance. -/
def host (s : State) : List HostOp → State
  | [] => s
  | op :: ops => host (nextOf (hostOp op s) s) ops

/-- `n` bytes of memory from `a`. -/
def bytes (s : State) (a n : Nat) : List Nat :=
  (List.range n).map fun j => (Memory.read s.mem (BitVec.ofNat 64 (a + j))).toNat

/-- STATUS and the `n` destination bytes after a command. -/
def run (i : Instr) (s : State) (n : Nat) : BitVec 32 × List Nat := ((after i s).rf.status, bytes (after i s) 0x2000 n)

/-! ## Registers and clamps (V1 to V23) -/

/-- V2, V3, V4: what the widths keep. -/
theorem test_register_widths :
    (host State.reset [.wr 5 0xFFFFFFFFFFFFFFFF, .rd 5]).rdData = 0x00000000FFFFFFFF#64 ∧
    (host State.reset [.wr 14 0x12345, .rd 14]).rdData = 0x2345#64 ∧
    (host State.reset [.wr 4 0x1FFFFFFFF, .rd 4]).rdData = 0xFFFFFFFF#64 := by decide
/-- V6 to V9: RESULT and ERR_INFO are read-only, index 18 is inert, STATUS is W1C. -/
theorem test_register_access :
    (host State.reset [.wr 17 5, .rd 17]).rdData = 0#64 ∧ (host State.reset [.wr 2 9, .rd 2]).rdData = 0#64 ∧
    (host State.reset [.wr 18 5, .rd 18]).rdData = 0#64 ∧ (host State.reset [.wr 1 3, .rd 1]).rdData = 0#64 := by decide

/-- STATUS and RESULT of a clamp of `v` (R71). -/
def clampRun (i : Instr) (v : BitVec 64) : BitVec 32 × BitVec 16 :=
  let t := after i (host State.reset [.wr 16 v])
  (t.rf.status, t.rf.result)

/-- V10, V11, V12, V15, V21, V22, V23. -/
theorem test_clamp8_vectors :
    [0xFFFFFFFFFFFFFFFF#64, 0x100#64, 0x80#64, 0xFF#64, 0x8000000000000000#64, 0x7FFFFFFFFFFFFFFF#64,
      0x00000000FFFFFFFF#64].map (clampRun .clamp8) =
    [(1, 0), (1, 255), (1, 128), (1, 255), (1, 0), (1, 255), (1, 255)] := by decide
/-- V10, V11, V17, V18, V19, V21, V22, V23. -/
theorem test_clamp16_vectors :
    [0xFFFFFFFFFFFFFFFF#64, 0x100#64, 0x8000#64, 0xFFFF#64, 0x10000#64, 0x8000000000000000#64, 0x7FFFFFFFFFFFFFFF#64,
      0x00000000FFFFFFFF#64].map (clampRun .clamp16) =
    [(1, 0), (1, 256), (1, 32768), (1, 65535), (1, 65535), (1, 0), (1, 65535), (1, 65535)] := by decide
/-- V29a: the 32-bit CMD drops bits 63:32 of the data. -/
theorem test_cmd_drops_high_bits :
    let t := host State.reset [.wr 16 0xFFFFFFFFFFFFFFFF, .wr 0 0x0000000100000001]
    t.rf.cmd = 1#32 ∧ t.rf.status = 1#32 ∧ t.rf.errInfo = 0#64 ∧ t.rf.result = 0#16 := by decide

/-! ## The parts of a pass -/

/-- V30 and V31. -/
theorem test_bidx :
    [-5, -1, 0, 1, 3, 4, 100].map (fun x => bidx x 0 4) = [0, 0, 0, 1, 3, 3, 3] ∧
    [4, 5, 6, 7, 8, 9].map (fun x => bidx x 5 8) = [5, 5, 6, 7, 7, 7] ∧
    bidx (-2147483648) 0 3 = 0 ∧ bidx 2147549181 0 3 = 2 := by decide
/-- The numeric columns of R90, per command: C, SW_src, BPP_src, SW_dst, BPP_dst, CW. -/
theorem test_pass_table :
    [Instr.rgba8, .rgba16, .gray8, .gray16, .ycc8, .nnYcc8, .genRgba8, .genRgba16, .genGray8, .genGray16, .genYcc8].map
      (fun i => (passSpecOf i).map fun ps =>
        [fmtChans ps.dst, fmtSw ps.src, fmtBpp ps.src, fmtSw ps.dst, fmtBpp ps.dst, ps.cw]) =
    [some [4, 1, 4, 1, 4, 2], some [4, 2, 8, 2, 8, 4], some [1, 1, 1, 1, 1, 2], some [1, 2, 2, 2, 2, 4],
      some [3, 1, 3, 1, 3, 2], some [3, 1, 3, 1, 3, 1], some [4, 1, 4, 2, 8, 4], some [4, 2, 8, 2, 8, 4],
      some [4, 1, 1, 2, 8, 4], some [4, 2, 2, 2, 8, 4], some [4, 1, 3, 2, 8, 4]] := by decide
/-- The other columns of R90: coefficient type, accumulator, finish. -/
theorem test_pass_arithmetic :
    [Instr.rgba8, .gray8, .ycc8].map (fun i => (passSpecOf i).map fun ps => (ps.coef, ps.acc, ps.finish)) =
      List.replicate 3 (some (.signed, .signed 32, .clamp8)) ∧
    [Instr.rgba16, .gray16, .genRgba8, .genRgba16, .genGray8, .genGray16, .genYcc8].map
      (fun i => (passSpecOf i).map fun ps => (ps.coef, ps.acc, ps.finish)) =
      List.replicate 7 (some (.signed, .signed 64, .clamp16)) ∧
    (passSpecOf .nnYcc8).map (fun ps => (ps.coef, ps.acc, ps.finish)) = some (.boolean, .binary32, .nearest) := by decide

/-! ## Passes (V33a to V73) -/

/-- V40. -/
theorem test_rgba8_mean : run .rgba8 (onePass [0x0A, 0x14, 0x1E, 0x28, 0x14, 0x28, 0x3C, 0x50] [0, 1, 0, 1] [] 2 1 4 2) 4 =
    (1#32, [0x0F, 0x1E, 0x2D, 0x3C]) := by decide +kernel
/-- V41: lanes are independent, both clamps. -/
theorem test_rgba8_lanes : run .rgba8 (onePass [0x00, 0xFF, 0x64, 0x07, 0xFF, 0x00, 0x65, 0x08] [0xFF, 0xFF, 0, 3] [] 2 1 4 2) 4 =
    (1#32, [0xFF, 0x00, 0x65, 0x08]) := by decide +kernel
/-- V42a: 64-bit sums and both ends of the 16-bit clamp. -/
theorem test_rgba16_wide : run .rgba16 (onePass
    [0xFF, 0xFF, 0, 0, 0x80, 0, 0, 1, 0, 0, 0xFF, 0xFF, 0x80, 0, 0, 3] [0x7F, 0xFF, 0xFF, 0xFF, 0x80, 0, 0, 2] [] 2 1 8 2) 8 =
    (1#32, [0xFF, 0xFF, 0, 0, 0x80, 0, 0, 0]) := by decide +kernel
/-- V33a: a source extent that does not start at 0, and both edges. -/
theorem test_gray8_edges :
    let s := onePass [0x0A, 0x14, 0x1E] [0, 1, 0, 1, 0, 1] [0, 0, 0, 0, 0, 0, 0, 6, 0, 0, 0, 0x64] 8 3 1 1
    run .gray8 { s with rf := { s.rf with srcMin := 5 } } 3 = (1#32, [0x0A, 0x14, 0x1E]) := by decide +kernel
/-- V35: a negative weight sum is no fault. -/
theorem test_gray8_negative_sum : run .gray8 (onePass [3, 4] [0xFF, 0xFF, 0xFF, 0xFF] [] 2 1 1 2) 1 = (1#32, [3]) := by
  decide +kernel
/-- V44a: big-endian samples, the remainder dropped. -/
theorem test_gray16_truncates : run .gray16 (onePass [0x12, 0x34, 0xFF, 0xFE] [0, 0, 0, 1, 0, 0, 0, 3] [] 2 1 2 2) 2 =
    (1#32, [0xC4, 0x8B]) := by decide +kernel
/-- V45. -/
theorem test_ycc8_mean : run .ycc8 (onePass [0x64, 0x80, 0x80, 0x82, 0x80, 0x80, 0x8C, 0x80, 0x80] [0, 1, 0, 2, 0, 1] [] 3 1 3 3) 3 =
    (1#32, [0x7D, 0x80, 0x80]) := by decide +kernel
/-- V60. -/
theorem test_genRgba8_widens : run .genRgba8 (onePass [0x01, 0x80, 0xFF, 0x00] [0, 0, 0, 1] [] 1 1 8 1) 8 =
    (1#32, [0x01, 0x01, 0x80, 0x80, 0xFF, 0xFF, 0x00, 0x00]) := by decide +kernel
/-- V60a. -/
theorem test_genRgba16_keeps : run .genRgba16 (onePass [0x12, 0x34, 0x56, 0x78, 0x9A, 0xBC, 0xDE, 0xF0] [0, 0, 0, 1] [] 1 1 8 1) 8 =
    (1#32, [0x12, 0x34, 0x56, 0x78, 0x9A, 0xBC, 0xDE, 0xF0]) := by decide +kernel
/-- V62. -/
theorem test_genGray8_mean : run .genGray8 (onePass [0x80, 0x40] [0, 0, 0, 3, 0, 0, 0, 1] [] 2 1 8 2) 8 =
    (1#32, [0x70, 0x70, 0x70, 0x70, 0x70, 0x70, 0xFF, 0xFF]) := by decide +kernel
/-- V61. -/
theorem test_genGray16_alpha : run .genGray16 (onePass [0xFF, 0xFF, 0, 1] [0xFF, 0xFF, 0xFF, 0xFF, 0, 0, 0, 3] [] 2 1 8 2) 8 =
    (1#32, [0, 0, 0, 0, 0, 0, 0xFF, 0xFF]) := by decide +kernel
/-- V60d. -/
theorem test_genYcc8_lanes : run .genYcc8 (onePass [0x10, 0x80, 0xF0] [0, 0, 0, 1] [] 1 1 8 1) 8 =
    (1#32, [0x10, 0x10, 0x80, 0x80, 0xF0, 0xF0, 0xFF, 0xFF]) := by decide +kernel
/-- V73: the mean rounded to nearest. -/
theorem test_nnYcc8_rounds : run .nnYcc8 (onePass [1, 2, 3, 1, 2, 4, 2, 2, 4] [1, 1, 1] [] 3 1 3 3) 3 = (1#32, [1, 2, 4]) := by
  decide +kernel
/-- V70: halfway cases up. -/
theorem test_nnYcc8_ties : run .nnYcc8 (onePass [0x0A, 0x64, 0xC8, 0x0B, 0x65, 0xC9] [1, 1] [] 2 1 3 2) 3 =
    (1#32, [0x0B, 0x65, 0xC9]) := by decide +kernel

/-- P7, first pass: two lines, the destination transposed, and the order of the accesses of line 0. -/
theorem test_pass_transposes :
    let s := onePass [1, 2, 3, 4, 5, 6] [0, 1, 0, 1, 0, 1] [0, 0, 0, 0, 0, 0, 0, 1, 0, 0, 0, 2] 3 3 2 1
    let t := after .gray8 { s with rf := { s.rf with lines := 2, srcStride := 3 } }
    bytes t 0x2000 6 = [1, 4, 2, 5, 3, 6] ∧
    t.bus.take 8 = [.rd 0x4100, .rd 0x4101, .rd 0x4102, .rd 0x4103, .rd 0x4000, .rd 0x4001, .rd 0x1000, .wr 0x2000 1] := by
  decide +kernel

/-! ## Faults (V72, V80 to V92) -/

/-- V80 to V82. -/
theorem test_bad_desc :
    let f := fun (a b d : BitVec 32) =>
      let t := after .gray8 { State.reset with rf := { RegFile.reset with srcMin := a, srcMax := b, dMin := d } }
      (t.rf.status, t.rf.errInfo)
    f 0 0 0 = (0x22#32, 1#64) ∧ f 0 1 0xFFFFFFFF = (0x22#32, 2#64) ∧ f 5 5 0xFFFFFFFF = (0x22#32, 1#64) := by decide +kernel
/-- V72: no selected tap. -/
theorem test_div_zero :
    let t := after .nnYcc8 (onePass [0x0A, 0x64, 0xC8] [0, 0] [] 1 1 3 2)
    t.rf.status = 0x32#32 ∧ t.rf.errInfo = 0#64 ∧ bytes t 0x2000 3 = [0, 0, 0] := by decide +kernel
/-- V86: the bytes before the failing destination byte have been written. -/
theorem test_bus_err_write :
    let t := after .rgba8 (mapOnly [(0x1000, 4), (0x2000, 1), (0x4000, 2), (0x4100, 4)]
      (onePass [7, 8, 9, 0xA] [0, 1] [] 1 1 4 1))
    t.rf.status = 0x42#32 ∧ t.rf.errInfo = 0x2001#64 ∧ bytes t 0x2000 2 = [7, 0] := by decide +kernel
/-- V88 and V89: the source pixel of a tap is read only if its coefficient is not zero. -/
theorem test_skip_reads_nothing :
    let s := fun k => mapOnly [(0x1000, 1), (0x2000, 1), (0x4000, 4), (0x4100, 4)] (onePass [0x55] [0, 2, 0, k] [] 2 1 1 2)
    run .gray8 (s 0) 1 = (1#32, [0x55]) ∧ run .gray8 (s 1) 1 = (0x42#32, [0]) ∧
    (after .gray8 (s 1)).rf.errInfo = 0x1001#64 := by decide +kernel
/-- V24, V90, V91, V92: a fault is latched, commands are ignored, registers still take writes, bit 1 alone clears. -/
theorem test_fault_state :
    let t := host State.reset [.wr 0 0x11, .wr 0 1, .wr 10 1]
    (t.rf.status, t.rf.errInfo, t.rf.cmd, t.rf.dMax) = (0x12#32, 0x11#64, 0x11#32, 1#32) ∧
    (host t [.wr 1 1]).rf = t.rf ∧ (host t [.wr 1 2]).rf.status = 0#32 ∧ (host t [.wr 1 2]).rf.errInfo = 0#64 ∧
    (host t [.wr 1 2]).rf.cmd = 0x11#32 := by decide +kernel

/-- Two instances: a request selects its instance, and each keeps its own registers (R38). -/
theorem test_instances :
    let s := { State.reset with
      platform := { Platform.reset with numInst := 2 }
      pending := [⟨0, .wr 16 7⟩, ⟨1, .wr 16 9⟩, ⟨1, .wr 0 1⟩, ⟨0, .rd 17⟩, ⟨1, .rd 17⟩] }
    let t := nextOf (Sys2Proof.core.run 4 s) s
    t.rdData = 0#64 ∧ (nextOf (Sys2Proof.core.run 5 s) s).rdData = 9#64 ∧ t.sel = 0 ∧ t.rf.opa = 7#64 := by decide +kernel

/-- From reset the very next step runs the word placed (R61, R192). -/
theorem test_withFetchWord :
    (nextOf (step (State.reset.withFetchWord 32 0x22)) State.reset).rf.status = 0x22#32 ∧
    (nextOf (step (State.reset.withFetchWord 32 1)) State.reset).rf.status = 1#32 := by decide +kernel

/-! ## Witnesses: a state that meets the hypotheses of each statement that has some -/

-- Deciding that a pass is ready is one large instance.
set_option synthInstance.maxSize 2000

/-- A fault latched: the reset state after an illegal word. -/
def faulted : State := host State.reset [.wr 0 0x11]

/-- Two instances, the second selected, the first parked with a latched fault, a request for the first. -/
def twoInstances : State :=
  { State.reset with
    platform := { Platform.reset with numInst := 2 }
    rf := { RegFile.reset with opa := 300 }
    sel := 1
    parked := [(0, faulted.rf)]
    mem := [(0x1000, 7)]
    pending := [⟨0, .rd 2⟩] }

theorem witness_StepKeepsTheStateLegal :
    Inv twoInstances ∧ step twoInstances = .next (nextOf (step twoInstances) twoInstances) := ⟨by decide +kernel, rfl⟩

theorem witness_StepRunsTheDecodedCommand_request :
    let s := { twoInstances with pending := [⟨1, .wr 0 0xFFFFFFFF00000001⟩] }
    s.pending = { inst := 1, op := .wr 0 0xFFFFFFFF00000001 } :: [] ∧ 1 < s.platform.numInst ∧
    decode ((0xFFFFFFFF00000001#64 : HostWord).setWidth 32) = .ok .clamp8 := by decide +kernel

theorem witness_StepRunsTheDecodedCommand_fetch :
    State.reset.sel < State.reset.platform.numInst ∧ decode 0x00000410 = .ok .genYcc8 := by decide +kernel

theorem witness_IdleWithoutARequest : State.reset.pending = [] := rfl

theorem witness_IllegalWordFaults :
    statusErr State.reset.rf.status = false ∧ ∃ r, decode ((0x510#64 : HostWord).setWidth 32) = .error r :=
  ⟨by decide, .reservedSfmt, by decide⟩

theorem witness_CommandIgnoredWhileAFaultIsLatched : statusErr faulted.rf.status = true := by decide +kernel

theorem witness_StatusWriteLeavesTheFaultState_clears :
    (2#64 : HostWord).getLsbD 1 = true ∧ statusErr faulted.rf.status = true := by decide +kernel

theorem witness_StatusWriteLeavesTheFaultState_keeps :
    ¬ ((1#64 : HostWord).getLsbD 1 = true ∧ statusErr faulted.rf.status = true) ∧
    ¬ ((2#64 : HostWord).getLsbD 1 = true ∧ statusErr State.reset.rf.status = true) := by decide +kernel

/-- Read-only 2 and 17, RW 3 and 16, undefined 18. -/
theorem witness_RegisterWriteThenRead :
    (2 ≤ 2 ∧ ¬ RegIsRW 2) ∧ (2 ≤ 3 ∧ RegIsRW 3) ∧ (2 ≤ 16 ∧ RegIsRW 16) ∧ (2 ≤ 17 ∧ ¬ RegIsRW 17) ∧
    (2 ≤ 18 ∧ ¬ RegIsRW 18) := by decide

theorem witness_RegisterReadZeroExtends : (0 ≤ 17) ∧ (17 ≤ 17) := by decide

theorem witness_UndefinedIndicesAreInert : 17 < 18 := by decide

/-- The last register a bus access can reach; a narrow, a wide, a misaligned access; the last byte address below the base. -/
theorem witness_OnlyWholeRegisterAccessesAreDefined :
    let s := { State.reset with platform := { Platform.reset with rszBase := 0x1000 } }
    let stops := fun (addr : BitVec 64) (size : Nat) =>
      size ≠ 8 ∨ addr.toNat < s.platform.rszBase.toNat ∨ ¬ (8 ∣ addr.toNat - s.platform.rszBase.toNat)
    s.platform.rszBase.toNat + 8 * (2 ^ 61 - 0x201) < 2 ^ 64 ∧
    stops 0x1010 4 ∧ stops 0x1010 16 ∧ stops 0x1011 8 ∧ stops 0x0FFF 8 ∧ stops 0x0FF8 8 := by decide

/-- A pixel of the largest samples, of one format with 8-bit and one with 16-bit samples. -/
theorem witness_UnpackWidensToFourLanes :
    ([255, 255, 255].length = fmtChans .ycc8 ∧ ∀ x ∈ [255, 255, 255], x < 256 ^ fmtSw .ycc8) ∧
    ([65535].length = fmtChans .gray16 ∧ ∀ x ∈ [65535], x < 256 ^ fmtSw .gray16) := by decide

/-- For both clamp statements. -/
theorem witness_ClampStoresTheClampedOperand : statusErr State.reset.rf.status = false := by decide

/-- Each clause of the boundary policy, where the clauses meet. -/
theorem witness_BoundaryIndexReplicatesEdges :
    ((5 : Int) < 8) ∧ ((5 : Int) ≤ 5 ∧ (5 : Int) < 8) ∧ ((5 : Int) ≤ 7 ∧ (7 : Int) < 8) ∧ ((8 : Int) ≤ 8) ∧ ((4 : Int) < 5) := by
  decide

theorem witness_AccumulatorHeadroom_64 :
    (List.replicate 65535 ((-(2 ^ 31), 65535) : Int × Nat)).length ≤ 65535 ∧
    ∀ kv ∈ List.replicate 65535 ((-(2 ^ 31), 65535) : Int × Nat), -(2 ^ 31) ≤ kv.1 ∧ kv.1 < 2 ^ 31 ∧ kv.2 ≤ 65535 := by
  refine ⟨by rw [List.length_replicate], fun kv h => ?_⟩
  rw [List.eq_of_mem_replicate h]
  decide

theorem witness_AccumulatorHeadroom_32 :
    (List.replicate 257 ((-(2 ^ 15), 255) : Int × Nat)).length ≤ 257 ∧
    ∀ kv ∈ List.replicate 257 ((-(2 ^ 15), 255) : Int × Nat), -(2 ^ 15) ≤ kv.1 ∧ kv.1 < 2 ^ 15 ∧ kv.2 ≤ 255 := by
  refine ⟨by rw [List.length_replicate], fun kv h => ?_⟩
  rw [List.eq_of_mem_replicate h]
  decide

/-- The quotient that wraps, and one that does not. -/
theorem witness_DivisionTruncatesAndOneQuotientWraps :
    ((0 < 32) ∧ (-1 : Int) ≠ 0 ∧ -(2 ^ (32 - 1)) ≤ (-(2 ^ 31) : Int) ∧ (-(2 ^ 31) : Int) < 2 ^ (32 - 1) ∧
      -(2 ^ (32 - 1)) ≤ (-1 : Int) ∧ (-1 : Int) < 2 ^ (32 - 1)) ∧
    ((0 < 1) ∧ (-1 : Int) ≠ 0 ∧ -(2 ^ (1 - 1)) ≤ (0 : Int) ∧ (0 : Int) < 2 ^ (1 - 1) ∧
      -(2 ^ (1 - 1)) ≤ (-1 : Int) ∧ (-1 : Int) < 2 ^ (1 - 1)) := by decide

theorem witness_NearestRoundingTable : 0 < 1 := by decide

theorem witness_NearestRoundingIsTheBinary32Computation :
    (1 ≤ 1 ∧ 1 ≤ 65535 ∧ 0 ≤ 255 * 1) ∧ (1 ≤ 65535 ∧ 65535 ≤ 65535 ∧ 16711425 ≤ 255 * 65535) := by decide

/-- Eight bytes across the top of the address space. -/
theorem witness_PortReadsBackWhatItWrote :
    let P := passPort (fixed8Spec .gray8) State.reset
    8 ≤ 8 ∧ 256 ^ 8 - 1 < 256 ^ 8 ∧ Memory.wf (startEngine State.reset).mem ∧ Readable P 8 0xFFFFFFFFFFFFFFFC := by
  decide +kernel

/-- Check 1 fails; check 2 alone fails; both pass. -/
theorem witness_DescriptorChecks :
    let s := fun (a b d : BitVec 32) => { State.reset with rf := { RegFile.reset with srcMin := a, srcMax := b, dMin := d } }
    passSpecOf .gray8 = some (fixed8Spec .gray8) ∧ statusErr State.reset.rf.status = false ∧
    (1 = 1 ∧ ¬ (s 5 5 0).rf.srcMin.toInt < (s 5 5 0).rf.srcMax.toInt) ∧
    (2 = 2 ∧ (s 0xFFFFFFFE 0xFFFFFFFF 0xFFFFFFFF).rf.srcMin.toInt < (s 0xFFFFFFFE 0xFFFFFFFF 0xFFFFFFFF).rf.srcMax.toInt ∧
      (s 0xFFFFFFFE 0xFFFFFFFF 0xFFFFFFFF).rf.dMin.toInt < 0) ∧
    ((s 0 1 0).rf.srcMin.toInt < (s 0 1 0).rf.srcMax.toInt ∧ 0 ≤ (s 0 1 0).rf.dMin.toInt ∧ StatusLegal (s 0 1 0).rf ∧
      exec .gray8 (s 0 1 0) = .next (after .gray8 (s 0 1 0))) :=
  ⟨by decide, by decide, by decide, by decide, by decide, by decide, by decide, rfl⟩

/-- V83 and V84: no lines; no destination coordinates. -/
theorem witness_EmptyPassCompletes :
    let s := fun (n d e : BitVec 32) =>
      { State.reset with rf := { RegFile.reset with srcMin := 0xFFFFFFFE, srcMax := 0xFFFFFFFF, lines := n, dMin := d, dMax := e } }
    (passSpecOf .nnYcc8 = some nearestSpec ∧ PassAccepted (s 0 0 9) ∧ (s 0 0 9).rf.lines = 0#32) ∧
    (passSpecOf .nnYcc8 = some nearestSpec ∧ PassAccepted (s 5 3 3) ∧ (s 5 3 3).rf.dMax.toInt ≤ (s 5 3 3).rf.dMin.toInt) := by
  decide

/-- The eleven passes. -/
def passes : List (Instr × PassSpec) :=
  [(.genRgba8, genSpec .rgba8), (.genRgba16, genSpec .rgba16), (.genGray8, genSpec .gray8), (.genGray16, genSpec .gray16),
    (.genYcc8, genSpec .ycc8), (.rgba8, fixed8Spec .rgba8), (.rgba16, fixed16Spec .rgba16), (.gray8, fixed8Spec .gray8),
    (.gray16, fixed16Spec .gray16), (.ycc8, fixed8Spec .ycc8), (.nnYcc8, nearestSpec)]

/-- A pass of two lines and two destination coordinates with one tap of coefficient 1, ready to run. -/
def readyState (ps : PassSpec) : State :=
  let row := List.replicate (ps.cw - 1) 0 ++ [1]
  let s := onePass [9, 8, 7, 6] (row ++ row) [] 1 2 16 1
  { s with rf := { s.rf with lines := 2, srcStride := 16 } }

/-- For ReadyPassMakesItsAccessesInOrder, ReadyPassStoresEveryPixelValue, SplitPassLeavesTheSameMemory (all, one and none of the
lines in the first part) and, with the outcome, PassWritesOnlyItsDestination, PassEndsDoneOrFaulted and
MemoryIsTheRecordedWritesAndAllMapped: every pass command has a ready state. -/
theorem witness_ReadyPass :
    ∀ p ∈ passes, passSpecOf p.1 = some p.2 ∧ PassReady p.2 (readyState p.2) ∧
      DestinationsDisjoint p.2 (readyState p.2).rf.desc ∧ Memory.wf (readyState p.2).mem ∧
      StatusLegal (readyState p.2).rf ∧ 0 ≤ (readyState p.2).rf.lines.toNat ∧ 1 ≤ (readyState p.2).rf.lines.toNat ∧
      2 ≤ (readyState p.2).rf.lines.toNat := by decide +kernel

theorem witness_PassOutcome :
    passSpecOf .ycc8 = some (fixed8Spec .ycc8) ∧ statusErr (readyState (fixed8Spec .ycc8)).rf.status = false ∧
    StatusLegal (readyState (fixed8Spec .ycc8)).rf ∧ statusCause (readyState (fixed8Spec .ycc8)).rf.status = 0#4 ∧
    exec .ycc8 (readyState (fixed8Spec .ycc8)) = .next (after .ycc8 (readyState (fixed8Spec .ycc8))) :=
  ⟨by decide, by decide +kernel, by decide +kernel, by decide +kernel, rfl⟩

/-- V85. -/
theorem witness_FirstOffsetEntryUnmapped :
    let s := mapOnly [(0x1000, 4), (0x2000, 4), (0x4000, 4)] (readyState (fixed8Spec .gray8))
    passSpecOf .gray8 = some (fixed8Spec .gray8) ∧ PassAccepted s ∧ 0 < s.rf.desc.lines ∧ 0 < s.rf.desc.dests ∧
    s.platform.isMapped (offsAddr s.rf.desc s.rf.desc.firstDest) = false := by decide +kernel

/-- V87. -/
theorem witness_ZeroFilterLengthDividesByZero :
    let s := onePass [1] [] [] 1 1 1 0
    passSpecOf .gray8 = some (fixed8Spec .gray8) ∧ PassAccepted s ∧ 0 < s.rf.desc.lines ∧ 0 < s.rf.desc.dests ∧
    s.rf.filterLen = 0#16 ∧ Readable (passPort (fixed8Spec .gray8) s) 4 (offsAddr s.rf.desc s.rf.desc.firstDest) := by
  decide +kernel

/-- P6: the row of coordinate 1 cancels, the pixel before it is ready. -/
theorem witness_DivZeroIsPrecise :
    let ps := fixed8Spec .gray8
    let s := onePass [1, 2, 3, 4] [0, 1, 0, 1, 0, 1, 0xFF, 0xFF] [0, 0, 0, 0, 0, 0, 0, 1] 4 3 1 2
    passSpecOf .gray8 = some ps ∧ PassAccepted s ∧ 0 < s.rf.desc.lines ∧ 1 < s.rf.desc.dests ∧
    (∀ r' < s.rf.desc.lines, ∀ j' < s.rf.desc.dests, Precedes r' j' 0 1 →
      PixelReady ps (passPort ps s) s.mem s.rf.desc r' (s.rf.desc.firstDest + j')) ∧
    PixelReadable ps (passPort ps s) s.mem s.rf.desc 0 (s.rf.desc.firstDest + 1) ∧
    accWrap ps.acc (weightSum ps s.mem s.rf.desc (s.rf.desc.firstDest + 1)) = 0 := by decide +kernel

/-- V89 with three bytes per pixel: the third byte of the source pixel of the second tap of the second destination pixel. -/
theorem witness_SourceBusErrorIsPrecise :
    let ps := fixed8Spec .ycc8
    let s := mapOnly [(0x1000, 5), (0x2000, 16), (0x4000, 8), (0x4100, 8)]
      (onePass [1, 2, 3, 4, 5] [0, 1, 0, 0, 0, 0, 0, 1] [] 2 2 3 2)
    passSpecOf .ycc8 = some ps ∧ PassAccepted s ∧ 0 < s.rf.desc.lines ∧ 1 < s.rf.desc.dests ∧ 1 < s.rf.desc.taps ∧
    2 < fmtBpp ps.src ∧ PixelsBeforeReady ps s 0 1 ∧
    Readable (passPort ps s) 4 (offsAddr s.rf.desc (s.rf.desc.firstDest + 1)) ∧
    (∀ k' < 1, TapReadable ps (passPort ps s) s.mem s.rf.desc 0 (s.rf.desc.firstDest + 1) k') ∧
    Readable (passPort ps s) ps.cw (coefAddr s.rf.desc ps.cw (s.rf.desc.firstDest + 1) 1) ∧
    coefOf ps s.mem s.rf.desc (s.rf.desc.firstDest + 1) 1 ≠ 0 ∧
    Readable (passPort ps s) 2 (srcAddr s.rf.desc (fmtBpp ps.src) 0 (coordOf s.mem s.rf.desc (s.rf.desc.firstDest + 1) 1)) ∧
    s.platform.isMapped (srcAddr s.rf.desc (fmtBpp ps.src) 0 (coordOf s.mem s.rf.desc (s.rf.desc.firstDest + 1) 1) +
      BitVec.ofNat 64 2) = false := by decide +kernel

/-- The last byte of the offset entry of the second destination pixel, and the first byte of that of the first. -/
theorem witness_OffsetBusErrorIsPrecise :
    let ps := fixed8Spec .gray8
    let s := fun n => mapOnly [(0x1000, 1), (0x2000, 2), (0x4000, 4), (0x4100, n)] (onePass [1] [0, 1, 0, 1] [] 1 2 1 1)
    (passSpecOf .gray8 = some ps ∧ PassAccepted (s 7) ∧ 0 < (s 7).rf.desc.lines ∧ 1 < (s 7).rf.desc.dests ∧ 3 < 4 ∧
      PixelsBeforeReady ps (s 7) 0 1 ∧
      Readable (passPort ps (s 7)) 3 (offsAddr (s 7).rf.desc ((s 7).rf.desc.firstDest + 1)) ∧
      (s 7).platform.isMapped (offsAddr (s 7).rf.desc ((s 7).rf.desc.firstDest + 1) + BitVec.ofNat 64 3) = false) ∧
    (PassAccepted (s 0) ∧ 0 < (s 0).rf.desc.dests ∧ 0 < 4 ∧ PixelsBeforeReady ps (s 0) 0 0 ∧
      Readable (passPort ps (s 0)) 0 (offsAddr (s 0).rf.desc ((s 0).rf.desc.firstDest + 0)) ∧
      (s 0).platform.isMapped (offsAddr (s 0).rf.desc ((s 0).rf.desc.firstDest + 0) + BitVec.ofNat 64 0) = false) := by
  decide +kernel

/-- The last byte of the second coefficient of the second destination pixel. -/
theorem witness_CoefficientBusErrorIsPrecise :
    let ps := fixed8Spec .gray8
    let s := mapOnly [(0x1000, 2), (0x2000, 2), (0x4000, 7), (0x4100, 8)] (onePass [1, 2] [0, 1, 0, 1, 0, 1, 0, 1] [] 2 2 1 2)
    passSpecOf .gray8 = some ps ∧ PassAccepted s ∧ 0 < s.rf.desc.lines ∧ 1 < s.rf.desc.dests ∧ 1 < s.rf.desc.taps ∧
    1 < ps.cw ∧ PixelsBeforeReady ps s 0 1 ∧
    Readable (passPort ps s) 4 (offsAddr s.rf.desc (s.rf.desc.firstDest + 1)) ∧
    (∀ k' < 1, TapReadable ps (passPort ps s) s.mem s.rf.desc 0 (s.rf.desc.firstDest + 1) k') ∧
    Readable (passPort ps s) 1 (coefAddr s.rf.desc ps.cw (s.rf.desc.firstDest + 1) 1) ∧
    s.platform.isMapped (coefAddr s.rf.desc ps.cw (s.rf.desc.firstDest + 1) 1 + BitVec.ofNat 64 1) = false := by
  decide +kernel

/-- V86: the second byte of the second destination pixel is unmapped. -/
theorem witness_DestinationBusErrorIsPrecise :
    let ps := fixed8Spec .rgba8
    let s := mapOnly [(0x1000, 4), (0x2000, 4), (0x2010, 1), (0x4000, 4), (0x4100, 8)] (readyState ps)
    passSpecOf .rgba8 = some ps ∧ PassAccepted s ∧ 0 < s.rf.desc.lines ∧ 1 < s.rf.desc.dests ∧ 1 < fmtBpp ps.dst ∧
    (∀ r' < s.rf.desc.lines, ∀ j' < s.rf.desc.dests, Precedes r' j' 0 1 →
      PixelReady ps (passPort ps s) s.mem s.rf.desc r' (s.rf.desc.firstDest + j')) ∧
    PixelReadable ps (passPort ps s) s.mem s.rf.desc 0 (s.rf.desc.firstDest + 1) ∧
    accWrap ps.acc (weightSum ps s.mem s.rf.desc (s.rf.desc.firstDest + 1)) ≠ 0 ∧
    Writable (passPort ps s) 1 (dstAddr s.rf.desc (fmtBpp ps.dst) 0 (s.rf.desc.firstDest + 1)) ∧
    s.platform.isMapped (dstAddr s.rf.desc (fmtBpp ps.dst) 0 (s.rf.desc.firstDest + 1) + BitVec.ofNat 64 1) = false := by
  decide +kernel

/-- Two taps of one value, coefficients -2 and 1: a negative weight sum. -/
theorem witness_ConstantWindowIsReproduced :
    let ps := fixed16Spec .gray16
    let s := onePass [0x12, 0x34, 0x12, 0x34] [0xFF, 0xFF, 0xFF, 0xFE, 0, 0, 0, 1] [] 2 1 2 2
    passSpecOf .gray16 = some ps ∧ Instr.gray16 ≠ .nnYcc8 ∧ PassReady ps s ∧ DestinationsDisjoint ps s.rf.desc ∧
    Memory.wf s.mem ∧ 0 < s.rf.desc.lines ∧ 0 < s.rf.desc.dests ∧ 0 < fmtChans ps.dst ∧
    (∀ k < s.rf.desc.taps, coefOf ps s.mem s.rf.desc (s.rf.desc.firstDest + 0) k ≠ 0 →
      (samplesOf ps s.mem s.rf.desc 0 (coordOf s.mem s.rf.desc (s.rf.desc.firstDest + 0) k)).getD 0 0 = 0x1234) ∧
    accWrap ps.acc (weightSum ps s.mem s.rf.desc (s.rf.desc.firstDest + 0)) =
      weightSum ps s.mem s.rf.desc (s.rf.desc.firstDest + 0) ∧
    accWrap ps.acc ((0x1234 : Nat) * weightSum ps s.mem s.rf.desc (s.rf.desc.firstDest + 0)) =
      (0x1234 : Nat) * weightSum ps s.mem s.rf.desc (s.rf.desc.firstDest + 0) := by decide +kernel

/-- All three formats without alpha. -/
theorem witness_AlphaOfAlphaLessSourcesIsOpaque :
    ∀ p ∈ [(PixFmt.gray8, Instr.genGray8), (.gray16, .genGray16), (.ycc8, .genYcc8)],
      (p.1, p.2) ∈ [(PixFmt.gray8, Instr.genGray8), (.gray16, .genGray16), (.ycc8, .genYcc8)] ∧
      PassReady (genSpec p.1) (readyState (genSpec p.1)) ∧
      DestinationsDisjoint (genSpec p.1) (readyState (genSpec p.1)).rf.desc ∧ Memory.wf (readyState (genSpec p.1)).mem := by
  decide +kernel

/-- V71: the second of two taps selected, by a byte that is not 1. -/
theorem witness_NearestSingleTapReproducesItsPixel :
    let s := onePass [0x0A, 0x64, 0xC8, 0x0B, 0x65, 0xC9] [0, 0x80] [] 2 1 3 2
    PassReady nearestSpec s ∧ DestinationsDisjoint nearestSpec s.rf.desc ∧ Memory.wf s.mem ∧
    0 < s.rf.desc.lines ∧ 0 < s.rf.desc.dests ∧ 1 < s.rf.desc.taps ∧
    coefOf nearestSpec s.mem s.rf.desc (s.rf.desc.firstDest + 0) 1 ≠ 0 ∧
    (∀ k' < s.rf.desc.taps, k' ≠ 1 → coefOf nearestSpec s.mem s.rf.desc (s.rf.desc.firstDest + 0) k' = 0) := by
  decide +kernel

/-- Two states with one descriptor and other registers, accumulators, instances and requests. -/
theorem witness_NoHiddenStateInfluencesAPass :
    let s1 := readyState (fixed8Spec .gray8)
    let s2 := { s1 with
      rf := { s1.rf with cmd := 5, scale := 6, opa := 7, result := 8, acc := [1, 2, 3, 4], wsum := 9 }
      rdData := 1
      pending := [⟨0, .reset⟩]
      platform := { s1.platform with numInst := 3 } }
    passSpecOf .gray8 = some (fixed8Spec .gray8) ∧ s1.rf.desc = s2.rf.desc ∧ s1.rf.status = s2.rf.status ∧
    s1.mem = s2.mem ∧ s1.platform.mapped = s2.platform.mapped ∧ s1.draws = s2.draws ∧
    exec .gray8 s1 = .next (after .gray8 s1) ∧ exec .gray8 s2 = .next (after .gray8 s2) ∧
    statusErr s1.rf.status = false := ⟨by decide, rfl, rfl, rfl, rfl, rfl, rfl, rfl, by decide +kernel⟩

theorem witness_ScaleInfluencesNothing :
    exec .rgba16 (readyState (fixed16Spec .rgba16)) = .next (after .rgba16 (readyState (fixed16Spec .rgba16))) := rfl

theorem witness_CommandsInTheResetState :
    (∀ p ∈ passes, passSpecOf p.1 ≠ none) ∧ passSpecOf .clamp8 = none ∧ passSpecOf .clamp16 = none := by decide

/-- The host reads an unmapped byte; a request to no instance; a narrow register access. -/
theorem witness_StepStopsOnlyForTheHost :
    let s := fun q => { mapOnly [(0, 16)] State.reset with pending := [q] }
    step (s ⟨0, .memRd 16⟩) = .fault (.hostUnmapped 16) ∧ step (s ⟨0, .memWr 16 1⟩) = .fault (.hostUnmapped 16) ∧
    step (s ⟨1, .rd 0⟩) = .refused .noSuchInstance ∧ step (s ⟨0, .busRd 8 4⟩) = .refused .hostAccessUndefined ∧
    step (s ⟨0, .busWr 9 8 0⟩) = .refused .hostAccessUndefined := ⟨rfl, rfl, rfl, rfl, rfl⟩

/-- The instance selected until now, and one that was parked. -/
theorem witness_InstancesShareNoRegister :
    Inv twoInstances ∧ twoInstances.pending = ⟨0, .rd 2⟩ :: [] ∧ 1 ≠ (⟨0, .rd 2⟩ : HostReq).inst ∧
    step twoInstances = .next (nextOf (step twoInstances) twoInstances) :=
  ⟨by decide +kernel, rfl, by decide, rfl⟩

theorem witness_PlatformNeverChanges : step twoInstances = .next (nextOf (step twoInstances) twoInstances) := rfl

theorem witness_ResetDuringACommandLeavesAPrefix : statusErr (readyState (fixed8Spec .gray8)).rf.status = false := by
  decide +kernel

theorem witness_HostMemoryAccess :
    let s := mapOnly [(0, 16)] State.reset
    (s.platform.isMapped 15 = true ∧ Memory.wf s.mem) ∧ s.platform.isMapped 16 = false := by decide +kernel

end Sys2Proof.Tests
end

section
/-! The statements about the state (10_state): the rules of register reads and writes, what a command, a host operation and a
step can do, and the proofs that use them. -/

namespace Sys2Proof.Machine

/-! ## Register reads and writes (R10 to R13) -/

theorem readReg_of_gt (rf : RegFile) {i : Nat} (h : 17 < i) : readReg rf i = 0#64 := by
  obtain ⟨k, rfl⟩ := Nat.exists_eq_add_of_le' (show 18 ≤ i from h)
  rfl

/-- `ERR_INFO`, `RESULT` and the indices above 17 keep everything (R11, R13). -/
theorem writeReg_of_not_rw (rf : RegFile) {i : Nat} (v : HostWord) (hi : 2 ≤ i) (h : ¬ RegIsRW i) :
    writeReg rf i v = rf := by
  have hcases : i = 2 ∨ 17 ≤ i := by omega
  rcases hcases with rfl | h17
  · rfl
  · obtain ⟨k, rfl⟩ := Nat.exists_eq_add_of_le' h17
    rfl

theorem readReg_writeReg_same (rf : RegFile) {i : Nat} (v : HostWord) (h : RegIsRW i) :
    (readReg (writeReg rf i v) i).toNat = v.toNat % 2 ^ regWidth i := by
  have hv := v.isLt
  obtain ⟨h3, h16⟩ := h
  interval_cases i <;> simp [readReg, writeReg, regWidth] <;> omega

theorem readReg_writeReg_ne (rf : RegFile) {i j : Nat} (v : HostWord) (hi : 2 ≤ i) (hj : j ≠ i) :
    readReg (writeReg rf i v) j = readReg rf j := by
  by_cases h : RegIsRW i
  · obtain ⟨h3, h16⟩ := h
    interval_cases i <;> unfold readReg writeReg <;> split <;> trivial
  · rw [writeReg_of_not_rw rf v hi h]

/-- A register write touches neither the sequencer nor the accumulators (R32, R33). -/
theorem writeReg_hidden (rf : RegFile) (i : Nat) (v : HostWord) :
    (writeReg rf i v).seq = rf.seq ∧ (writeReg rf i v).acc = rf.acc ∧ (writeReg rf i v).wsum = rf.wsum := by
  unfold writeReg
  split
  · unfold writeStatus; split <;> exact ⟨rfl, rfl, rfl⟩
  all_goals exact ⟨rfl, rfl, rfl⟩

@[simp] theorem readReg_reset (i : Nat) : readReg RegFile.reset i = 0#64 := by
  unfold readReg; split <;> rfl

theorem readReg_lt (rf : RegFile) (i : Nat) : (readReg rf i).toNat < 2 ^ regWidth i := by
  unfold readReg regWidth
  split <;> simp <;> omega

/-- A write of any register but `CMD` is the write of R11 on the selected register file. -/
theorem hostOp_wr_of_ne_zero (s : State) {i : Nat} (v : HostWord) (h : i ≠ 0) :
    hostOp (.wr i v) s = .next { s with rf := writeReg s.rf i v } := by
  simp [hostOp, hostWrite, h]

end Sys2Proof.Machine
end

section
/-! What a command, a host operation and a step can do, each said once; the invariant and the separation of the register files
follow by cases. -/

namespace Sys2Proof.Machine

/-! ## Commands (R61) -/

/-- The bodies, steps (3) and (4) of R61, that a write of `CMD` can run. -/
inductive IsCommandBody : (State → CmdEnd) → Prop where
  | clamp (f : Int → Nat) : IsCommandBody (clampBody f)
  | pass (ps : PassSpec) : IsCommandBody (passBody ps)
  | illegal (w : CmdWord) : IsCommandBody fun s => .faulted .illegalCmd (w.setWidth 64) s

/-- Every command runs one body, the same in every state. -/
theorem exec_command (i : Instr) :
    ∃ body, IsCommandBody body ∧ ∀ s, exec i s = .next (runCommand (encode i) body s) := by
  cases h : passSpecOf i with
  | some ps => exact ⟨passBody ps, .pass ps, exec_pass h⟩
  | none =>
    cases i with
    | clamp8 => exact ⟨_, .clamp clamp8, fun _ => rfl⟩
    | clamp16 => exact ⟨_, .clamp clamp16, fun _ => rfl⟩
    | _ => simp [passSpecOf] at h

/-- A write of `CMD` runs one body, whether its word is legal or not (R61, R66). -/
theorem hostWriteCmd_command (v : HostWord) :
    ∃ w body, IsCommandBody body ∧ ∀ s, hostWriteCmd v s = .next (runCommand w body s) := by
  unfold hostWriteCmd
  cases decode (v.setWidth 32) with
  | ok i =>
    obtain ⟨body, hb, he⟩ := exec_command i
    exact ⟨encode i, body, hb, he⟩
  | error _ => exact ⟨v.setWidth 32, _, .illegal (v.setWidth 32), fun _ => rfl⟩

/-- The state in which the body of a command ends, however it ends. -/
def CmdEnd.state : CmdEnd → State
  | .done s => s
  | .faulted _ _ s => s

@[simp] theorem CmdEnd.state_done (s : State) : (CmdEnd.done s).state = s := rfl
@[simp] theorem CmdEnd.state_faulted (c : Cause) (info : BitVec 64) (s : State) :
    (CmdEnd.faulted c info s).state = s := rfl

/-- The number of the selected register file, the parked ones and the platform are the same. -/
structure KeepsOthers (s t : State) : Prop where
  sel : t.sel = s.sel
  parked : t.parked = s.parked
  platform : t.platform = s.platform

theorem KeepsOthers.refl (s : State) : KeepsOthers s s := ⟨rfl, rfl, rfl⟩

/-- What the body of a command keeps: the other register files, STATUS and ERR_INFO (written by the end of the command only,
R61, R166), the form of memory, an idle sequencer and the number of accumulators. -/
structure BodyFrame (s t : State) : Prop where
  others : KeepsOthers s t
  status : t.rf.status = s.rf.status
  errInfo : t.rf.errInfo = s.rf.errInfo
  mem : Memory.wf s.mem → Memory.wf t.mem
  seq : s.rf.seq = none → t.rf.seq = none
  acc : s.rf.acc.length = 4 → t.rf.acc.length = 4

theorem BodyFrame.refl (s : State) : BodyFrame s s := ⟨.refl s, rfl, rfl, id, id, id⟩

/-- The end of a pass whose listing ran as `r`: the engine it left is committed, however it ended. -/
def Run.commit (s : State) : Run Unit → CmdEnd
  | .ok _ e => .done (commitEngine s e)
  | .fault c info e => .faulted c info (commitEngine s e)

@[simp] theorem Run.commit_state (s : State) (r : Run Unit) : (r.commit s).state = commitEngine s r.engine := by
  cases r <;> rfl

theorem passBody_of_check_failed {ps : PassSpec} {s : State} {n : Nat} (h : failingCheck s.rf.desc = some n) :
    passBody ps s = .faulted .badDesc (BitVec.ofNat 64 n) s := by
  rw [passBody, h]

theorem passBody_of_checks_passed {ps : PassSpec} {s : State} (h : failingCheck s.rf.desc = none) :
    passBody ps s = (passLines ps (passPort ps s) s.rf.desc (startEngine s)).commit s := by
  rw [passBody, h]
  cases passLines ps (passPort ps s) s.rf.desc (startEngine s) <;> rfl

theorem passBody_frame (ps : PassSpec) (s : State) : BodyFrame s (passBody ps s).state := by
  cases hc : failingCheck s.rf.desc with
  | some n => rw [passBody_of_check_failed hc]; exact .refl s
  | none =>
    rw [passBody_of_checks_passed hc, Run.commit_state]
    refine ⟨⟨rfl, rfl, rfl⟩, rfl, rfl, fun hm => ?_, fun _ => rfl, passLines_acc_length ps _ _ (startEngine s)⟩
    obtain ⟨l, -, hl, -, -⟩ := passLines_extends ps (passPort ps s) s.rf.desc (startEngine s)
    rw [commitEngine_mem, hl]
    exact applyWrites_wf hm l

theorem IsCommandBody.frame {body : State → CmdEnd} (hb : IsCommandBody body) (s : State) :
    BodyFrame s (body s).state := by
  cases hb with
  | clamp f => exact ⟨⟨rfl, rfl, rfl⟩, rfl, rfl, id, id, id⟩
  | pass ps => exact passBody_frame ps s
  | illegal w => exact .refl s

theorem runCommand_keepsOthers {body : State → CmdEnd} (hb : IsCommandBody body) (w : CmdWord) (s : State) :
    KeepsOthers s (runCommand w body s) := by
  cases he : statusErr s.rf.status with
  | true => rw [runCommand_of_err he]; exact .refl s
  | false =>
    rw [runCommand_of_ok he]
    obtain ⟨hsel, hparked, hplatform⟩ := (hb.frame (acceptCommand w s)).others
    cases h : body (acceptCommand w s) <;> rw [h] at hsel hparked hplatform <;> exact ⟨hsel, hparked, hplatform⟩

/-! ## Host operations and the step -/

/-- Everything that a host operation which answers can do to the state. -/
inductive HostEffect (s : State) : State → Prop where
  /-- A write of `CMD` (R61). -/
  | command (w : CmdWord) {body : State → CmdEnd} (hb : IsCommandBody body) : HostEffect s (runCommand w body s)
  /-- A write of another register (R11, R13, R15). -/
  | registerWrite (i : Nat) (v : HostWord) : HostEffect s { s with rf := writeReg s.rf i v }
  /-- A read of a register or of memory (R12). -/
  | read (x : HostWord) : HostEffect s { s with rdData := x }
  /-- A byte written by the host's own means (R40). -/
  | memoryWrite (a : Addr) (b : Byte) : HostEffect s { s with mem := s.mem.write a b }
  | reset : HostEffect s (resetInstance s)
  /-- A reset that cuts a command short (R191). -/
  | resetDuring (l : List Access) (n : Nat) :
    HostEffect s { resetInstance s with mem := applyWrites s.mem l, bus := l, draws := n }

theorem hostWrite_effect {i : Nat} {v : HostWord} {s t : State} (h : hostWrite i v s = .next t) : HostEffect s t := by
  unfold hostWrite at h
  split at h
  · obtain ⟨w, body, hb, he⟩ := hostWriteCmd_command v
    rw [he] at h
    cases h
    exact .command w hb
  · cases h; exact .registerWrite i v

theorem hostRead_effect {i : Nat} {s t : State} (h : hostRead i s = .next t) : HostEffect s t := by
  cases h; exact .read _

theorem hostResetDuring_effect {v : HostWord} {s t : State} (h : hostResetDuring v s = .next t) : HostEffect s t := by
  obtain ⟨w, body, -, he⟩ := hostWriteCmd_command v
  unfold hostResetDuring at h
  rw [he] at h
  split at h
  · cases h; exact .reset
  · cases h; exact .resetDuring _ _

/-- The inversion of `hostOp`. -/
theorem hostOp_effect {op : HostOp} {s t : State} (h : hostOp op s = .next t) : HostEffect s t := by
  cases op with
  | wr i v => exact hostWrite_effect h
  | rd i => exact hostRead_effect h
  | busWr addr size v =>
    simp only [hostOp] at h
    split at h
    · exact hostWrite_effect h
    · cases h
  | busRd addr size =>
    simp only [hostOp] at h
    split at h
    · exact hostRead_effect h
    · cases h
  | memWr a b =>
    simp only [hostOp] at h
    split at h
    · cases h; exact .memoryWrite a b
    · cases h
  | memRd a =>
    simp only [hostOp] at h
    split at h
    · cases h; exact .read _
    · cases h
  | reset => cases h; exact .reset
  | resetDuring v => exact hostResetDuring_effect h

/-- The inversion of `step`: nothing was asked, or the first request was performed on the register file it names. -/
theorem step_eq_next {s t : State} (h : step s = .next t) :
    (s.pending = [] ∧ t = s) ∨
    ∃ q rest, s.pending = q :: rest ∧ q.inst < s.platform.numInst ∧
      HostEffect (selectInstance q.inst { s with pending := rest }) t := by
  unfold step at h
  split at h
  · next hp => cases h; exact .inl ⟨hp, rfl⟩
  · next q rest hp =>
    unfold hostRequest at h
    split at h
    · next hq => exact .inr ⟨q, rest, hp, of_decide_eq_true hq, hostOp_effect h⟩
    · cases h

theorem HostEffect.keepsOthers {s t : State} (h : HostEffect s t) : KeepsOthers s t := by
  cases h with
  | command w hb => exact runCommand_keepsOthers hb w s
  | registerWrite i v => exact ⟨rfl, rfl, rfl⟩
  | read x => exact ⟨rfl, rfl, rfl⟩
  | memoryWrite a b => exact ⟨rfl, rfl, rfl⟩
  | reset => exact ⟨rfl, rfl, rfl⟩
  | resetDuring l n => exact ⟨rfl, rfl, rfl⟩

/-! ## Register files of several holders (R38) -/

/-- Selecting moves register files around and changes none. -/
theorem instanceFile_selectInstance {s : State} (hp : s.parked.Pairwise fun x y => x.1 < y.1) (k j : Nat) :
    instanceFile (selectInstance k s) j = instanceFile s j := by
  by_cases hk : k = s.sel
  · rw [hk, selectInstance_self]
  by_cases hj : j = k
  · subst hj
    rw [← selectInstance_rf j s, instanceFile, if_pos (selectInstance_sel j s).symm]
  · have hget : sparseGet RegFile.reset (selectInstance k s).parked j =
        sparseGet RegFile.reset (sparseSet RegFile.reset s.sel s.rf s.parked) j := by
      simp only [selectInstance, hk, if_false]
      exact sparseGet_sparseSet_ne _ _ hj
    simp only [instanceFile, selectInstance_sel, hj, if_false, hget]
    split
    · next hs => rw [hs]; exact sparseGet_sparseSet_same _ _ hp
    · next hs => exact sparseGet_sparseSet_ne _ _ hs

theorem instanceFile_of_keepsOthers {s t : State} (h : KeepsOthers s t) {j : Nat} (hj : j ≠ s.sel) :
    instanceFile t j = instanceFile s j := by
  simp [instanceFile, h.sel, h.parked, hj]

/-! ## Legal register files (R15, R16, R32, R33) -/

theorem regFileLegal_reset : RegFileLegal RegFile.reset := by decide

/-- Writing `DONE` while no fault is latched keeps STATUS legal. -/
theorem statusLegal_of_setDone {rf rf' : RegFile} {b : Bool} (h : StatusLegal rf) (he : statusErr rf.status = false)
    (hs : rf'.status = setDone b rf.status) (hi : rf'.errInfo = rf.errInfo) : StatusLegal rf' := by
  obtain ⟨hres, -, hcause, -⟩ := h
  obtain ⟨hc, hinfo⟩ := hcause he
  simp [StatusLegal, hs, hi, hres, he, hc, hinfo]

theorem Cause.code_bounds (c : Cause) : 1 ≤ c.code.toNat ∧ c.code.toNat ≤ 4 := by cases c <;> decide

/-- Fault entry with `DONE` = 0 makes a legal STATUS (R166). -/
theorem statusLegal_of_latchCause {rf rf' : RegFile} {c : Cause} (hres : statusReservedZero rf.status = true)
    (hd : statusDone rf.status = false) (hs : rf'.status = latchCause c.code rf.status) : StatusLegal rf' := by
  simpa [StatusLegal, hs, hres, hd] using c.code_bounds

/-- Leaving the fault state keeps STATUS legal (R168). -/
theorem statusLegal_writeStatus {rf : RegFile} (v : HostWord) (h : StatusLegal rf) : StatusLegal (writeStatus v rf) := by
  unfold writeStatus
  split
  · obtain ⟨hres, -, -, -⟩ := h
    simp [StatusLegal, hres]
  · exact h

theorem regFileLegal_writeReg {rf : RegFile} (i : Nat) (v : HostWord) (h : RegFileLegal rf) :
    RegFileLegal (writeReg rf i v) := by
  obtain ⟨hst, hseq, hacc⟩ := h
  obtain ⟨hseq', hacc', -⟩ := writeReg_hidden rf i v
  refine ⟨?_, hseq'.trans hseq, hacc' ▸ hacc⟩
  unfold writeReg
  split
  · exact statusLegal_writeStatus v hst
  all_goals exact hst

/-- A command ends with a legal register file (R61, R166). -/
theorem regFileLegal_runCommand {body : State → CmdEnd} (hb : IsCommandBody body) (w : CmdWord) {s : State}
    (h : RegFileLegal s.rf) : RegFileLegal (runCommand w body s).rf := by
  cases he : statusErr s.rf.status with
  | true => rw [runCommand_of_err he]; exact h
  | false =>
    rw [runCommand_of_ok he]
    obtain ⟨hst, hseq, hacc⟩ := h
    obtain ⟨-, hstatus, hinfo, -, hseq', hacc'⟩ := hb.frame (acceptCommand w s)
    cases hend : body (acceptCommand w s) with
    | done t =>
      rw [hend] at hstatus hinfo hseq' hacc'
      refine ⟨statusLegal_of_setDone (b := true) hst he ?_ hinfo, hseq' hseq, hacc' hacc⟩
      simpa using congrArg (setDone true) hstatus
    | faulted c info t =>
      rw [hend] at hstatus hinfo hseq' hacc'
      refine ⟨statusLegal_of_latchCause (rf := t.rf) (c := c) ?_ ?_ rfl, hseq' hseq, hacc' hacc⟩
      · rw [CmdEnd.state_faulted] at hstatus; rw [hstatus]; simpa using hst.1
      · rw [CmdEnd.state_faulted] at hstatus; rw [hstatus]; simp

theorem runCommand_mem_wf {body : State → CmdEnd} (hb : IsCommandBody body) (w : CmdWord) {s : State}
    (h : Memory.wf s.mem) : Memory.wf (runCommand w body s).mem := by
  cases he : statusErr s.rf.status with
  | true => rw [runCommand_of_err he]; exact h
  | false =>
    rw [runCommand_of_ok he]
    have hm := (hb.frame (acceptCommand w s)).mem h
    cases hend : body (acceptCommand w s) <;> rw [hend] at hm <;> exact hm

/-! ## The invariant -/

/-- What a host operation has to show for the invariant, as it leaves the other register files alone. -/
theorem Inv.of_keepsOthers {s t : State} (hs : Inv s) (h : KeepsOthers s t) (hm : Memory.wf t.mem)
    (hrf : RegFileLegal t.rf) : Inv t := by
  obtain ⟨-, hsel, hwf, hparked, -⟩ := hs
  refine ⟨hm, ?_, ?_, ?_, hrf⟩
  · rw [h.sel, h.platform]; exact hsel
  · rw [h.parked, h.platform]; exact hwf
  · rw [h.parked, h.sel]; exact hparked

theorem Inv.hostEffect {s t : State} (hs : Inv s) (h : HostEffect s t) : Inv t := by
  refine hs.of_keepsOthers h.keepsOthers ?_ ?_
  · obtain ⟨hm, -⟩ := hs
    cases h with
    | command w hb => exact runCommand_mem_wf hb w hm
    | memoryWrite a b => exact Memory.wf_write hm a b
    | resetDuring l n => exact applyWrites_wf hm l
    | registerWrite i v => exact hm
    | read x => exact hm
    | reset => exact hm
  · obtain ⟨-, -, -, -, hrf⟩ := hs
    cases h with
    | command w hb => exact regFileLegal_runCommand hb w hrf
    | registerWrite i v => exact regFileLegal_writeReg i v hrf
    | reset => exact regFileLegal_reset
    | resetDuring l n => exact regFileLegal_reset
    | memoryWrite a b => exact hrf
    | read x => exact hrf

/-- What a sparse list holds at a key is the default or one of its entries. -/
theorem sparseGet_eq_default_or_mem {α : Type} (d : α) (l : List (Nat × α)) (a : Nat) :
    sparseGet d l a = d ∨ (a, sparseGet d l a) ∈ l := by
  induction l with
  | nil => exact .inl rfl
  | cons c l ih =>
    obtain ⟨k, v⟩ := c
    by_cases hk : k = a
    · simp [sparseGet, hk]
    · simpa [sparseGet, hk, Ne.symm hk] using ih

/-- Every register file of a legal state is legal. -/
theorem Inv.instanceFile_legal {s : State} (hs : Inv s) (k : Nat) : RegFileLegal (instanceFile s k) := by
  obtain ⟨-, -, -, hparked, hrf⟩ := hs
  unfold instanceFile
  split
  · exact hrf
  · rcases sparseGet_eq_default_or_mem RegFile.reset s.parked k with h | h
    · rw [h]; exact regFileLegal_reset
    · exact (hparked _ h).2

theorem Inv.select {s : State} (hs : Inv s) {k : Nat} (hk : k < s.platform.numInst) :
    Inv (selectInstance k s) := by
  by_cases hks : k = s.sel
  · rw [hks, selectInstance_self]; exact hs
  have hlegal := hs.instanceFile_legal k
  obtain ⟨hm, hsel, hwf, hparked, hrf⟩ := hs
  have hwf' := sparseWf_sparseSet s.rf hsel hwf
  have hpk : (selectInstance k s).parked =
      sparseSet RegFile.reset k RegFile.reset (sparseSet RegFile.reset s.sel s.rf s.parked) := by
    simp [selectInstance, hks]
  refine ⟨by simpa using hm, by simpa using hk, ?_, ?_, by simpa using hlegal⟩
  · rw [hpk, selectInstance_platform]; exact sparseWf_sparseSet _ hk hwf'
  · rw [hpk, selectInstance_sel]
    intro c hc
    refine ⟨sparseSet_default_key hwf' c hc, ?_⟩
    rcases mem_sparseSet hc with ⟨-, hne⟩ | hc
    · exact absurd rfl hne
    · rcases mem_sparseSet hc with ⟨rfl, -⟩ | hc
      · exact hrf
      · exact (hparked c hc).2

end Sys2Proof.Machine
end

section
/-! The obligations on legal states, the register files and the host's registers. -/

namespace Sys2Proof.Machine

/-- Settles O3, by the inversion of the step: selecting a register file and every effect of a host operation keep `Inv`. -/
theorem stepKeepsTheStateLegal : Obligations.StepKeepsTheStateLegal := by
  intro s t hs h
  rcases step_eq_next h with ⟨-, rfl⟩ | ⟨q, rest, -, hq, he⟩
  · exact hs
  · have hrest : Inv { s with pending := rest } := hs
    exact (hrest.select hq).hostEffect he

/-- Settles O47: selecting changes no register file, and the operation touches the selected one only. -/
theorem instancesShareNoRegister : Obligations.InstancesShareNoRegister := by
  intro s t q rest j hs hp hj h
  obtain ⟨-, -, ⟨hwf, -⟩, -, -⟩ := hs
  rcases step_eq_next h with ⟨hnil, -⟩ | ⟨q', rest', hp', -, he⟩
  · rw [hnil] at hp; cases hp
  · rw [hp] at hp'
    cases hp'
    calc instanceFile t j
        = instanceFile (selectInstance q.inst { s with pending := rest }) j :=
          instanceFile_of_keepsOthers he.keepsOthers (by simpa using hj)
      _ = instanceFile { s with pending := rest } j := instanceFile_selectInstance (s := { s with pending := rest }) hwf _ _
      _ = instanceFile s j := rfl

/-- Settles O11, by the rules of `writeReg`: the register itself, the other ones, the read-only ones, the hidden ones. -/
theorem registerWriteThenRead : Obligations.RegisterWriteThenRead := by
  intro s i v hi
  obtain ⟨hseq, hacc, hwsum⟩ := writeReg_hidden s.rf i v
  refine ⟨_, hostOp_wr_of_ne_zero s v (by omega), readReg_writeReg_same s.rf v,
    fun j hj => readReg_writeReg_ne s.rf v hi hj, fun h => ?_, rfl, hseq, hacc, hwsum⟩
  rw [writeReg_of_not_rw s.rf v hi h]

/-- Settles O50, by read after write in canonical memory. -/
theorem hostMemoryAccess : Obligations.HostMemoryAccess := by
  intro s a b
  refine ⟨fun hmap hwf => ?_, fun hmap => ?_⟩
  · refine ⟨{ s with mem := s.mem.write a b }, ?_, ?_, rfl, fun c hc => Memory.read_write_ne s.mem b hc⟩
    · simp [hostOp, hmap]
    · simp [hostOp, hmap, Memory.read_write_same hwf]
  · simp [hostOp, hmap]

/-- Settles O1: both states hold the register file of reset. -/
theorem resetClearsEveryRegister : Obligations.ResetClearsEveryRegister :=
  ⟨⟨readReg_reset, rfl⟩, fun s => ⟨resetInstance s, rfl, readReg_reset, rfl, rfl⟩⟩

/-- Settles O9: whatever the word, the write runs a command, and no command is run while `ERR` = 1. -/
theorem commandIgnoredWhileAFaultIsLatched : Obligations.CommandIgnoredWhileAFaultIsLatched := by
  intro s he
  refine ⟨fun v => ?_, fun i => ?_⟩
  · obtain ⟨w, body, -, hv⟩ := hostWriteCmd_command v
    calc hostOp (.wr 0 v) s = hostWriteCmd v s := rfl
      _ = .next s := by rw [hv, runCommand_of_err he]
  · obtain ⟨body, -, hi⟩ := exec_command i
    rw [hi, runCommand_of_err he]

/-- Settles O12: the value is `readReg`, which is below the width of its register; the table is read off index by index. -/
theorem registerReadZeroExtends : Obligations.RegisterReadZeroExtends := by
  intro s i hi
  refine ⟨readReg s.rf i, rfl, readReg_lt s.rf i, ?_⟩
  interval_cases i <;> simp [readReg] <;> omega

/-- Settles O13, by the rules of `writeReg` and `readReg` above index 17. -/
theorem undefinedIndicesAreInert : Obligations.UndefinedIndicesAreInert := by
  intro s i hi
  refine ⟨fun v => ?_, ?_⟩
  · rw [hostOp_wr_of_ne_zero s v (by omega), writeReg_of_not_rw s.rf v (by omega) (by omega)]
  · rw [← readReg_of_gt s.rf hi]; rfl

end Sys2Proof.Machine
end

section
/-! The obligations on how a pass ends: its frame, the empty pass (R24, R25) and filter length 0 (R28). -/

namespace Sys2Proof.Machine

/-! ## An accepted pass -/

/-- An accepted pass is its listing, with the engine it leaves committed, and step (5) of R61. -/
theorem exec_of_passAccepted {i : Instr} {ps : PassSpec} {s : State} (hi : passSpecOf i = some ps)
    (ha : PassAccepted s) :
    exec i s = .next
      ((passLines ps (passPort ps s) s.rf.desc (startEngine s)).commit (acceptCommand (encode i) s)).finish := by
  obtain ⟨he, hchecks⟩ := ha
  have hc : failingCheck (acceptCommand (encode i) s).rf.desc = none := failingCheck_eq_none.2 hchecks
  rw [exec_pass hi, execPass, runCommand_of_ok he, passBody_of_checks_passed hc]
  rfl

/-! ## Loops that do nothing, and loops that fault at once -/

theorem loopUp_of_noop {body : Nat → Engine → Run Unit} (h : ∀ k e, body k e = .ok () e) (n i : Nat) (e : Engine) :
    loopUp body n i e = .ok () e := by
  induction n generalizing i with
  | zero => rfl
  | succ n ih => rw [loopUp, h, andThen_ok, ih]

theorem loopUp_of_fault {body : Nat → Engine → Run Unit} {n i : Nat} {e e' : Engine} {c : Cause} {info : BitVec 64}
    (hn : 0 < n) (h : body i e = .fault c info e') : loopUp body n i e = .fault c info e' := by
  cases n with
  | zero => omega
  | succ n => rw [loopUp, h, andThen_fault]

/-- Without lines, or without destination coordinates, the listing does nothing (R24, R25). -/
theorem passLines_of_empty (ps : PassSpec) (P : Port) {D : Desc} (e : Engine) (h : D.lines = 0 ∨ D.dests = 0) :
    passLines ps P D e = .ok () e := by
  unfold passLines
  rcases h with h | h
  · rw [h]; rfl
  · refine loopUp_of_noop (fun r e => ?_) _ _ _
    rw [passLine, h]; rfl

/-- With filter length 0 a pixel reads its offset entry and divides by zero (R28, R163). -/
theorem passPixel_of_no_taps (ps : PassSpec) (P : Port) {D : Desc} (r d : Nat) (e : Engine) (ht : D.taps = 0)
    (hr : Readable P 4 (offsAddr D d)) :
    passPixel ps P D r d e = .fault .divZero (divZeroInfo r d)
      { clearAcc ps e with bus := (readAccesses 4 (offsAddr D d)).reverse ++ e.bus } := by
  rw [passPixel, memRead_of_readable P 4 _ _ hr, ht]
  rfl

/-- With filter length 0 the first pixel ends the listing (R28, R108). -/
theorem passLines_of_no_taps (ps : PassSpec) (P : Port) {D : Desc} (e : Engine) (hlines : 0 < D.lines)
    (hdests : 0 < D.dests) (ht : D.taps = 0) (hr : Readable P 4 (offsAddr D D.firstDest)) :
    passLines ps P D e = .fault .divZero (divZeroInfo 0 D.firstDest)
      { clearAcc ps e with bus := (readAccesses 4 (offsAddr D D.firstDest)).reverse ++ e.bus } :=
  loopUp_of_fault hlines (loopUp_of_fault hdests (passPixel_of_no_taps ps P 0 D.firstDest e ht hr))

/-- In line 0 the information of a `DIV_ZERO` is the destination coordinate alone (R160). -/
theorem divZeroInfo_firstDest (rf : RegFile) (h : 0 ≤ rf.desc.dMin) :
    divZeroInfo 0 rf.desc.firstDest = rf.dMin.setWidth 64 := by
  have hmin : rf.desc.dMin = rf.dMin.toInt := rfl
  have hnat : rf.desc.firstDest = rf.dMin.toNat := by
    have hint := BitVec.toInt_eq_toNat_cond rf.dMin
    rw [hmin] at h
    rw [Desc.firstDest, hmin]
    split at hint <;> omega
  rw [hnat, divZeroInfo]
  apply BitVec.eq_of_toNat_eq
  simp

/-! ## The obligations -/

/-- Settles O30: a pass only extends the accesses, and its writes go to destination pixels. -/
theorem passWritesOnlyItsDestination : Obligations.PassWritesOnlyItsDestination := by
  intro i ps s t hi ht
  rw [exec_pass hi, execPass] at ht
  cases ht
  cases he : statusErr s.rf.status with
  | true => rw [runCommand_of_err he]; exact ⟨fun _ _ => rfl, rfl⟩
  | false =>
    rw [runCommand_of_ok he]
    rcases passBody_cases ps (acceptCommand (encode i) s) with ⟨n, -, h⟩ | ⟨-, e, ⟨l, -, hmem, -, hw⟩, hend⟩
    · rw [h]; exact ⟨fun _ _ => rfl, rfl⟩
    · have hframe : ∀ a, ¬ IsDestination ps s.rf.desc a → e.mem.read a = s.mem.read a := by
        intro a ha
        rw [hmem]
        refine applyWrites_read_of_not_written _ l a fun a' b hab heq => ha ?_
        rw [heq]; exact hw a' b hab
      rcases hend with h | ⟨c, info, h, -⟩ <;> rw [h] <;> exact ⟨hframe, rfl⟩

/-- Settles O27: the listing does nothing, so the engine committed is the one it started with. -/
theorem emptyPassCompletes : Obligations.EmptyPassCompletes := by
  intro i ps s hi ha hempty
  have h0 : s.rf.desc.lines = 0 ∨ s.rf.desc.dests = 0 := by
    rcases hempty with h | h
    · left; simp [RegFile.desc, h]
    · right; simpa [RegFile.desc, Desc.dests] using h
  rw [exec_of_passAccepted hi ha, passLines_of_empty ps _ _ h0]
  simp [Run.commit, CmdEnd.finish, commitEngine, acceptCommand, startEngine]

/-- Settles O34: the first pixel of the listing faults, with nothing but its offset entry read. -/
theorem zeroFilterLengthDividesByZero : Obligations.ZeroFilterLengthDividesByZero := by
  intro i ps s hi ha hlines hdests hlen hr
  have htaps : s.rf.desc.taps = 0 := by simp [RegFile.desc, hlen]
  have hexec := exec_of_passAccepted hi ha
  rw [passLines_of_no_taps ps _ _ hlines hdests htaps hr, Run.commit, finish_faulted] at hexec
  obtain ⟨-, -, hmin⟩ := ha
  refine ⟨_, hexec, by simp, by simp, by simp [Cause.code], ?_⟩
  simp [raiseFault, commitEngine, acceptCommand, clearAcc, startEngine, divZeroInfo_firstDest s.rf hmin]

end Sys2Proof.Machine
end

section
/-! What a pass does not depend on: `SCALE` (R29), the accumulators, the other registers and earlier commands (R35). Both are
statements about two runs. -/

namespace Sys2Proof.Machine

/-! ## Two runs that differ in SCALE -/

/-- The end of the body of a command, with its state changed. -/
def CmdEnd.mapState (f : State → State) : CmdEnd → CmdEnd
  | .done s => .done (f s)
  | .faulted c info s => .faulted c info (f s)

theorem commit_withScale (x : BitVec 64) (s : State) (r : Run Unit) :
    r.commit (withScale x s) = (r.commit s).mapState (withScale x) := by
  cases r <;> rfl

/-- The body of a command carries `SCALE` through (R29). -/
theorem IsCommandBody.carriesScale {body : State → CmdEnd} (hb : IsCommandBody body) (x : BitVec 64) (s : State) :
    body (withScale x s) = (body s).mapState (withScale x) := by
  cases hb with
  | clamp f => rfl
  | illegal w => rfl
  | pass ps =>
    cases hc : failingCheck s.rf.desc with
    | some n =>
      rw [passBody_of_check_failed hc, passBody_of_check_failed (s := withScale x s) hc]
      rfl
    | none =>
      rw [passBody_of_checks_passed hc, passBody_of_checks_passed (s := withScale x s) hc]
      exact commit_withScale x s _

theorem runCommand_withScale {body : State → CmdEnd} (hb : IsCommandBody body) (w : CmdWord) (x : BitVec 64)
    (s : State) : runCommand w body (withScale x s) = withScale x (runCommand w body s) := by
  have haccept : acceptCommand w (withScale x s) = withScale x (acceptCommand w s) := rfl
  cases he : statusErr s.rf.status with
  | true => rw [runCommand_of_err he, runCommand_of_err (s := withScale x s) he]
  | false =>
    rw [runCommand_of_ok he, runCommand_of_ok (s := withScale x s) he, haccept, hb.carriesScale]
    cases body (acceptCommand w s) <;> rfl

/-! ## Two runs of the listing -/

/-- What a pass shows of its engine: memory, its accesses, the free values drawn. -/
structure SeenAlike (e1 e2 : Engine) : Prop where
  mem : e1.mem = e2.mem
  bus : e1.bus = e2.bus
  draws : e1.draws = e2.draws

/-- Inside a pixel of `n` lanes the weight sum and the accumulators of the lanes are alike too; those of no lane need not be. -/
structure LanesAlike (n : Nat) (e1 e2 : Engine) : Prop extends SeenAlike e1 e2 where
  wsum : e1.wsum = e2.wsum
  lanes : e1.acc.take n = e2.acc.take n

/-- Two pieces of a command end in the same way: with the same value in engines related by `R`, or with the same fault. -/
def RunsAlike {α : Type} (R : Engine → Engine → Prop) : Run α → Run α → Prop
  | .ok x e1, .ok y e2 => x = y ∧ R e1 e2
  | .fault c i e1, .fault c' i' e2 => c = c' ∧ i = i' ∧ SeenAlike e1 e2
  | _, _ => False

theorem RunsAlike.andThen {α β : Type} {R R' : Engine → Engine → Prop} {r1 r2 : Run α} {f1 f2 : α → Engine → Run β}
    (h : RunsAlike R r1 r2) (hf : ∀ x e1 e2, R e1 e2 → RunsAlike R' (f1 x e1) (f2 x e2)) :
    RunsAlike R' (r1.andThen f1) (r2.andThen f2) := by
  cases r1 with
  | ok x e1 =>
    cases r2 with
    | ok y e2 => obtain ⟨rfl, hR⟩ := h; exact hf x e1 e2 hR
    | fault c i e2 => exact h.elim
  | fault c i e1 =>
    cases r2 with
    | ok y e2 => exact h.elim
    | fault c' i' e2 => exact h

theorem RunsAlike.mono {α : Type} {R R' : Engine → Engine → Prop} {r1 r2 : Run α} (h : RunsAlike R r1 r2)
    (hR : ∀ e1 e2, R e1 e2 → R' e1 e2) : RunsAlike R' r1 r2 := by
  cases r1 <;> cases r2
  · exact ⟨h.1, hR _ _ h.2⟩
  · exact h
  · exact h
  · exact h

theorem loopUp_alike {R : Engine → Engine → Prop} {body1 body2 : Nat → Engine → Run Unit}
    (hbody : ∀ k e1 e2, R e1 e2 → RunsAlike R (body1 k e1) (body2 k e2)) (n i : Nat) {e1 e2 : Engine} (h : R e1 e2) :
    RunsAlike R (loopUp body1 n i e1) (loopUp body2 n i e2) := by
  induction n generalizing i e1 e2 with
  | zero => exact ⟨rfl, h⟩
  | succ n ih => exact (hbody i e1 e2 h).andThen fun _ _ _ h' => ih (i + 1) h'

/-- Two ports with the same map and the same destination. -/
structure PortsAlike (P Q : Port) : Prop where
  mapped : P.platform.mapped = Q.platform.mapped
  dst : P.dst = Q.dst

theorem PortsAlike.isMapped {P Q : Port} (h : PortsAlike P Q) (a : Addr) :
    P.platform.isMapped a = Q.platform.isMapped a := by
  unfold Platform.isMapped; rw [h.mapped]

section
variable {P Q : Port} {n : Nat} {e1 e2 : Engine}

theorem readByte_alike (hPQ : PortsAlike P Q) (h : LanesAlike n e1 e2) (a : Addr) :
    RunsAlike (LanesAlike n) (readByte P a e1) (readByte Q a e2) := by
  obtain ⟨⟨hmem, hbus, hdraws⟩, hwsum, hlanes⟩ := h
  unfold readByte
  rw [hPQ.isMapped, hPQ.dst]
  split
  · split
    · exact ⟨by rw [hdraws], ⟨hmem, by rw [hbus], by rw [hdraws]⟩, hwsum, hlanes⟩
    · exact ⟨by rw [hmem], ⟨hmem, by rw [hbus], hdraws⟩, hwsum, hlanes⟩
  · exact ⟨rfl, rfl, hmem, hbus, hdraws⟩

theorem writeByte_alike (hPQ : PortsAlike P Q) (h : LanesAlike n e1 e2) (a : Addr) (b : Byte) :
    RunsAlike (LanesAlike n) (writeByte P a b e1) (writeByte Q a b e2) := by
  obtain ⟨⟨hmem, hbus, hdraws⟩, hwsum, hlanes⟩ := h
  unfold writeByte
  rw [hPQ.isMapped]
  split
  · exact ⟨rfl, ⟨by rw [hmem], by rw [hbus], hdraws⟩, hwsum, hlanes⟩
  · exact ⟨rfl, rfl, hmem, hbus, hdraws⟩

theorem memReadFrom_alike (hPQ : PortsAlike P Q) (h : LanesAlike n e1 e2) (acc k : Nat) (a : Addr) :
    RunsAlike (LanesAlike n) (memReadFrom P acc k a e1) (memReadFrom Q acc k a e2) := by
  induction k generalizing acc a e1 e2 with
  | zero => exact ⟨rfl, h⟩
  | succ k ih => exact (readByte_alike hPQ h a).andThen fun b _ _ h' => ih h' _ _

theorem memRead_alike (hPQ : PortsAlike P Q) (h : LanesAlike n e1 e2) (k : Nat) (a : Addr) :
    RunsAlike (LanesAlike n) (memRead P k a e1) (memRead Q k a e2) := memReadFrom_alike hPQ h 0 k a

theorem memWrite_alike (hPQ : PortsAlike P Q) (h : LanesAlike n e1 e2) (k : Nat) (a : Addr) (v : Nat) :
    RunsAlike (LanesAlike n) (memWrite P k a v e1) (memWrite Q k a v e2) := by
  induction k generalizing a e1 e2 with
  | zero => exact ⟨rfl, h⟩
  | succ k ih => exact (writeByte_alike hPQ h a _).andThen fun _ _ _ h' => ih h' _

theorem readSamples_alike (hPQ : PortsAlike P Q) (h : LanesAlike n e1 e2) (sw k : Nat) (a : Addr) :
    RunsAlike (LanesAlike n) (readSamples P sw k a e1) (readSamples Q sw k a e2) := by
  induction k generalizing a e1 e2 with
  | zero => exact ⟨rfl, h⟩
  | succ k ih =>
    exact (memRead_alike hPQ h sw a).andThen fun v _ _ h1 => (ih h1 _).andThen fun vs _ _ h2 => ⟨rfl, h2⟩

theorem storeValues_alike (hPQ : PortsAlike P Q) (h : LanesAlike n e1 e2) (sw : Nat) (vs : List Nat) (a : Addr) :
    RunsAlike (LanesAlike n) (storeValues P sw vs a e1) (storeValues Q sw vs a e2) := by
  induction vs generalizing a e1 e2 with
  | nil => exact ⟨rfl, h⟩
  | cons v vs ih => exact (memWrite_alike hPQ h sw a v).andThen fun _ _ _ h' => ih h' _

theorem fetchSamples_alike (hPQ : PortsAlike P Q) (h : LanesAlike n e1 e2) (ps : PassSpec) (D : Desc) (r : Nat)
    (xc : Int) : RunsAlike (LanesAlike n) (fetchSamples ps P D r xc e1) (fetchSamples ps Q D r xc e2) :=
  (readSamples_alike hPQ h _ _ _).andThen fun _ _ _ h' => ⟨rfl, h'⟩

end

/-- The first `n` accumulators after a tap are made from the first `n` before it. -/
theorem take_zipWith_append_drop (f : Int → Nat → Int) (n : Nat) (acc : List Int) (ss : List Nat) :
    (List.zipWith f acc ss ++ acc.drop ss.length).take n =
      List.zipWith f (acc.take n) ss ++ (acc.take n).drop ss.length := by
  induction acc generalizing n ss with
  | nil => simp
  | cons a acc ih =>
    cases n with
    | zero => simp
    | succ n =>
      cases ss with
      | nil => simp
      | cons v ss => simpa using ih n ss

theorem accumulate_alike {n : Nat} {e1 e2 : Engine} (h : LanesAlike n e1 e2) (ps : PassSpec) (k : Int)
    (ss : List Nat) : LanesAlike n (accumulate ps k ss e1) (accumulate ps k ss e2) := by
  obtain ⟨hseen, hwsum, hlanes⟩ := h
  refine ⟨⟨hseen.mem, hseen.bus, hseen.draws⟩, ?_, ?_⟩
  · simp only [accumulate, hwsum]
  · simp only [accumulate, take_zipWith_append_drop, hlanes]

/-- Clearing a pixel's accumulators makes its lanes alike, whatever they held (R97). -/
theorem clearAcc_alike {e1 e2 : Engine} (h : SeenAlike e1 e2) (ps : PassSpec) :
    LanesAlike (fmtChans ps.dst) (clearAcc ps e1) (clearAcc ps e2) :=
  ⟨⟨h.mem, h.bus, h.draws⟩, rfl, by simp [clearAcc, List.take_left']⟩

section
variable {P Q : Port} {e1 e2 : Engine}

theorem passTap_alike {n : Nat} (hPQ : PortsAlike P Q) (h : LanesAlike n e1 e2) (ps : PassSpec) (D : Desc) (r d : Nat)
    (start : Int) (i : Nat) :
    RunsAlike (LanesAlike n) (passTap ps P D r d start i e1) (passTap ps Q D r d start i e2) := by
  have hseq : LanesAlike n { e1 with seq := some ⟨r, d, i⟩ } { e2 with seq := some ⟨r, d, i⟩ } :=
    ⟨⟨h.mem, h.bus, h.draws⟩, h.wsum, h.lanes⟩
  refine (memRead_alike hPQ hseq _ _).andThen fun raw _ _ h1 => ?_
  split
  · exact ⟨rfl, h1⟩
  · exact (fetchSamples_alike hPQ h1 ps D r _).andThen fun ss _ _ h2 => ⟨rfl, accumulate_alike h2 ps _ ss⟩

theorem finishPixel_alike (hPQ : PortsAlike P Q) (ps : PassSpec) (h : LanesAlike (fmtChans ps.dst) e1 e2) (D : Desc)
    (r d : Nat) :
    RunsAlike (LanesAlike (fmtChans ps.dst)) (finishPixel ps P D r d e1) (finishPixel ps Q D r d e2) := by
  unfold finishPixel pixelValues
  rw [h.wsum, h.lanes]
  split
  · exact ⟨rfl, rfl, h.toSeenAlike⟩
  · exact storeValues_alike hPQ h _ _ _

theorem passPixel_alike (hPQ : PortsAlike P Q) (h : SeenAlike e1 e2) (ps : PassSpec) (D : Desc) (r d : Nat) :
    RunsAlike SeenAlike (passPixel ps P D r d e1) (passPixel ps Q D r d e2) := by
  refine RunsAlike.mono ?_ fun _ _ => LanesAlike.toSeenAlike (n := fmtChans ps.dst)
  refine (memRead_alike hPQ (clearAcc_alike h ps) _ _).andThen fun raw _ _ h1 => ?_
  refine (loopUp_alike (fun k _ _ h' => passTap_alike hPQ h' ps D r d _ k) _ _ h1).andThen fun _ _ _ h2 => ?_
  exact finishPixel_alike hPQ ps h2 D r d

theorem passLines_alike (hPQ : PortsAlike P Q) (h : SeenAlike e1 e2) (ps : PassSpec) (D : Desc) :
    RunsAlike SeenAlike (passLines ps P D e1) (passLines ps Q D e2) :=
  loopUp_alike (fun r _ _ h1 => loopUp_alike (fun d _ _ h2 => passPixel_alike hPQ h2 ps D r d) _ _ h1) _ _ h

end

/-! ## Two runs of a pass command -/

/-- All that a pass depends on (R35): the descriptor, STATUS, memory, the map and the counter of the free values (log 6). -/
structure InputsAlike (s1 s2 : State) : Prop where
  desc : s1.rf.desc = s2.rf.desc
  status : s1.rf.status = s2.rf.status
  mem : s1.mem = s2.mem
  mapped : s1.platform.mapped = s2.platform.mapped
  draws : s1.draws = s2.draws

/-- What the host can see of an accepted pass when it has ended. -/
structure OutputsAlike (t1 t2 : State) : Prop where
  mem : t1.mem = t2.mem
  status : t1.rf.status = t2.rf.status
  draws : t1.draws = t2.draws
  bus : t1.bus = t2.bus

/-- Two bodies end alike: both done, or both with the same fault. -/
def EndsAlike : CmdEnd → CmdEnd → Prop
  | .done t1, .done t2 => OutputsAlike t1 t2
  | .faulted c i t1, .faulted c' i' t2 => c = c' ∧ i = i' ∧ OutputsAlike t1 t2
  | _, _ => False

theorem acceptCommand_inputsAlike {s1 s2 : State} (h : InputsAlike s1 s2) (w : CmdWord) :
    InputsAlike (acceptCommand w s1) (acceptCommand w s2) :=
  ⟨h.desc, congrArg (setDone false) h.status, h.mem, h.mapped, h.draws⟩

theorem commit_alike {s1 s2 : State} (hstatus : s1.rf.status = s2.rf.status) {r1 r2 : Run Unit}
    (h : RunsAlike SeenAlike r1 r2) : EndsAlike (r1.commit s1) (r2.commit s2) := by
  have hcommit : ∀ {e1 e2}, SeenAlike e1 e2 → OutputsAlike (commitEngine s1 e1) (commitEngine s2 e2) :=
    fun he => ⟨he.mem, hstatus, he.draws, congrArg List.reverse he.bus⟩
  cases r1 with
  | ok x e1 =>
    cases r2 with
    | ok y e2 => exact hcommit h.2
    | fault c' i' e2 => exact h.elim
  | fault c i e1 =>
    cases r2 with
    | ok y e2 => exact h.elim
    | fault c' i' e2 =>
      obtain ⟨hc, hi, he⟩ := h
      exact ⟨hc, hi, hcommit he⟩

theorem passBody_alike {s1 s2 : State} (h : InputsAlike s1 s2) (hbus : s1.bus = s2.bus) (ps : PassSpec) :
    EndsAlike (passBody ps s1) (passBody ps s2) := by
  cases hc : failingCheck s1.rf.desc with
  | some n =>
    rw [passBody_of_check_failed hc, passBody_of_check_failed (h.desc ▸ hc)]
    exact ⟨rfl, rfl, h.mem, h.status, h.draws, hbus⟩
  | none =>
    rw [passBody_of_checks_passed hc, passBody_of_checks_passed (h.desc ▸ hc), h.desc]
    have hports : PortsAlike (passPort ps s1) (passPort ps s2) := ⟨h.mapped, by simp only [passPort, h.desc]⟩
    have hstart : SeenAlike (startEngine s1) (startEngine s2) := ⟨h.mem, rfl, h.draws⟩
    exact commit_alike h.status (passLines_alike hports hstart ps s2.rf.desc)

/-- Ends that are alike finish alike; ERR_INFO is alike if a fault was raised, or if it was before. -/
theorem finish_alike {c1 c2 : CmdEnd} (h : EndsAlike c1 c2) :
    OutputsAlike c1.finish c2.finish ∧
      (statusErr c1.state.rf.status = false → statusErr c1.finish.rf.status = true →
        c1.finish.rf.errInfo = c2.finish.rf.errInfo) := by
  cases c1 with
  | done t1 =>
    cases c2 with
    | done t2 =>
      obtain ⟨hmem, hstatus, hdraws, hbus⟩ := h
      refine ⟨⟨hmem, congrArg (setDone true) hstatus, hdraws, hbus⟩, fun hok herr => ?_⟩
      rw [finish_done_rf, statusErr_setDone] at herr
      rw [CmdEnd.state_done, herr] at hok
      cases hok
    | faulted c' i' t2 => exact h.elim
  | faulted c i t1 =>
    cases c2 with
    | done t2 => exact h.elim
    | faulted c' i' t2 =>
      obtain ⟨rfl, rfl, hmem, hstatus, hdraws, hbus⟩ := h
      exact ⟨⟨hmem, congrArg (latchCause c.code) hstatus, hdraws, hbus⟩, fun _ _ => rfl⟩

/-! ## The obligations -/

/-- Settles O43. That a command keeps `SCALE` follows from its independence: run it on the state that already holds its own
value. -/
theorem scaleInfluencesNothing : Obligations.ScaleInfluencesNothing := by
  refine ⟨fun s x => hostOp_wr_of_ne_zero s x (by decide), fun i s t x ht => ?_⟩
  obtain ⟨body, hb, hexec⟩ := exec_command i
  have hcommute : ∀ y, exec i (withScale y s) = .next (withScale y t) := by
    intro y
    rw [hexec] at ht
    cases ht
    rw [hexec, runCommand_withScale hb]
  refine ⟨?_, hcommute x⟩
  have hsame : exec i s = .next (withScale s.rf.scale t) := hcommute s.rf.scale
  rw [ht] at hsame
  calc t.rf.scale = (withScale s.rf.scale t).rf.scale :=
        congrArg (fun u : State => u.rf.scale) (Host.Outcome.next.inj hsame)
    _ = s.rf.scale := rfl

/-- Settles O42, by a relation between two runs: outside a pixel they agree in memory, accesses and free values; inside it also
in the weight sum and the lanes, which the pixel clears before it uses them. -/
theorem noHiddenStateInfluencesAPass : Obligations.NoHiddenStateInfluencesAPass := by
  intro i ps s1 s2 t1 t2 hi hdesc hstatus hmem hmapped hdraws ht1 ht2
  have hin : InputsAlike s1 s2 := ⟨hdesc, hstatus, hmem, hmapped, hdraws⟩
  rw [exec_pass hi, execPass] at ht1 ht2
  cases ht1
  cases ht2
  cases he : statusErr s1.rf.status with
  | true =>
    rw [runCommand_of_err he, runCommand_of_err (hstatus ▸ he)]
    exact ⟨hmem, hstatus, hdraws, fun hf => by cases hf⟩
  | false =>
    rw [runCommand_of_ok he, runCommand_of_ok (hstatus ▸ he)]
    have hends := passBody_alike (acceptCommand_inputsAlike hin (encode i)) rfl ps
    obtain ⟨hout, hinfo⟩ := finish_alike hends
    have hok : statusErr (passBody ps (acceptCommand (encode i) s1)).state.rf.status = false := by
      rw [(passBody_frame ps _).status]; simpa using he
    exact ⟨hout.mem, hout.status, hout.draws, fun _ => ⟨hout.bus, hinfo hok⟩⟩

end Sys2Proof.Machine
end

section
/-! The accesses themselves: which accesses of the host reach a register (R40), and what the record of a command's accesses says of
memory and of its faults (R42, R55, R164). -/

namespace Sys2Proof.Machine

/-! ## Accesses to the register space (R40) -/

theorem regIndex?_register {base : BitVec 64} {i : Nat} (h : base.toNat + 8 * i < 2 ^ 64) :
    regIndex? base (base + BitVec.ofNat 64 (8 * i)) 8 = some i := by
  have haddr : (base + BitVec.ofNat 64 (8 * i)).toNat = base.toNat + 8 * i := by
    rw [BitVec.toNat_add, BitVec.toNat_ofNat]; omega
  simp [regIndex?, haddr]

theorem regIndex?_eq_none {base addr : BitVec 64} {size : Nat}
    (h : size ≠ 8 ∨ addr.toNat < base.toNat ∨ ¬ (8 ∣ addr.toNat - base.toNat)) : regIndex? base addr size = none := by
  rw [regIndex?, if_neg]
  omega

/-- A bus access that reaches register `i` is the operation on it. -/
theorem hostOp_bus_of_some {s : State} {addr : BitVec 64} {size i : Nat}
    (h : regIndex? s.platform.rszBase addr size = some i) (v : HostWord) :
    hostOp (.busWr addr size v) s = hostOp (.wr i v) s ∧ hostOp (.busRd addr size) s = hostOp (.rd i) s := by
  simp [hostOp, h]

theorem hostOp_bus_of_none {s : State} {addr : BitVec 64} {size : Nat}
    (h : regIndex? s.platform.rszBase addr size = none) (v : HostWord) :
    hostOp (.busWr addr size v) s = .refused .hostAccessUndefined ∧
      hostOp (.busRd addr size) s = .refused .hostAccessUndefined := by
  simp [hostOp, h]

/-- Settles O14: the address of a register has its index, and the other accesses have none. -/
theorem onlyWholeRegisterAccessesAreDefined : Obligations.OnlyWholeRegisterAccessesAreDefined :=
  fun _ v => ⟨fun _ h => hostOp_bus_of_some (regIndex?_register h) v,
    fun _ _ h => hostOp_bus_of_none (regIndex?_eq_none h) v⟩

/-! ## The record of a command's accesses (R42, R55, R164) -/

/-- How a body that starts at `s` with nothing recorded ends: memory is what the record makes of it, the record holds accesses to
mapped bytes only, and a `BUS_ERR` names an unmapped byte. -/
structure RecordsItsAccesses (s : State) (r : CmdEnd) : Prop where
  mem : r.state.mem = applyWrites s.mem r.state.bus
  mapped : ∀ x ∈ r.state.bus, s.platform.isMapped x.addr = true
  busErr : ∀ info t, r = .faulted .busErr info t → s.platform.isMapped info = false

theorem IsCommandBody.recordsItsAccesses {body : State → CmdEnd} (hb : IsCommandBody body) {s : State}
    (hbus : s.bus = []) : RecordsItsAccesses s (body s) := by
  cases hb with
  | clamp f => exact ⟨by simp [clampBody, hbus], by simp [clampBody, hbus], fun _ _ h => by cases h⟩
  | illegal w => exact ⟨by simp [hbus], by simp [hbus], fun _ _ h => by cases h⟩
  | pass ps =>
    rcases passBody_cases ps s with ⟨n, -, h⟩ | ⟨-, e, ⟨l, hl, hmem, hmap, -⟩, hend⟩
    · rw [h]
      exact ⟨by simp [hbus], by simp [hbus], fun _ _ h => by cases h⟩
    · have hrec : (commitEngine s e).bus = l := by simp [hl]
      have hmem' : (commitEngine s e).mem = applyWrites s.mem (commitEngine s e).bus := by rw [hrec]; exact hmem
      have hmap' : ∀ x ∈ (commitEngine s e).bus, s.platform.isMapped x.addr = true := by rw [hrec]; exact hmap
      rcases hend with h | ⟨c, info, h, hcause⟩ <;> rw [h]
      · exact ⟨hmem', hmap', fun _ _ hfault => by cases hfault⟩
      · refine ⟨hmem', hmap', fun info' t hfault => ?_⟩
        cases hfault
        exact (hcause.resolve_right (by decide)).2

theorem Cause.code_eq_four {c : Cause} : c.code = 4#4 ↔ c = .busErr := by cases c <;> decide

@[simp] theorem CmdEnd.finish_mem (r : CmdEnd) : r.finish.mem = r.state.mem := by cases r <;> rfl
@[simp] theorem CmdEnd.finish_bus (r : CmdEnd) : r.finish.bus = r.state.bus := by cases r <;> rfl

/-- When no cause was latched, only a `BUS_ERR` ends with the cause of one, and ERR_INFO is its information (R61, R166). -/
theorem CmdEnd.eq_busErr_of_cause {r : CmdEnd} (hc : statusCause r.state.rf.status = 0#4)
    (h : statusCause r.finish.rf.status = 4#4) : ∃ t, r = .faulted .busErr r.finish.rf.errInfo t := by
  cases r with
  | done t =>
    rw [finish_done_rf, statusCause_setDone] at h
    rw [CmdEnd.state_done, h] at hc
    cases hc
  | faulted c info t =>
    rw [finish_faulted, raiseFault_rf, statusCause_latchCause, Cause.code_eq_four] at h
    subst h
    exact ⟨t, rfl⟩

/-- Settles O32: the body of the command records its accesses, and its end adds the cause only. -/
theorem memoryIsTheRecordedWritesAndAllMapped : Obligations.MemoryIsTheRecordedWritesAndAllMapped := by
  intro i s t he hc ht
  obtain ⟨body, hb, hexec⟩ := exec_command i
  rw [hexec, runCommand_of_ok he] at ht
  cases ht
  have hrec := hb.recordsItsAccesses (s := acceptCommand (encode i) s) rfl
  refine ⟨by simpa using hrec.mem, fun x hx => ?_, fun hcause => ?_⟩
  · rw [CmdEnd.finish_bus] at hx
    cases x <;> exact hrec.mapped _ hx
  · have hstate : statusCause (body (acceptCommand (encode i) s)).state.rf.status = 0#4 := by
      rw [(hb.frame _).status]; simpa using hc
    obtain ⟨u, hu⟩ := CmdEnd.eq_busErr_of_cause hstate hcause
    exact hrec.busErr _ u hu

end Sys2Proof.Machine
end

section
/-! What writes leave in memory, read back byte by byte and as big-endian values (R43 to R45). -/

namespace Sys2Proof.Machine

/-- Inside the address space, different distances from one base are different addresses. -/
theorem addr_add_inj {a : Addr} {x y : Nat} (hx : x < 2 ^ 64) (hy : y < 2 ^ 64)
    (h : a + BitVec.ofNat 64 x = a + BitVec.ofNat 64 y) : x = y := by
  have hnat := congrArg BitVec.toNat ((BitVec.add_right_inj a).1 h)
  rwa [BitVec.toNat_ofNat, BitVec.toNat_ofNat, Nat.mod_eq_of_lt hx, Nat.mod_eq_of_lt hy] at hnat

/-- A byte that is written, whenever it is written, with one value, holds that value. -/
theorem applyWrites_read_of_written {m : Memory} (hm : m.wf) {l : List Access} {a : Addr} {b : Byte}
    (hab : Access.wr a b ∈ l) (huniq : ∀ b', Access.wr a b' ∈ l → b' = b) : (applyWrites m l).read a = b := by
  induction l generalizing m with
  | nil => cases hab
  | cons x l ih =>
    have huniq' : ∀ b', Access.wr a b' ∈ l → b' = b := fun b' hb' => huniq b' (List.mem_cons_of_mem _ hb')
    rcases List.mem_cons.1 hab with rfl | htail
    · by_cases hl : Access.wr a b ∈ l
      · exact ih (Memory.wf_write hm a b) hl huniq'
      · have hnot : ∀ a' b', Access.wr a' b' ∈ l → a ≠ a' := by
          rintro a' b' hb' rfl
          exact hl (huniq' b' hb' ▸ hb')
        rw [applyWrites_wr, applyWrites_read_of_not_written _ l a hnot, Memory.read_write_same hm]
    · cases x with
      | rd _ => exact ih hm htail huniq'
      | wr a' b' => exact ih (Memory.wf_write hm a' b') htail huniq'

theorem mem_writeAccesses {n v : Nat} {a x : Addr} {b : Byte} :
    Access.wr x b ∈ writeAccesses n a v ↔
      ∃ j < n, x = a + BitVec.ofNat 64 j ∧ b = BitVec.ofNat 8 (v / 256 ^ (n - 1 - j)) := by
  simp [writeAccesses, eq_comm]

/-- The big-endian value of bytes that are the digits of `v` (R45). -/
theorem peekFrom_of_digits {m : Memory} {n v : Nat} {a : Addr} (acc : Nat)
    (h : ∀ j < n, m.read (a + BitVec.ofNat 64 j) = BitVec.ofNat 8 (v / 256 ^ (n - 1 - j))) :
    peekFrom m acc n a = acc * 256 ^ n + v % 256 ^ n := by
  induction n generalizing acc a with
  | zero => simp [peekFrom, Nat.mod_one]
  | succ n ih =>
    have hhead : (m.read a).toNat = v / 256 ^ n % 256 := by simpa using congrArg BitVec.toNat (h 0 (by omega))
    have htail : ∀ j < n, m.read (a + 1 + BitVec.ofNat 64 j) = BitVec.ofNat 8 (v / 256 ^ (n - 1 - j)) := by
      intro j hj
      rw [← addr_succ, h (j + 1) (by omega), show n + 1 - 1 - (j + 1) = n - 1 - j by omega]
    calc peekFrom m acc (n + 1) a = (acc * 256 + v / 256 ^ n % 256) * 256 ^ n + v % 256 ^ n := by
          rw [peekFrom, hhead, ih _ htail]
      _ = acc * 256 ^ (n + 1) + v % 256 ^ (n + 1) := by rw [Nat.mod_pow_succ]; ring

/-- What the accesses of a `MemWrite` store is read back, if no other access of the list stores anything else there. -/
theorem peek_applyWrites {m : Memory} (hm : m.wf) {l : List Access} {n v : Nat} {a : Addr} (hv : v < 256 ^ n)
    (hin : ∀ x ∈ writeAccesses n a v, x ∈ l)
    (huniq : ∀ j < n, ∀ b, Access.wr (a + BitVec.ofNat 64 j) b ∈ l → b = BitVec.ofNat 8 (v / 256 ^ (n - 1 - j))) :
    peek (applyWrites m l) n a = v := by
  have hdigits : ∀ j < n, (applyWrites m l).read (a + BitVec.ofNat 64 j) = BitVec.ofNat 8 (v / 256 ^ (n - 1 - j)) :=
    fun j hj => applyWrites_read_of_written hm (hin _ (mem_writeAccesses.2 ⟨j, hj, rfl, rfl⟩)) (huniq j hj)
  rw [peek, peekFrom_of_digits 0 hdigits, Nat.zero_mul, Nat.zero_add, Nat.mod_eq_of_lt hv]

/-- Settles O25: the bytes of one write lie at different addresses, so each holds its digit of the value. -/
theorem portReadsBackWhatItWrote : Obligations.PortReadsBackWhatItWrote := by
  intro P n a v e hn hv hwf hr
  obtain ⟨e1, hwrite, hmem⟩ : ∃ e1, memWrite P n a v e = .ok () e1 ∧ e1.mem = applyWrites e.mem (writeAccesses n a v) :=
    ⟨_, memWrite_of_writable P n a v e fun j hj => (hr j hj).1, rfl⟩
  have hpeek : peek e1.mem n a = v := by
    rw [hmem]
    refine peek_applyWrites hwf hv (fun _ hx => hx) fun j hj b hb => ?_
    obtain ⟨k, hk, haddr, rfl⟩ := mem_writeAccesses.1 hb
    rw [addr_add_inj (by omega) (by omega) haddr]
  have hread := memRead_of_readable P n a e1 hr
  rw [hpeek] at hread
  refine ⟨e1, _, hwrite, hread, fun x hx => ?_⟩
  rw [hmem]
  refine applyWrites_read_of_not_written _ _ x fun a' b hb => ?_
  obtain ⟨j, hj, rfl, -⟩ := mem_writeAccesses.1 hb
  exact hx j hj

end Sys2Proof.Machine
end

section
/-! A pass all of whose pixels are ready (R92, R105, R108): its loops make the accesses of the listing, one after another. -/

namespace Sys2Proof.Machine

/-- From `e` to `e'` exactly the accesses `l` were made, in their order, and no free value was drawn. -/
structure Makes (l : List Access) (e e' : Engine) : Prop where
  bus : e'.bus = l.reverse ++ e.bus
  mem : e'.mem = applyWrites e.mem l
  draws : e'.draws = e.draws

theorem Makes.refl (e : Engine) : Makes [] e e := ⟨rfl, rfl, rfl⟩

theorem Makes.trans {l l' : List Access} {e e1 e2 : Engine} (h : Makes l e e1) (h' : Makes l' e1 e2) :
    Makes (l ++ l') e e2 :=
  ⟨by rw [h'.bus, h.bus, List.reverse_append, List.append_assoc], by rw [h'.mem, h.mem, applyWrites_append],
    h'.draws.trans h.draws⟩

/-- A loop whose iterations make the accesses `acc i`, `acc (i+1)`, ... and write destination bytes only, makes all of them. -/
theorem loopUp_makes {P : Port} {m : Memory} {body : Nat → Engine → Run Unit} {acc : Nat → List Access} (n i : Nat)
    {e : Engine} (he : Agree P e.mem m)
    (hdst : ∀ k, i ≤ k → k < i + n → ∀ a b, Access.wr a b ∈ acc k → P.dst.has a = true)
    (hbody : ∀ k e, i ≤ k → k < i + n → Agree P e.mem m → ∃ e', body k e = .ok () e' ∧ Makes (acc k) e e') :
    ∃ e', loopUp body n i e = .ok () e' ∧ Makes ((List.range n).flatMap fun j => acc (i + j)) e e' := by
  induction n with
  | zero => exact ⟨e, rfl, .refl e⟩
  | succ n ih =>
    obtain ⟨e1, hloop, hmade⟩ := ih (fun k hk hk' => hdst k hk (by omega)) fun k e hk hk' => hbody k e hk (by omega)
    have he1 : Agree P e1.mem m := by
      rw [hmade.mem]
      refine he.applyWrites _ fun a b hab => ?_
      obtain ⟨j, hj, hab⟩ := List.mem_flatMap.1 hab
      have hjn := List.mem_range.1 hj
      exact hdst (i + j) (by omega) (by omega) a b hab
    obtain ⟨e2, hlast, hmade'⟩ := hbody (i + n) e1 (by omega) (by omega) he1
    refine ⟨e2, by rw [loopUp_snoc, hloop, andThen_ok, hlast], ?_⟩
    rw [List.range_succ, List.flatMap_append]
    simpa using hmade.trans hmade'

/-- The writes of a pixel: byte `k` of channel `c`, most significant byte first, behind the channels before it (R45, R105). -/
theorem wr_mem_pixelAccesses {ps : PassSpec} {m : Memory} {D : Desc} {r d : Nat} {a : Addr} {b : Byte} :
    Access.wr a b ∈ pixelAccesses ps m D r d ↔
      ∃ c < fmtChans ps.dst, ∃ k < fmtSw ps.dst,
        a = dstAddr D (fmtBpp ps.dst) r d + BitVec.ofNat 64 (c * fmtSw ps.dst + k) ∧
        b = BitVec.ofNat 8 (pixelValue ps m D r d c / 256 ^ (fmtSw ps.dst - 1 - k)) := by
  simp [pixelAccesses, pixelReads_readsOnly, pixelWrites, mem_writeAccesses, BitVec.add_assoc, BitVec.ofNat_add]

theorem mem_passAccesses {ps : PassSpec} {m : Memory} {D : Desc} {x : Access} :
    x ∈ passAccesses ps m D ↔ ∃ r < D.lines, ∃ j < D.dests, x ∈ pixelAccesses ps m D r (D.firstDest + j) := by
  simp [passAccesses, lineAccesses]

/-- Bytes are numbered within a pixel as bytes of its channels. -/
theorem channelByte_lt {f : PixFmt} {c k : Nat} (hc : c < fmtChans f) (hk : k < fmtSw f) :
    c * fmtSw f + k < fmtBpp f := by
  have hle : (c + 1) * fmtSw f ≤ fmtChans f * fmtSw f := Nat.mul_le_mul_right _ hc
  rw [Nat.add_mul, Nat.one_mul] at hle
  rw [fmtBpp]
  omega

theorem isDestination_of_wr_mem {ps : PassSpec} {m : Memory} {D : Desc} {r j : Nat} (hr : r < D.lines) (hj : j < D.dests)
    {a : Addr} {b : Byte} (h : Access.wr a b ∈ pixelAccesses ps m D r (D.firstDest + j)) : IsDestination ps D a := by
  obtain ⟨c, hc, k, hk, ha, -⟩ := wr_mem_pixelAccesses.1 h
  exact ⟨r, hr, j, hj, _, channelByte_lt hc hk, ha⟩

section
variable {ps : PassSpec} {P : Port} {m : Memory} {D : Desc} {e : Engine}

theorem passLine_of_ready {r : Nat} (hr : r < D.lines) (he : Agree P e.mem m)
    (hlen : ∀ r xc, (samplesOf ps m D r xc).length = fmtChans ps.dst)
    (hdst : ∀ a, IsDestination ps D a → P.dst.has a = true)
    (hready : ∀ j < D.dests, PixelReady ps P m D r (D.firstDest + j)) :
    ∃ e', passLine ps P D r e = .ok () e' ∧ Makes (lineAccesses ps m D r D.dests) e e' := by
  refine loopUp_makes D.dests D.firstDest he (fun d hd hd' a b hab => ?_) fun d e1 hd hd' he1 => ?_
  · obtain ⟨j, rfl⟩ := Nat.exists_eq_add_of_le hd
    exact hdst a (isDestination_of_wr_mem hr (by omega) hab)
  · obtain ⟨j, rfl⟩ := Nat.exists_eq_add_of_le hd
    obtain ⟨e2, hpixel, hbus, hmem, hdraws⟩ :=
      passPixel_of_ready ps P m D r (D.firstDest + j) e1 he1 (hlen r) (hready j (by omega))
    exact ⟨e2, hpixel, hbus, hmem, hdraws⟩

/-- The listing of a ready pass makes the accesses of the formula (R92). -/
theorem passLines_of_ready (he : Agree P e.mem m) (hlen : ∀ r xc, (samplesOf ps m D r xc).length = fmtChans ps.dst)
    (hdst : ∀ a, IsDestination ps D a → P.dst.has a = true)
    (hready : ∀ r < D.lines, ∀ j < D.dests, PixelReady ps P m D r (D.firstDest + j)) :
    ∃ e', passLines ps P D e = .ok () e' ∧ Makes (passAccesses ps m D) e e' := by
  have hloop := loopUp_makes (body := passLine ps P D) (acc := fun r => lineAccesses ps m D r D.dests) D.lines 0 he
    (fun r _ hr a b hab => ?_) fun r e1 _ hr he1 => ?_
  · simpa only [passLines, passAccesses, Nat.zero_add] using hloop
  · obtain ⟨j, hj, hab⟩ := List.mem_flatMap.1 hab
    exact hdst a (isDestination_of_wr_mem (by omega) (List.mem_range.1 hj) hab)
  · exact passLine_of_ready (by omega) he1 hlen hdst (hready r (by omega))

end

/-- A ready pass completes, with exactly the accesses of the listing made (R92, R105, R177). -/
theorem exec_of_passReady {i : Instr} {ps : PassSpec} {s : State} (hi : passSpecOf i = some ps) (h : PassReady ps s) :
    ∃ e, Makes (passAccesses ps s.mem s.rf.desc) (startEngine s) e ∧
      exec i s = .next (CmdEnd.done (commitEngine (acceptCommand (encode i) s) e)).finish := by
  obtain ⟨ha, hready⟩ := h
  have hexec := exec_of_passAccepted hi ha
  obtain ⟨-, -, hmin⟩ := ha
  obtain ⟨e, hlines, hmade⟩ := passLines_of_ready (e := startEngine s) (Agree.refl (passPort ps s) s.mem)
    (samplesOf_length hi s.mem s.rf.desc) (fun a => (passPort_has_iff ps s a hmin).2) hready
  rw [hlines] at hexec
  exact ⟨e, hmade, hexec⟩

end Sys2Proof.Machine
end

section
/-! The value of a channel fits the bytes of its channel (R80, R81, R153), and different destination bytes lie at different
addresses (R51, R198); so what a ready pass leaves at a destination pixel is its value. -/

namespace Sys2Proof.Machine

/-! ## The values fit their channels -/

theorem clamp8_le (v : Int) : clamp8 v ≤ 255 := by
  unfold clamp8; split_ifs <;> omega

theorem clamp16_le (v : Int) : clamp16 v ≤ 65535 := by
  unfold clamp16; split_ifs <;> omega

/-- The rounded mean of bytes is a byte (R153). -/
theorem roundMean_le {p n : Int} (hn : 0 < n) (hp : p ≤ 255 * n) : roundMean p n ≤ 255 := by
  have hdiv : (2 * p + n) / (2 * n) < 256 := Int.ediv_lt_of_lt_mul (by omega) (by omega)
  unfold roundMean
  omega

theorem peek_one (m : Memory) (a : Addr) : peek m 1 a = (m.read a).toNat := by
  simp [peek, peekFrom]

theorem nearest_coef (m : Memory) (D : Desc) (d i : Nat) :
    coefOf nearestSpec m D d i = 0 ∨ coefOf nearestSpec m D d i = 1 := by
  unfold coefOf coefValue nearestSpec
  simp only
  split_ifs <;> simp

theorem nearest_sample_le (m : Memory) (D : Desc) (r : Nat) (xc : Int) (c : Nat) :
    (samplesOf nearestSpec m D r xc).getD c 0 ≤ 255 := by
  have hall : ∀ v ∈ samplesOf nearestSpec m D r xc, v ≤ 255 := by
    intro v hv
    simp only [samplesOf, nearestSpec, Bool.false_eq_true, if_false, List.mem_map] at hv
    obtain ⟨k, -, rfl⟩ := hv
    rw [show fmtSw .ycc8 = 1 from rfl, peek_one]
    omega
  rw [List.getD_eq_getElem?_getD]
  cases h : (samplesOf nearestSpec m D r xc)[c]? with
  | none => simp
  | some v => exact hall v (List.mem_of_getElem? h)

/-- The number of selected taps is not negative, and no sum of selected samples is more than 255 times it (R152). -/
theorem nearest_sums (m : Memory) (D : Desc) (r d c : Nat) :
    0 ≤ weightSum nearestSpec m D d ∧ laneSum nearestSpec m D r d c ≤ 255 * weightSum nearestSpec m D d := by
  unfold weightSum laneSum
  induction List.range D.taps with
  | nil => simp
  | cons i l ih =>
    have hsample := nearest_sample_le m D r (coordOf m D d i) c
    simp only [List.map_cons, List.sum_cons]
    rcases nearest_coef m D d i with h | h <;> rw [h] <;> omega

/-- The value of a channel fits its bytes (R103, R105, R153). -/
theorem pixelValue_lt {i : Instr} {ps : PassSpec} (hi : passSpecOf i = some ps) {m : Memory} {D : Desc} {d : Nat}
    (hw : accWrap ps.acc (weightSum ps m D d) ≠ 0) (r c : Nat) : pixelValue ps m D r d c < 256 ^ fmtSw ps.dst := by
  have h8 : ∀ f, fmtSw f = 1 → pixelValue (fixed8Spec f) m D r d c < 256 ^ fmtSw f := by
    intro f hf
    rw [hf]
    exact Nat.lt_succ_of_le (clamp8_le _)
  have h16 : ∀ row : PassSpec, row.finish = .clamp16 → fmtSw row.dst = 2 →
      pixelValue row m D r d c < 256 ^ fmtSw row.dst := by
    intro row hf hsw
    rw [hsw, pixelValue, finishValue, hf]
    exact Nat.lt_succ_of_le (clamp16_le _)
  cases i <;> simp only [passSpecOf, Option.some.injEq, reduceCtorEq] at hi <;> subst hi
  case nnYcc8 =>
    obtain ⟨hpos, hle⟩ := nearest_sums m D r d c
    have hne : weightSum nearestSpec m D d ≠ 0 := hw
    exact Nat.lt_succ_of_le (roundMean_le (lt_of_le_of_ne hpos hne.symm) hle)
  case rgba8 | gray8 | ycc8 => exact h8 _ rfl
  all_goals exact h16 _ rfl rfl

/-! ## Different destination bytes lie at different addresses -/

theorem mul_add_inj {s q q' x x' : Nat} (hx : x < s) (hx' : x' < s) (h : q * s + x = q' * s + x') : q = q' ∧ x = x' := by
  have hq : q = q' := by
    have hdiv := congrArg (· / s) h
    simpa [Nat.mul_comm _ s, Nat.mul_add_div (Nat.zero_lt_of_lt hx), Nat.div_eq_of_lt hx, Nat.div_eq_of_lt hx'] using hdiv
  exact ⟨hq, Nat.add_left_cancel (hq ▸ h)⟩

/-- Where the destination pixels share no bytes, an address is that of one byte of one pixel at most (R51, R198). -/
theorem dstAddr_inj {ps : PassSpec} {rf : RegFile} (hmin : 0 ≤ rf.desc.dMin) (hdis : DestinationsDisjoint ps rf.desc)
    {r r' j j' b b' : Nat} (hr : r < rf.desc.lines) (hr' : r' < rf.desc.lines) (hj : j < rf.desc.dests)
    (hj' : j' < rf.desc.dests) (hb : b < fmtBpp ps.dst) (hb' : b' < fmtBpp ps.dst)
    (h : dstAddr rf.desc (fmtBpp ps.dst) r (rf.desc.firstDest + j) + BitVec.ofNat 64 b =
      dstAddr rf.desc (fmtBpp ps.dst) r' (rf.desc.firstDest + j') + BitVec.ofNat 64 b') :
    r = r' ∧ j = j' ∧ b = b' := by
  have hrow : ∀ {r b}, r < rf.desc.lines → b < fmtBpp ps.dst →
      r * fmtBpp ps.dst + b < rf.desc.lines * fmtBpp ps.dst := fun {r b} hr hb =>
    calc r * fmtBpp ps.dst + b < (r + 1) * fmtBpp ps.dst := by rw [Nat.add_mul, Nat.one_mul]; omega
      _ ≤ rf.desc.lines * fmtBpp ps.dst := Nat.mul_le_mul_right _ hr
  have hbound : rf.desc.dests * rf.desc.dstStride + rf.desc.lines * fmtBpp ps.dst ≤ 2 ^ 64 :=
    dstRegion_bound rf _ (fmtBpp_le _) hmin
  have hspace : ∀ {j x}, j < rf.desc.dests → x < rf.desc.lines * fmtBpp ps.dst →
      j * rf.desc.dstStride + x < 2 ^ 64 := fun {j x} hj hx => by
    have := Nat.mul_le_mul_right rf.desc.dstStride hj.le
    omega
  have hx := hrow hr hb
  have hx' := hrow hr' hb'
  rw [dstAddr_eq _ _ _ _ hmin, dstAddr_eq _ _ _ _ hmin, BitVec.add_assoc, BitVec.add_assoc, ← BitVec.ofNat_add,
    ← BitVec.ofNat_add, Nat.add_assoc, Nat.add_assoc] at h
  have hoffset := addr_add_inj (hspace hj hx) (hspace hj' hx') h
  obtain ⟨hjj, hin⟩ : j = j' ∧ r * fmtBpp ps.dst + b = r' * fmtBpp ps.dst + b' := by
    rcases hdis with hone | hstride
    · obtain rfl : j = j' := by omega
      exact ⟨rfl, by omega⟩
    · exact mul_add_inj (by omega) (by omega) hoffset
  obtain ⟨hrr, hbb⟩ := mul_add_inj hb hb' hin
  exact ⟨hrr, hjj, hbb⟩

/-! ## What a ready pass stores -/

/-- After the writes of a pass each destination pixel reads as its value (R45, R51, R105). -/
theorem peek_passAccesses {ps : PassSpec} {m : Memory} {rf : RegFile} (hm : m.wf) (hmin : 0 ≤ rf.desc.dMin)
    (hdis : DestinationsDisjoint ps rf.desc) {r j c : Nat} (hr : r < rf.desc.lines) (hj : j < rf.desc.dests)
    (hc : c < fmtChans ps.dst)
    (hv : pixelValue ps m rf.desc r (rf.desc.firstDest + j) c < 256 ^ fmtSw ps.dst) :
    peek (applyWrites m (passAccesses ps m rf.desc)) (fmtSw ps.dst)
      (dstAddr rf.desc (fmtBpp ps.dst) r (rf.desc.firstDest + j) + BitVec.ofNat 64 (c * fmtSw ps.dst)) =
      pixelValue ps m rf.desc r (rf.desc.firstDest + j) c := by
  refine peek_applyWrites hm hv (fun x hx => ?_) fun k hk b hb => ?_
  · refine mem_passAccesses.2 ⟨r, hr, j, hj, List.mem_append_right _ ?_⟩
    exact List.mem_flatMap.2 ⟨c, List.mem_range.2 hc, hx⟩
  · obtain ⟨r', hr', j', hj', hb⟩ := mem_passAccesses.1 hb
    obtain ⟨c', hc', k', hk', haddr, rfl⟩ := wr_mem_pixelAccesses.1 hb
    rw [BitVec.add_assoc, ← BitVec.ofNat_add] at haddr
    obtain ⟨rfl, rfl, hbyte⟩ :=
      dstAddr_inj hmin hdis hr hr' hj hj' (channelByte_lt hc hk) (channelByte_lt hc' hk') haddr
    obtain ⟨rfl, rfl⟩ := mul_add_inj hk hk' hbyte
    rfl

/-- Settles O29: memory takes the writes of the listing, in which every destination byte is written with one value; the other
bytes are left by the frame of every pass. -/
theorem readyPassStoresEveryPixelValue : Obligations.ReadyPassStoresEveryPixelValue := by
  intro i ps s hi hs hdis hwf
  obtain ⟨e, hmade, hexec⟩ := exec_of_passReady hi hs
  obtain ⟨⟨herr, -, hmin⟩, hready⟩ := hs
  refine ⟨_, hexec, by simp [Completed, herr], fun r hr j hj c hc => ?_,
    (passWritesOnlyItsDestination i ps s _ hi hexec).1⟩
  obtain ⟨-, -, hweight⟩ := hready r hr j hj
  rw [finish_done_mem, commitEngine_mem, hmade.mem, startEngine_mem]
  exact peek_passAccesses hwf hmin hdis hr hj hc (pixelValue_lt hi hweight r c)

end Sys2Proof.Machine
end

section
/-! The decoder (30_encoding): the rows of R62 are the encoder's words, the legal fields of R66 are the encoder's fields, and
what a write of `CMD` does with a word of either kind. -/

namespace Sys2Proof

/-! ## Decoding is looking a word up among the encoder's words (R62, R67) -/

theorem matchTable_word {r : CmdWord × Instr} (h : r ∈ matchTable) : r.1 = encode r.2 := by
  revert r
  decide

theorem decode_eq_ok_iff_lookup {w : CmdWord} {i : Instr} : decode w = .ok i ↔ matchTable.lookup w = some i := by
  unfold decode
  cases matchTable.lookup w <;> simp

theorem decode_encode (i : Instr) : decode (encode i) = .ok i := by
  cases i <;> decide

theorem decode_eq_ok_iff {w : CmdWord} {i : Instr} : decode w = .ok i ↔ w = encode i := by
  constructor
  · intro h
    obtain ⟨l₁, l₂, htable, -⟩ := List.lookup_eq_some_iff.1 (decode_eq_ok_iff_lookup.1 h)
    have hrow : (w, i) ∈ matchTable := by simp [htable]
    exact matchTable_word hrow
  · rintro rfl
    exact decode_encode i

/-! ## The fields of a legal word (R60, R63, R66) -/

theorem joinWord_splitWord (w : CmdWord) : joinWord (splitWord w) = w := by
  unfold joinWord splitWord
  rw [BitVec.extractLsb'_append_extractLsb'_eq_extractLsb' (by rfl),
    BitVec.extractLsb'_append_extractLsb'_eq_extractLsb' (by rfl)]
  simp

/-- The law of Laws/PerInstr.lean, for every instruction. -/
theorem encodingFields : ∀ i, Laws.EncodingFields.Statement i
  | .clamp8 => Laws.EncodingFields.clamp8
  | .clamp16 => Laws.EncodingFields.clamp16
  | .genRgba8 => Laws.EncodingFields.genRgba8
  | .genRgba16 => Laws.EncodingFields.genRgba16
  | .genGray8 => Laws.EncodingFields.genGray8
  | .genGray16 => Laws.EncodingFields.genGray16
  | .genYcc8 => Laws.EncodingFields.genYcc8
  | .rgba8 => Laws.EncodingFields.rgba8
  | .rgba16 => Laws.EncodingFields.rgba16
  | .gray8 => Laws.EncodingFields.gray8
  | .gray16 => Laws.EncodingFields.gray16
  | .ycc8 => Laws.EncodingFields.ycc8
  | .nnYcc8 => Laws.EncodingFields.nnYcc8

/-- The four checks leave the thirteen rows of R62: eight opcodes of format N with `SFMT` 0, and opcode 0x10 with
`SFMT` 0 to 4. -/
theorem CmdFields.exists_encodeFields_of_wf {f : CmdFields} (h : f.wf = true) : ∃ i, encodeFields i = f := by
  obtain ⟨zero, sfmt, opc⟩ := f
  simp only [CmdFields.wf, CmdFields.zeroOk, CmdFields.opcOk, CmdFields.formatNOk, CmdFields.sfmtOk, CmdFields.isFormatG,
    List.contains_eq_mem, Bool.and_eq_true, Bool.or_eq_true, Bool.not_eq_true', beq_iff_eq, beq_eq_false_iff_ne,
    decide_eq_true_eq] at h
  obtain ⟨⟨⟨rfl, hopc⟩, hformatN⟩, hsfmt⟩ := h
  by_cases hG : opc = 0x10#8
  · have hle : sfmt.toNat ≤ 4 := hsfmt.resolve_left fun hne => hne hG
    have hval : sfmt = 0#3 ∨ sfmt = 1#3 ∨ sfmt = 2#3 ∨ sfmt = 3#3 ∨ sfmt = 4#3 := by bv_omega
    subst hG
    rcases hval with rfl | rfl | rfl | rfl | rfl
    · exact ⟨.genRgba8, rfl⟩
    · exact ⟨.genRgba16, rfl⟩
    · exact ⟨.genGray8, rfl⟩
    · exact ⟨.genGray16, rfl⟩
    · exact ⟨.genYcc8, rfl⟩
  · obtain rfl : sfmt = 0#3 := hformatN.resolve_left hG
    simp only [List.mem_cons, List.not_mem_nil, or_false, hG, false_or] at hopc
    rcases hopc with rfl | rfl | rfl | rfl | rfl | rfl | rfl | rfl
    · exact ⟨.clamp8, rfl⟩
    · exact ⟨.clamp16, rfl⟩
    · exact ⟨.rgba8, rfl⟩
    · exact ⟨.rgba16, rfl⟩
    · exact ⟨.gray8, rfl⟩
    · exact ⟨.gray16, rfl⟩
    · exact ⟨.ycc8, rfl⟩
    · exact ⟨.nnYcc8, rfl⟩

/-- The legal words are those that decode. -/
theorem splitWord_wf_iff {w : CmdWord} : (splitWord w).wf = true ↔ ∃ i, decode w = .ok i := by
  constructor
  · intro h
    obtain ⟨i, hi⟩ := CmdFields.exists_encodeFields_of_wf h
    have hw : w = encode i := by rw [encode, hi, joinWord_splitWord]
    exact ⟨i, decode_eq_ok_iff.2 hw⟩
  · rintro ⟨i, h⟩
    obtain ⟨hwf, hsplit⟩ := encodingFields i rfl
    rw [decode_eq_ok_iff.1 h, hsplit]
    exact hwf

theorem decode_eq_error_iff {w : CmdWord} : (∃ r, decode w = .error r) ↔ (splitWord w).wf = false := by
  rw [← Bool.not_eq_true, splitWord_wf_iff]
  cases decode w <;> simp

end Sys2Proof

namespace Sys2Proof.Machine

/-! ## The write of `CMD` (R14, R61, R66) -/

theorem hostOp_wr_zero_of_legal {v : HostWord} {i : Instr} (h : decode (v.setWidth 32) = .ok i) (s : State) :
    hostOp (.wr 0 v) s = exec i s := by
  simp [hostOp, hostWrite, hostWriteCmd, h]

theorem hostOp_wr_zero_of_illegal {v : HostWord} {r : Illegal} (h : decode (v.setWidth 32) = .error r) (s : State) :
    hostOp (.wr 0 v) s = .next (execIllegal (v.setWidth 32) s) := by
  simp [hostOp, hostWrite, hostWriteCmd, h]

/-- An illegal word is accepted and at once faults (R66, R166). -/
theorem execIllegal_of_ok {w : CmdWord} {s : State} (h : statusErr s.rf.status = false) :
    execIllegal w s = raiseFault .illegalCmd (w.setWidth 64) (acceptCommand w s) := by
  rw [execIllegal, runCommand_of_ok h, finish_faulted]

/-! ## The step that performs a request (R38, R69) -/

theorem step_of_pending {s : State} {q : HostReq} {rest : List HostReq} (hp : s.pending = q :: rest)
    (hq : q.inst < s.platform.numInst) : step s = hostOp q.op (selectInstance q.inst { s with pending := rest }) := by
  simp [step, hp, hostRequest, HostReq.wf, hq]

/-- `CMD` takes the word that `withFetchWord` puts into the request: bits 63:32 of the value are dropped (R14). -/
theorem setWidth_fetchValue (w : CmdWord) : (BitVec.ofNat 64 (w.toNat % 2 ^ 32)).setWidth 32 = w := by
  apply BitVec.eq_of_toNat_eq
  have hw : w.toNat < 2 ^ 32 := w.isLt
  simp only [BitVec.toNat_setWidth, BitVec.toNat_ofNat]
  omega

/-! ## The obligations -/

/-- Settles O7: the decoder's table holds exactly the encoder's words. -/
theorem decodeIsTheInverseOfEncode : Obligations.DecodeIsTheInverseOfEncode :=
  fun _ _ => decode_eq_ok_iff

/-- Settles O8: the checks of R66 are those of the words that decode; the fault is acceptance followed by fault entry. -/
theorem illegalWordFaults : Obligations.IllegalWordFaults := by
  refine ⟨fun _ => decode_eq_error_iff, fun s v herr ⟨r, hr⟩ => ?_⟩
  refine ⟨raiseFault .illegalCmd ((v.setWidth 32 : CmdWord).setWidth 64) (acceptCommand (v.setWidth 32) s), ?_, ?_, ?_, ?_,
    ?_, rfl⟩
  · rw [hostOp_wr_zero_of_illegal hr, execIllegal_of_ok herr]
  all_goals simp [Cause.code]

/-- Settles O4: the step is the write of `CMD` with the named register file selected; a placed word names the one
already selected. -/
theorem stepRunsTheDecodedCommand : Obligations.StepRunsTheDecodedCommand := by
  have request : ∀ (s : State) (k : Nat) (v : HostWord) (rest : List HostReq) (i : Instr),
      s.pending = { inst := k, op := .wr 0 v } :: rest → k < s.platform.numInst → decode (v.setWidth 32) = .ok i →
      step s = exec i (selectInstance k { s with pending := rest }) := by
    intro s k v rest i hp hk hi
    rw [step_of_pending hp hk, hostOp_wr_zero_of_legal hi]
  refine ⟨request, fun s w i hsel hi => ?_⟩
  calc step (s.withFetchWord 32 w.toNat)
      = exec i (selectInstance s.sel s) := request _ s.sel _ s.pending i rfl hsel (by rw [setWidth_fetchValue, hi])
    _ = exec i s := by rw [selectInstance_self]

/-- Settles O6: each word is the one that the encoder writes. -/
theorem wordsOfTheOpcodeMapDecode : Obligations.WordsOfTheOpcodeMapDecode := by
  refine ⟨?_, ?_, ?_, ?_, ?_, ?_⟩ <;> exact decode_eq_ok_iff.2 (by decide)

end Sys2Proof.Machine
end

section
/-! The clamps and their commands (40_clamp): both clamps are one function of their upper limit, so each property is proved
once for every limit. -/

namespace Sys2Proof.Machine

/-! ## One clamp for every upper limit (R80, R81, R85) -/

/-- The policy of R80 and R81 over 0 to `hi`. -/
def clampTo (hi : Nat) (v : Int) : Nat := if v < 0 then 0 else if hi < v then hi else v.toNat

theorem clamp8_eq_clampTo : clamp8 = clampTo 255 := rfl

theorem clamp16_eq_clampTo : clamp16 = clampTo 65535 := rfl

theorem coe_clampTo (hi : Nat) (v : Int) : (clampTo hi v : Int) = min (hi : Int) (max 0 v) := by
  unfold clampTo
  split_ifs <;> omega

theorem clampTo_mono (hi : Nat) : Monotone (clampTo hi) := by
  intro v w h
  have hv := coe_clampTo hi v
  have hw := coe_clampTo hi w
  omega

/-- A wider clamp before a clamp changes nothing; with `hi = lo` the clamp is idempotent. -/
theorem clampTo_clampTo {lo hi : Nat} (h : lo ≤ hi) (v : Int) : clampTo lo (clampTo hi v) = clampTo lo v := by
  have hinner := coe_clampTo hi v
  have houter := coe_clampTo lo (clampTo hi v)
  have hv := coe_clampTo lo v
  omega

/-! ## The clamp commands (R82, R83) -/

/-- The bits stored in `RESULT`: the limits may be applied in either order. -/
theorem ofNat_clampTo (n hi : Nat) (v : Int) :
    BitVec.ofNat n (clampTo hi v) = BitVec.ofInt n (max 0 (min (hi : Int) v)) := by
  have hv : max 0 (min (hi : Int) v) = clampTo hi v := by rw [coe_clampTo]; omega
  rw [hv, BitVec.ofInt_natCast]

/-- With no fault latched, a command that runs a clamp is accepted, stores the clamped operand and is done (R61). -/
theorem exec_of_clampBody {i : Instr} {hi : Nat} {s : State} (herr : statusErr s.rf.status = false)
    (hexec : exec i s = .next (runCommand (encode i) (clampBody (clampTo hi)) s)) :
    ∃ t, exec i s = .next t ∧ statusDone t.rf.status = true ∧ statusErr t.rf.status = false ∧
      t = { s with
        bus := []
        rf := { s.rf with
          cmd := encode i, status := setDone true s.rf.status
          result := BitVec.ofInt 16 (max 0 (min (hi : Int) s.rf.opa.toInt)) } } := by
  rw [runCommand_of_ok herr] at hexec
  refine ⟨_, hexec, ?_, ?_, ?_⟩
  · simp [clampBody]
  · simp [clampBody, herr]
  · simp [clampBody, CmdEnd.finish, acceptCommand, ofNat_clampTo]

/-! ## The obligations -/

/-- Settles O15: CLAMP8 runs the clamp to 255. -/
theorem clamp8StoresTheClampedOperand : Obligations.Clamp8StoresTheClampedOperand :=
  fun _ herr => exec_of_clampBody (i := .clamp8) (hi := 255) herr rfl

/-- Settles O16: CLAMP16 runs the clamp to 65535. -/
theorem clamp16StoresTheClampedOperand : Obligations.Clamp16StoresTheClampedOperand :=
  fun _ herr => exec_of_clampBody (i := .clamp16) (hi := 65535) herr rfl

/-- Settles O17: idempotence and composition are all a clamp after one at least as wide. -/
theorem clampFunctionsAreMinMax : Obligations.ClampFunctionsAreMinMax := by
  unfold Obligations.ClampFunctionsAreMinMax
  rw [clamp8_eq_clampTo, clamp16_eq_clampTo]
  refine ⟨fun v => ⟨coe_clampTo 255 v, coe_clampTo 65535 v⟩, fun v w h => ⟨clampTo_mono _ h, clampTo_mono _ h⟩, fun v => ?_,
    ?_⟩
  · exact ⟨clampTo_clampTo le_rfl v, clampTo_clampTo le_rfl v, clampTo_clampTo (by omega) v⟩
  · decide

end Sys2Proof.Machine
end

section
/-! The arithmetic of a pass (41_pass_common): edge replication (R94), wrapped accumulation (R101) and its headroom (R102),
truncating division (R104). -/

namespace Sys2Proof.Machine

/-! ## Wrapping (R7, R101) -/

theorem two_pow_eq_two_mul {w : Nat} (hw : 0 < w) : (2 : Int) ^ w = 2 * 2 ^ (w - 1) := by
  rw [← pow_succ', Nat.sub_add_cancel hw]

/-- Exactly the values of the signed type are left alone. -/
theorem wrapS_eq_self_iff {w : Nat} (hw : 0 < w) {v : Int} :
    wrapS w v = v ↔ -(2 ^ (w - 1)) ≤ v ∧ v < 2 ^ (w - 1) := by
  have htwo : ((2 ^ w : Nat) : Int) = 2 * 2 ^ (w - 1) := by rw [Nat.cast_pow]; exact two_pow_eq_two_mul hw
  unfold wrapS
  constructor
  · intro h
    have hle := Int.le_bmod (x := v) (Nat.two_pow_pos w)
    have hlt := Int.bmod_lt (x := v) (Nat.two_pow_pos w)
    rw [h] at hle hlt
    omega
  · rintro ⟨hle, hlt⟩
    exact Int.bmod_eq_of_le_mul_two (by omega) (by omega)

/-- The first value above the type wraps to its least one. -/
theorem wrapS_two_pow {w : Nat} (hw : 0 < w) : wrapS w (2 ^ (w - 1)) = -(2 ^ (w - 1)) := by
  have hmod : (2 : Int) ^ (w - 1) = -(2 ^ (w - 1)) + ((2 ^ w : Nat) : Int) := by
    rw [Nat.cast_pow, Nat.cast_ofNat, two_pow_eq_two_mul hw]; ring
  have hpos : (0 : Int) < 2 ^ (w - 1) := by positivity
  calc wrapS w (2 ^ (w - 1)) = wrapS w (-(2 ^ (w - 1))) := by
        conv_lhs => rw [hmod]
        exact Int.add_bmod_right _ _
    _ = -(2 ^ (w - 1)) := (wrapS_eq_self_iff hw).2 (by omega)

/-- Wrapping after every term, from a wrapped start, is wrapping the sum. -/
theorem foldl_accWrap_add (t : AccType) {α : Type} (f : α → Int) (l : List α) (x : Int) :
    l.foldl (fun a y => accWrap t (a + f y)) (accWrap t x) = accWrap t (x + (l.map f).sum) := by
  induction l generalizing x with
  | nil => simp
  | cons y l ih =>
    rw [List.foldl_cons, accWrap_add_left, ih, List.map_cons, List.sum_cons, Int.add_assoc]

/-! ## Headroom (R102) -/

theorem abs_sum_le_length_mul {l : List Int} {B : Int} (h : ∀ x ∈ l, |x| ≤ B) : |l.sum| ≤ l.length * B := by
  calc |l.sum| ≤ (l.map abs).sum := List.le_sum_of_subadditive abs abs_zero.le abs_add_le l
    _ ≤ (l.map abs).length • B := List.sum_le_card_nsmul _ _ (by simpa using h)
    _ = l.length * B := by simp

/-- A product of a coefficient of at most `K` and a sample of at most `S` in size, and the coefficient itself. -/
theorem abs_coef_mul_sample_le {k : Int} {v K S : Nat} (hk : |k| ≤ K) (hv : v ≤ S) :
    |k * (v : Int)| ≤ ((K * S : Nat) : Int) := by
  rw [abs_mul, Nat.abs_cast, Nat.cast_mul]
  exact mul_le_mul hk (by omega) (by omega) (by omega)

/-- While taps, coefficients and samples are bounded and the product of the bounds is inside the type, neither sum wraps. -/
theorem accWrap_sums_of_bounded {w K S N : Nat} (hw : 0 < w) (hS : 0 < S) (hfit : N * (K * S) < 2 ^ (w - 1))
    {taps : List (Int × Nat)} (hlen : taps.length ≤ N) (h : ∀ kv ∈ taps, |kv.1| ≤ K ∧ kv.2 ≤ S) :
    accWrap (.signed w) ((taps.map fun kv => kv.1 * (kv.2 : Int)).sum) = (taps.map fun kv => kv.1 * (kv.2 : Int)).sum ∧
    accWrap (.signed w) ((taps.map Prod.fst).sum) = (taps.map Prod.fst).sum := by
  have hfits : ∀ f : Int × Nat → Int, (∀ kv ∈ taps, |f kv| ≤ ((K * S : Nat) : Int)) →
      accWrap (.signed w) ((taps.map f).sum) = (taps.map f).sum := by
    intro f hf
    have habs : |(taps.map f).sum| < 2 ^ (w - 1) :=
      calc |(taps.map f).sum| ≤ (taps.map f).length * ((K * S : Nat) : Int) := abs_sum_le_length_mul (List.forall_mem_map.2 hf)
        _ = ((taps.length * (K * S) : Nat) : Int) := by simp
        _ ≤ ((N * (K * S) : Nat) : Int) := by exact_mod_cast Nat.mul_le_mul_right _ hlen
        _ < 2 ^ (w - 1) := by exact_mod_cast hfit
    obtain ⟨hlo, hhi⟩ := abs_lt.1 habs
    exact (wrapS_eq_self_iff hw).2 ⟨hlo.le, hhi⟩
  refine ⟨hfits _ fun kv hkv => ?_, hfits _ fun kv hkv => ?_⟩
  · obtain ⟨hk, hv⟩ := h kv hkv
    exact abs_coef_mul_sample_le hk hv
  · obtain ⟨hk, -⟩ := h kv hkv
    exact hk.trans (by exact_mod_cast Nat.le_mul_of_pos_right K hS)

/-! ## Truncating division (R7, R104) -/

/-- What truncation leaves is the remainder with the sign of the dividend. -/
theorem sub_mul_truncDiv (a b : Int) : a - b * truncDiv a b = a.tmod b := (Int.tmod_def a b).symm

theorem abs_tmod_lt (a : Int) {b : Int} (hb : b ≠ 0) : |a.tmod b| < |b| := by
  rw [Int.abs_eq_natAbs, Int.abs_eq_natAbs, Int.natAbs_tmod]
  exact_mod_cast Nat.mod_lt _ (Int.natAbs_pos.2 hb)

theorem tmod_mul_self_nonneg (a b : Int) : 0 ≤ a.tmod b * a := by
  rw [← Int.sign_nonneg_iff, Int.sign_mul, Int.sign_tmod]
  split
  · simp
  · exact mul_self_nonneg _

theorem truncDiv_eq_zero {a b : Int} (h : |a| < |b|) : truncDiv a b = 0 := by
  rw [Int.abs_eq_natAbs, Int.abs_eq_natAbs, Nat.cast_lt] at h
  rw [← Int.natAbs_eq_zero, truncDiv, Int.natAbs_tdiv]
  exact Nat.div_eq_of_lt h

/-- A quotient that is not 0 is positive exactly when dividend and divisor have one sign. -/
theorem truncDiv_mul_mul_pos {a b : Int} (h : truncDiv a b ≠ 0) : 0 < truncDiv a b * a * b := by
  have hsign : (truncDiv a b).sign = a.sign * b.sign := by
    have hcases := Int.sign_tdiv a b
    split at hcases
    · exact absurd (Int.sign_eq_zero_iff_zero.1 hcases) h
    · exact hcases
  have hpos : 0 < (truncDiv a b).sign * (truncDiv a b).sign := mul_self_pos.2 (mt Int.sign_eq_zero_iff_zero.1 h)
  rwa [← Int.sign_pos_iff, mul_assoc, Int.sign_mul, Int.sign_mul, ← hsign]

/-- The one quotient of values of the type that is not of the type (R104). -/
theorem two_pow_le_truncDiv_iff {w : Nat} {a b : Int} (ha : -(2 ^ (w - 1)) ≤ a) (ha' : a < 2 ^ (w - 1)) :
    2 ^ (w - 1) ≤ truncDiv a b ↔ a = -(2 ^ (w - 1)) ∧ b = -1 := by
  have hpos : (0 : Int) < 2 ^ (w - 1) := by positivity
  constructor
  · intro h
    have hquot : (truncDiv a b).natAbs = a.natAbs / b.natAbs := Int.natAbs_tdiv a b
    have hle : a.natAbs / b.natAbs ≤ a.natAbs := Nat.div_le_self _ _
    have hmin : a = -(2 ^ (w - 1)) := by omega
    have hunit : b.natAbs = 1 := by
      rcases Nat.lt_trichotomy b.natAbs 1 with hzero | hone | hmany
      · rw [show b.natAbs = 0 by omega, Nat.div_zero] at hquot; omega
      · exact hone
      · have := Nat.div_lt_self (show 0 < a.natAbs by omega) hmany; omega
    refine ⟨hmin, (Int.natAbs_eq_iff.1 hunit).resolve_left ?_⟩
    rintro rfl
    rw [truncDiv, Nat.cast_one, Int.tdiv_one] at h
    omega
  · rintro ⟨rfl, rfl⟩
    simp [truncDiv]

theorem neg_two_pow_le_truncDiv {w : Nat} {a : Int} (b : Int) (ha : -(2 ^ (w - 1)) ≤ a) (ha' : a < 2 ^ (w - 1)) :
    -(2 ^ (w - 1)) ≤ truncDiv a b := by
  have hle : (truncDiv a b).natAbs ≤ a.natAbs := Int.natAbs_tdiv_le_natAbs a b
  omega

/-! ## The obligations -/

/-- Settles O19: zero is wrapped, and so is every partial sum. -/
theorem accumulationIsTheWrappedSum : Obligations.AccumulationIsTheWrappedSum := by
  intro t taps
  have h := foldl_accWrap_add t (fun kv : Int × Nat => kv.1 * (kv.2 : Int)) taps 0
  rwa [accWrap_zero, Int.zero_add] at h

/-- Settles O20: the product of the bounds is inside the type for 65535 and for 257 taps; 258 taps of the extreme values
leave the 32-bit type. -/
theorem accumulatorHeadroom : Obligations.AccumulatorHeadroom := by
  refine ⟨fun taps hlen h => ?_, fun taps hlen h => ?_, List.replicate 258 (-(2 ^ 15), 255), List.length_replicate, ?_, ?_⟩
  · refine accWrap_sums_of_bounded (K := 2 ^ 31) (S := 65535) (by decide) (by decide) (by decide) hlen fun kv hkv => ?_
    obtain ⟨hlo, hhi, hv⟩ := h kv hkv
    exact ⟨abs_le.2 ⟨hlo, hhi.le⟩, hv⟩
  · refine accWrap_sums_of_bounded (K := 2 ^ 15) (S := 255) (by decide) (by decide) (by decide) hlen fun kv hkv => ?_
    obtain ⟨hlo, hhi, hv⟩ := h kv hkv
    exact ⟨abs_le.2 ⟨hlo, hhi.le⟩, hv⟩
  · intro kv hkv
    rw [List.eq_of_mem_replicate hkv]
    decide
  · rw [List.map_replicate, List.sum_replicate, accWrap, Ne, wrapS_eq_self_iff (by decide)]
    decide

/-- Settles O21: the remainder is `Int.tmod`, and a quotient of values of the type leaves it at its upper end only. -/
theorem divisionTruncatesAndOneQuotientWraps : Obligations.DivisionTruncatesAndOneQuotientWraps := by
  refine ⟨by decide, fun a b hb => ⟨Int.zero_tdiv b, truncDiv_eq_zero, ?_, ?_, fun hq => ?_⟩,
    fun w a b hw _ ha ha' _ _ => ⟨?_, ?_⟩⟩
  · rw [sub_mul_truncDiv]; exact abs_tmod_lt a hb
  · rw [sub_mul_truncDiv]; exact tmod_mul_self_nonneg a b
  · exact truncDiv_mul_mul_pos (abs_pos.1 hq)
  · have hlo := neg_two_pow_le_truncDiv b ha ha'
    have htop := two_pow_le_truncDiv_iff (b := b) ha ha'
    rw [Ne, wrapS_eq_self_iff hw, not_and, not_lt]
    constructor
    · intro h
      obtain ⟨rfl, rfl⟩ := htop.1 (h hlo)
      exact ⟨rfl, rfl, by simp [truncDiv]⟩
    · rintro ⟨hmin, hneg, -⟩ -
      exact htop.2 ⟨hmin, hneg⟩
  · rintro rfl rfl
    have hwrap : wrapS w (truncDiv (-(2 ^ (w - 1))) (-1)) = -(2 ^ (w - 1)) := by
      rw [show truncDiv (-(2 ^ (w - 1))) (-1) = 2 ^ (w - 1) by simp [truncDiv], wrapS_two_pow hw]
    have hneg : -(2 ^ (w - 1) : Int) < 0 := by simp
    rw [hwrap]
    exact ⟨rfl, if_pos hneg, if_pos hneg⟩

/-- Settles O18, by the three cases of `bidx`. -/
theorem boundaryIndexReplicatesEdges : Obligations.BoundaryIndexReplicatesEdges := by
  intro xi smin smax h
  unfold bidx
  split_ifs <;> omega

/-- Settles O45: a command is a write of `CMD` that runs one body, and every body ends in a state. -/
theorem everyCommandEndsInANextState : Obligations.EveryCommandEndsInANextState := by
  intro i s
  obtain ⟨body, -, hexec⟩ := exec_command i
  exact ⟨_, hexec s⟩

end Sys2Proof.Machine
end

section
/-! Pieces of a pass that fault (R108, R164, R169): up to the fault they have made exactly the accesses before it. Each piece of
the listing is said once, from the port to the whole command. -/

namespace Sys2Proof.Machine

/-- The piece `r`, run from `e`, ends with the fault `c` and the information `info`, having made exactly the accesses `l`. -/
def FaultsAfter {α : Type} (c : Cause) (info : BitVec 64) (l : List Access) (e : Engine) (r : Run α) : Prop :=
  ∃ e', r = .fault c info e' ∧ Makes l e e'

section
variable {α β : Type} {c : Cause} {info : BitVec 64} {l l' : List Access} {e e1 : Engine}

/-- What follows a fault is not run. -/
theorem FaultsAfter.andThen {r : Run α} (h : FaultsAfter c info l e r) (f : α → Engine → Run β) :
    FaultsAfter c info l e (r.andThen f) := by
  obtain ⟨e', rfl, hmade⟩ := h
  exact ⟨e', rfl, hmade⟩

/-- The accesses made before the piece that faults come first. -/
theorem FaultsAfter.after {r : Run α} (h : FaultsAfter c info l' e1 r) (hmade : Makes l e e1) :
    FaultsAfter c info (l ++ l') e r := by
  obtain ⟨e', hr, hmade'⟩ := h
  exact ⟨e', hr, hmade.trans hmade'⟩

/-- A loop whose first `k` iterations answer and whose next one faults, faults. -/
theorem loopUp_eq_fault {body : Nat → Engine → Run Unit} {n k i : Nat} {e2 : Engine} (hk : k < n)
    (hbefore : loopUp body k i e = .ok () e1) (hfault : body (i + k) e1 = .fault c info e2) :
    loopUp body n i e = .fault c info e2 := by
  induction k generalizing n i e with
  | zero =>
    cases hbefore
    exact loopUp_of_fault hk hfault
  | succ k ih =>
    obtain ⟨n, rfl⟩ := Nat.exists_eq_add_of_le' (show 1 ≤ n by omega)
    obtain ⟨_, e3, hfirst, hrest⟩ := andThen_eq_ok.1 hbefore
    rw [loopUp, hfirst, andThen_ok]
    exact ih (by omega) hrest (by rwa [Nat.add_right_comm, Nat.add_assoc])

theorem loopUp_faultsAfter {body : Nat → Engine → Run Unit} {n k i : Nat} (hk : k < n)
    (hbefore : loopUp body k i e = .ok () e1) (hmade : Makes l e e1)
    (h : FaultsAfter c info l' e1 (body (i + k) e1)) : FaultsAfter c info (l ++ l') e (loopUp body n i e) := by
  obtain ⟨e2, hfault, hmade'⟩ := h.after hmade
  exact ⟨e2, loopUp_eq_fault hk hbefore hfault, hmade'⟩

end

/-! ## The port -/

section
variable {P : Port} {a : Addr}

/-- A `MemRead` whose byte `b` is not mapped has read the bytes before it (R43, R164). -/
theorem memRead_faultsAfter {n b : Nat} (hb : b < n) (hr : Readable P b a)
    (hu : P.platform.isMapped (a + BitVec.ofNat 64 b) = false) (e : Engine) :
    FaultsAfter .busErr (a + BitVec.ofNat 64 b) (readAccesses b a) e (memRead P n a e) := by
  suffices h : ∀ acc, FaultsAfter .busErr (a + BitVec.ofNat 64 b) (readAccesses b a) e (memReadFrom P acc n a e) from h 0
  intro acc
  obtain ⟨n, rfl⟩ := Nat.exists_eq_add_of_le' (show 1 ≤ n by omega)
  induction b generalizing n acc a e with
  | zero =>
    rw [BitVec.add_zero] at hu ⊢
    exact ⟨e, by simp [memReadFrom, readByte, hu], .refl e⟩
  | succ b ih =>
    obtain ⟨hmap, hdst⟩ := hr 0 (by omega)
    rw [BitVec.add_zero] at hmap hdst
    have hbyte : Makes [.rd a] e { e with bus := .rd a :: e.bus } := ⟨rfl, rfl, rfl⟩
    obtain ⟨n, rfl⟩ := Nat.exists_eq_add_of_le' (show 1 ≤ n by omega)
    rw [addr_succ] at hu ⊢
    rw [readAccesses_succ, memReadFrom, readByte, if_pos hmap, if_neg (by simp [hdst]), andThen_ok]
    refine (ih (fun j hj => ?_) hu _ _ n (by omega)).after hbyte
    rw [← addr_succ]
    exact hr (j + 1) (by omega)

/-- A `MemWrite` whose byte `b` is not mapped has written the bytes before it (R44, R164). -/
theorem memWrite_faultsAfter {n b : Nat} (hb : b < n) (hw : Writable P b a)
    (hu : P.platform.isMapped (a + BitVec.ofNat 64 b) = false) (v : Nat) (e : Engine) :
    FaultsAfter .busErr (a + BitVec.ofNat 64 b) ((writeAccesses n a v).take b) e (memWrite P n a v e) := by
  obtain ⟨n, rfl⟩ := Nat.exists_eq_add_of_le' (show 1 ≤ n by omega)
  induction b generalizing n a e with
  | zero =>
    rw [BitVec.add_zero] at hu ⊢
    exact ⟨e, by simp [memWrite, writeByte, hu], .refl e⟩
  | succ b ih =>
    have hmap := hw 0 (by omega)
    rw [BitVec.add_zero] at hmap
    have hbyte : ∀ x, Makes [.wr a x] e { e with mem := e.mem.write a x, bus := .wr a x :: e.bus } :=
      fun _ => ⟨rfl, rfl, rfl⟩
    obtain ⟨n, rfl⟩ := Nat.exists_eq_add_of_le' (show 1 ≤ n by omega)
    rw [addr_succ] at hu ⊢
    rw [writeAccesses_succ, List.take_succ_cons, memWrite, writeByte, if_pos hmap, andThen_ok]
    refine (ih (fun j hj => ?_) hu _ n (by omega)).after (hbyte _)
    rw [← addr_succ]
    exact hw (j + 1) (by omega)

/-- Reads only extend the record. -/
theorem readAccesses_makes (n : Nat) (a : Addr) (e : Engine) :
    Makes (readAccesses n a) e { e with bus := (readAccesses n a).reverse ++ e.bus } :=
  ⟨rfl, (applyWrites_readsOnly _ (readAccesses_readsOnly n a)).symm, rfl⟩

/-- The samples of a pixel whose byte `b` is not mapped (R99): the bytes before it have been read. -/
theorem readSamples_faultsAfter {sw n b : Nat} (hb : b < n * sw) (hr : Readable P b a)
    (hu : P.platform.isMapped (a + BitVec.ofNat 64 b) = false) (e : Engine) :
    FaultsAfter .busErr (a + BitVec.ofNat 64 b) (readAccesses b a) e (readSamples P sw n a e) := by
  induction n generalizing a b e with
  | zero => omega
  | succ n ih =>
    rw [Nat.add_mul, Nat.one_mul] at hb
    rw [readSamples]
    by_cases hsw : b < sw
    · exact (memRead_faultsAfter hsw hr hu e).andThen _
    · obtain ⟨b, rfl⟩ := Nat.exists_eq_add_of_le (Nat.le_of_not_lt hsw)
      obtain ⟨hhead, htail⟩ := readable_add hr
      rw [BitVec.ofNat_add, ← BitVec.add_assoc] at hu ⊢
      rw [memRead_of_readable P sw a e hhead, andThen_ok, readAccesses_add]
      exact ((ih (by omega) htail hu _).andThen _).after (readAccesses_makes sw a e)

theorem writeAccesses_length (n : Nat) (a : Addr) (v : Nat) : (writeAccesses n a v).length = n := by
  simp [writeAccesses]

/-- The store of a pixel whose byte `b` is not mapped (R105): the bytes before it have been written. -/
theorem storeValues_faultsAfter {sw b : Nat} {vs : List Nat} (hb : b < vs.length * sw) (hw : Writable P b a)
    (hu : P.platform.isMapped (a + BitVec.ofNat 64 b) = false) (e : Engine) :
    FaultsAfter .busErr (a + BitVec.ofNat 64 b) ((storeAccesses sw vs a).take b) e (storeValues P sw vs a e) := by
  induction vs generalizing a b e with
  | nil => simp at hb
  | cons v vs ih =>
    rw [List.length_cons, Nat.add_mul, Nat.one_mul] at hb
    rw [storeValues, storeAccesses]
    by_cases hsw : b < sw
    · rw [List.take_append_of_le_length (by rw [writeAccesses_length]; omega)]
      exact (memWrite_faultsAfter hsw hw hu v e).andThen _
    · obtain ⟨b, rfl⟩ := Nat.exists_eq_add_of_le (Nat.le_of_not_lt hsw)
      obtain ⟨hhead, htail⟩ := writable_add hw
      have hmade : Makes (writeAccesses sw a v) e { e with
          mem := applyWrites e.mem (writeAccesses sw a v), bus := (writeAccesses sw a v).reverse ++ e.bus } :=
        ⟨rfl, rfl, rfl⟩
      rw [BitVec.ofNat_add, ← BitVec.add_assoc] at hu ⊢
      rw [memWrite_of_writable P sw a v e hhead, andThen_ok, List.take_append, writeAccesses_length,
        List.take_of_length_le (by rw [writeAccesses_length]; omega), Nat.add_sub_cancel_left]
      exact (ih (by omega) htail hu _).after hmade

end

/-! ## A pixel, up to its tap `k` -/

/-- The engine after the offset entry of a pixel has been read (R93, R97). -/
def offsetEngine (ps : PassSpec) (D : Desc) (d : Nat) (e : Engine) : Engine :=
  { clearAcc ps e with bus := (readAccesses 4 (offsAddr D d)).reverse ++ e.bus }

/-- The engine before tap `k` of a pixel. -/
def tapEngine (ps : PassSpec) (m : Memory) (D : Desc) (r d k : Nat) (e : Engine) : Engine :=
  tapsEngine ps m D r d k (e.acc.drop (fmtChans ps.dst)) (offsetEngine ps D d e)

section
variable {ps : PassSpec} {P : Port} {m : Memory} {D : Desc} {r d : Nat} {e : Engine}

/-- The position of the sequencer is no access (R32). -/
theorem makes_seq (e : Engine) (p : Option SeqPos) : Makes [] e { e with seq := p } := ⟨rfl, rfl, rfl⟩

theorem clearAcc_makes (ps : PassSpec) (e : Engine) : Makes [] e (clearAcc ps e) := ⟨rfl, rfl, rfl⟩

theorem offsetEngine_makes (ps : PassSpec) (D : Desc) (d : Nat) (e : Engine) :
    Makes (readAccesses 4 (offsAddr D d)) e (offsetEngine ps D d e) :=
  (clearAcc_makes ps e).trans (readAccesses_makes 4 _ _)

theorem tapsEngine_makes (ps : PassSpec) (m : Memory) (D : Desc) (r d n : Nat) (rest : List Int) (e : Engine) :
    Makes ((List.range n).flatMap (tapAccesses ps m D r d)) e (tapsEngine ps m D r d n rest e) :=
  ⟨rfl, (applyWrites_readsOnly _ (by simp [tapAccesses_readsOnly])).symm, rfl⟩

theorem tapEngine_makes (ps : PassSpec) (m : Memory) (D : Desc) (r d k : Nat) (e : Engine) :
    Makes (readsBeforeTap ps m D r d k) e (tapEngine ps m D r d k e) :=
  (offsetEngine_makes ps D d e).trans (tapsEngine_makes ps m D r d k _ _)

/-- A pixel whose offset entry can be read goes on with its taps. -/
theorem passPixel_of_offset_readable (he : Agree P e.mem m) (ho : Readable P 4 (offsAddr D d)) :
    passPixel ps P D r d e = (loopUp (passTap ps P D r d (startOf m D d)) D.taps 0 (offsetEngine ps D d e)).andThen
      fun _ e2 => finishPixel ps P D r d e2 := by
  have hstart : sextNat 32 (peek (clearAcc ps e).mem 4 (offsAddr D d)) = startOf m D d :=
    congrArg (sextNat 32) (peek_agree he ho)
  rw [passPixel, memRead_of_readable P 4 _ _ ho, andThen_ok, hstart]
  rfl

/-- The taps before tap `k`, all readable, leave the engine before tap `k` (R92, R98, R101). -/
theorem loopUp_passTap_eq_tapEngine (he : Agree P e.mem m) {k : Nat}
    (hlen : ∀ xc, (samplesOf ps m D r xc).length = fmtChans ps.dst) (ht : ∀ k' < k, TapReadable ps P m D r d k') :
    loopUp (passTap ps P D r d (startOf m D d)) k 0 (offsetEngine ps D d e) = .ok () (tapEngine ps m D r d k e) :=
  loopUp_passTap_of_readable ps P m D r d k _ (offsetEngine ps D d e) he hlen rfl rfl ht

/-- A pixel that can be read goes on with its normalisation and store. -/
theorem passPixel_of_readable (he : Agree P e.mem m) (hlen : ∀ xc, (samplesOf ps m D r xc).length = fmtChans ps.dst)
    (h : PixelReadable ps P m D r d) :
    passPixel ps P D r d e = finishPixel ps P D r d (tapEngine ps m D r d D.taps e) := by
  obtain ⟨ho, ht⟩ := h
  rw [passPixel_of_offset_readable he ho, loopUp_passTap_eq_tapEngine he hlen ht, andThen_ok]

theorem pixelValues_tapEngine (ps : PassSpec) (m : Memory) (D : Desc) (r d : Nat) (e : Engine) :
    pixelValues ps (tapEngine ps m D r d D.taps e) =
      (List.range (fmtChans ps.dst)).map fun c => pixelValue ps m D r d c := by
  unfold pixelValues tapEngine tapsEngine
  rw [List.take_left' (by simp), List.map_map]
  rfl

/-! ## How a pixel faults -/

theorem passPixel_offset_faultsAfter {b : Nat} (hb : b < 4) (hr : Readable P b (offsAddr D d))
    (hu : P.platform.isMapped (offsAddr D d + BitVec.ofNat 64 b) = false) :
    FaultsAfter .busErr (offsAddr D d + BitVec.ofNat 64 b) (readAccesses b (offsAddr D d)) e
      (passPixel ps P D r d e) :=
  ((memRead_faultsAfter hb hr hu _).andThen _).after (clearAcc_makes ps e)

/-- A tap that faults ends its pixel, with the offset entry and the taps before it read. -/
theorem passPixel_tap_faultsAfter {k : Nat} {c : Cause} {info : BitVec 64} {l : List Access} (he : Agree P e.mem m)
    (hlen : ∀ xc, (samplesOf ps m D r xc).length = fmtChans ps.dst) (hk : k < D.taps)
    (ho : Readable P 4 (offsAddr D d)) (ht : ∀ k' < k, TapReadable ps P m D r d k')
    (h : ∀ e1, Agree P e1.mem m → FaultsAfter c info l e1 (passTap ps P D r d (startOf m D d) k e1)) :
    FaultsAfter c info (readsBeforeTap ps m D r d k ++ l) e (passPixel ps P D r d e) := by
  rw [passPixel_of_offset_readable he ho, readsBeforeTap, List.append_assoc]
  refine (FaultsAfter.andThen ?_ _).after (offsetEngine_makes ps D d e)
  refine loopUp_faultsAfter hk (loopUp_passTap_eq_tapEngine he hlen ht) (tapsEngine_makes ps m D r d k _ _) ?_
  rw [Nat.zero_add]
  exact h _ he

theorem passTap_coef_faultsAfter {k b : Nat} (start : Int) (hb : b < ps.cw) (hr : Readable P b (coefAddr D ps.cw d k))
    (hu : P.platform.isMapped (coefAddr D ps.cw d k + BitVec.ofNat 64 b) = false) :
    FaultsAfter .busErr (coefAddr D ps.cw d k + BitVec.ofNat 64 b) (readAccesses b (coefAddr D ps.cw d k)) e
      (passTap ps P D r d start k e) :=
  ((memRead_faultsAfter hb hr hu _).andThen _).after (makes_seq e _)

theorem passTap_source_faultsAfter {k b : Nat} (he : Agree P e.mem m) (hb : b < fmtBpp ps.src)
    (hc : Readable P ps.cw (coefAddr D ps.cw d k)) (hne : coefOf ps m D d k ≠ 0)
    (hr : Readable P b (srcAddr D (fmtBpp ps.src) r (coordOf m D d k)))
    (hu : P.platform.isMapped (srcAddr D (fmtBpp ps.src) r (coordOf m D d k) + BitVec.ofNat 64 b) = false) :
    FaultsAfter .busErr (srcAddr D (fmtBpp ps.src) r (coordOf m D d k) + BitVec.ofNat 64 b)
      (readAccesses ps.cw (coefAddr D ps.cw d k) ++
        readAccesses b (srcAddr D (fmtBpp ps.src) r (coordOf m D d k))) e
      (passTap ps P D r d (startOf m D d) k e) := by
  have hcoef : coefValue ps.coef ps.cw (peek e.mem ps.cw (coefAddr D ps.cw d k)) ≠ 0 := by
    rwa [peek_agree he hc]
  rw [passTap, memRead_of_readable P _ _ _ hc, andThen_ok, if_neg hcoef]
  exact (((readSamples_faultsAfter hb hr hu _).andThen _).andThen _).after
    ((makes_seq e _).trans (readAccesses_makes ps.cw _ _))

/-- A zero weight sum: everything is read, nothing written (R103, R163). -/
theorem passPixel_divZero_faultsAfter (he : Agree P e.mem m)
    (hlen : ∀ xc, (samplesOf ps m D r xc).length = fmtChans ps.dst) (h : PixelReadable ps P m D r d)
    (hw : accWrap ps.acc (weightSum ps m D d) = 0) :
    FaultsAfter .divZero (divZeroInfo r d) (pixelReads ps m D r d) e (passPixel ps P D r d e) := by
  rw [passPixel_of_readable he hlen h]
  exact ⟨_, if_pos hw, tapEngine_makes ps m D r d D.taps e⟩

/-- A destination byte that is not mapped: everything is read, the bytes before it are written (R105, R164). -/
theorem passPixel_store_faultsAfter {b : Nat} (he : Agree P e.mem m)
    (hlen : ∀ xc, (samplesOf ps m D r xc).length = fmtChans ps.dst) (h : PixelReadable ps P m D r d)
    (hw : accWrap ps.acc (weightSum ps m D d) ≠ 0) (hb : b < fmtBpp ps.dst)
    (hwr : Writable P b (dstAddr D (fmtBpp ps.dst) r d))
    (hu : P.platform.isMapped (dstAddr D (fmtBpp ps.dst) r d + BitVec.ofNat 64 b) = false) :
    FaultsAfter .busErr (dstAddr D (fmtBpp ps.dst) r d + BitVec.ofNat 64 b)
      (pixelReads ps m D r d ++ (pixelWrites ps m D r d).take b) e (passPixel ps P D r d e) := by
  have hfinish : finishPixel ps P D r d (tapEngine ps m D r d D.taps e) =
      storeValues P (fmtSw ps.dst) ((List.range (fmtChans ps.dst)).map fun c => pixelValue ps m D r d c)
        (dstAddr D (fmtBpp ps.dst) r d) (tapEngine ps m D r d D.taps e) := by
    rw [finishPixel, pixelValues_tapEngine]
    exact if_neg hw
  rw [passPixel_of_readable he hlen h, hfinish, pixelWrites, ← storeAccesses_map_range]
  exact (storeValues_faultsAfter (by simpa [fmtBpp] using hb) hwr hu _).after (tapEngine_makes ps m D r d D.taps e)

end

/-! ## The listing, up to a pixel that faults -/

/-- Writes to the destination keep the agreement with the first memory. -/
theorem Makes.agree {P : Port} {m : Memory} {l : List Access} {e e' : Engine} (h : Makes l e e')
    (he : Agree P e.mem m) (hdst : ∀ a b, Access.wr a b ∈ l → P.dst.has a = true) : Agree P e'.mem m := by
  rw [h.mem]
  exact he.applyWrites l hdst

theorem isDestination_of_wr_mem_lineAccesses {ps : PassSpec} {m : Memory} {D : Desc} {r j : Nat} (hr : r < D.lines)
    (hj : j ≤ D.dests) {a : Addr} {b : Byte} (h : Access.wr a b ∈ lineAccesses ps m D r j) : IsDestination ps D a := by
  obtain ⟨j', hj', hab⟩ := List.mem_flatMap.1 h
  exact isDestination_of_wr_mem hr (lt_of_lt_of_le (List.mem_range.1 hj') hj) hab

section
variable {ps : PassSpec} {P : Port} {m : Memory} {D : Desc} {e : Engine}

/-- The first `j` pixels of a line, all ready, make their accesses. -/
theorem loopUp_passPixel_of_ready {r j : Nat} (hr : r < D.lines) (hj : j ≤ D.dests) (he : Agree P e.mem m)
    (hlen : ∀ r xc, (samplesOf ps m D r xc).length = fmtChans ps.dst)
    (hdst : ∀ a, IsDestination ps D a → P.dst.has a = true)
    (hready : ∀ j' < j, PixelReady ps P m D r (D.firstDest + j')) :
    ∃ e', loopUp (passPixel ps P D r) j D.firstDest e = .ok () e' ∧ Makes (lineAccesses ps m D r j) e e' := by
  refine loopUp_makes j D.firstDest he (fun d hd hd' a b hab => ?_) fun d e1 hd hd' he1 => ?_
  · obtain ⟨j', rfl⟩ := Nat.exists_eq_add_of_le hd
    exact hdst a (isDestination_of_wr_mem hr (by omega) hab)
  · obtain ⟨j', rfl⟩ := Nat.exists_eq_add_of_le hd
    obtain ⟨e2, hpixel, hbus, hmem, hdraws⟩ :=
      passPixel_of_ready ps P m D r (D.firstDest + j') e1 he1 (hlen r) (hready j' (by omega))
    exact ⟨e2, hpixel, hbus, hmem, hdraws⟩

/-- The first `r` lines, all of whose pixels are ready, make their accesses. -/
theorem loopUp_passLine_of_ready {r : Nat} (hr : r ≤ D.lines) (he : Agree P e.mem m)
    (hlen : ∀ r xc, (samplesOf ps m D r xc).length = fmtChans ps.dst)
    (hdst : ∀ a, IsDestination ps D a → P.dst.has a = true)
    (hready : ∀ r' < r, ∀ j < D.dests, PixelReady ps P m D r' (D.firstDest + j)) :
    ∃ e', loopUp (passLine ps P D) r 0 e = .ok () e' ∧
      Makes ((List.range r).flatMap fun r' => lineAccesses ps m D r' D.dests) e e' := by
  have hloop := loopUp_makes (body := passLine ps P D) (acc := fun r' => lineAccesses ps m D r' D.dests) r 0 he
    (fun r' _ hr' a b hab => hdst a (isDestination_of_wr_mem_lineAccesses (by omega) le_rfl hab))
    fun r' e1 _ hr' he1 => passLine_of_ready (by omega) he1 hlen hdst (hready r' (by omega))
  simpa only [Nat.zero_add] using hloop

/-- A pixel that faults, after ready ones, ends the listing: the accesses of the pixels before it have been made (R108). -/
theorem passLines_faultsAfter {r j : Nat} {c : Cause} {info : BitVec 64} {l : List Access} (hr : r < D.lines)
    (hj : j < D.dests) (he : Agree P e.mem m) (hlen : ∀ r xc, (samplesOf ps m D r xc).length = fmtChans ps.dst)
    (hdst : ∀ a, IsDestination ps D a → P.dst.has a = true)
    (hready : ∀ r' < D.lines, ∀ j' < D.dests, Precedes r' j' r j → PixelReady ps P m D r' (D.firstDest + j'))
    (hpixel : ∀ e1, Agree P e1.mem m → FaultsAfter c info l e1 (passPixel ps P D r (D.firstDest + j) e1)) :
    FaultsAfter c info (accessesBefore ps m D r j ++ l) e (passLines ps P D e) := by
  obtain ⟨e1, hlines, hmade⟩ := loopUp_passLine_of_ready hr.le he hlen hdst fun r' hr' j' hj' =>
    hready r' (hr'.trans hr) j' hj' (.inl hr')
  have he1 : Agree P e1.mem m := hmade.agree he fun a b hab => by
    obtain ⟨r', hr', hab⟩ := List.mem_flatMap.1 hab
    exact hdst a (isDestination_of_wr_mem_lineAccesses ((List.mem_range.1 hr').trans hr) le_rfl hab)
  obtain ⟨e2, hpixels, hmade'⟩ := loopUp_passPixel_of_ready hr hj.le he1 hlen hdst fun j' hj' =>
    hready r hr j' (hj'.trans hj) (.inr ⟨rfl, hj'⟩)
  have he2 : Agree P e2.mem m := hmade'.agree he1 fun a b hab =>
    hdst a (isDestination_of_wr_mem_lineAccesses hr hj.le hab)
  rw [accessesBefore, List.append_assoc]
  refine loopUp_faultsAfter hr hlines hmade ?_
  rw [Nat.zero_add]
  exact loopUp_faultsAfter hj hpixels hmade' (hpixel e2 he2)

end

/-! ## The command -/

section
variable {i : Instr} {ps : PassSpec} {s : State} {r j : Nat} {c : Cause} {info : BitVec 64} {l : List Access}

/-- An accepted pass whose pixel `r`, `j` faults, after ready ones, ends with that fault (R108, R166). -/
theorem exec_of_pixel_faultsAfter (hi : passSpecOf i = some ps) (ha : PassAccepted s) (hr : r < s.rf.desc.lines)
    (hj : j < s.rf.desc.dests) (hready : PixelsBeforeReady ps s r j)
    (hpixel : ∀ e, Agree (passPort ps s) e.mem s.mem →
      FaultsAfter c info l e (passPixel ps (passPort ps s) s.rf.desc r (s.rf.desc.firstDest + j) e)) :
    ∃ e, Makes (accessesBefore ps s.mem s.rf.desc r j ++ l) (startEngine s) e ∧
      exec i s = .next (raiseFault c info (commitEngine (acceptCommand (encode i) s) e)) := by
  have hexec := exec_of_passAccepted hi ha
  obtain ⟨-, -, hmin⟩ := ha
  obtain ⟨e, hlines, hmade⟩ := passLines_faultsAfter (e := startEngine s) hr hj (Agree.refl (passPort ps s) s.mem)
    (samplesOf_length hi s.mem s.rf.desc) (fun a => (passPort_has_iff ps s a hmin).2) hready hpixel
  rw [hlines] at hexec
  exact ⟨e, hmade, hexec⟩

/-- What the host sees then: STATUS and ERR_INFO latched, the accesses made (R160, R166). -/
theorem exec_latches_of_pixel_faultsAfter (hi : passSpecOf i = some ps) (ha : PassAccepted s) (hr : r < s.rf.desc.lines)
    (hj : j < s.rf.desc.dests) (hready : PixelsBeforeReady ps s r j)
    (hpixel : ∀ e, Agree (passPort ps s) e.mem s.mem →
      FaultsAfter c info l e (passPixel ps (passPort ps s) s.rf.desc r (s.rf.desc.firstDest + j) e)) :
    ∃ t, exec i s = .next t ∧ statusDone t.rf.status = false ∧ statusErr t.rf.status = true ∧
      statusCause t.rf.status = c.code ∧ t.rf.errInfo = info ∧ t.bus = accessesBefore ps s.mem s.rf.desc r j ++ l ∧
      t.mem = applyWrites s.mem (accessesBefore ps s.mem s.rf.desc r j ++ l) := by
  obtain ⟨e, ⟨hbus, hmem, -⟩, hexec⟩ := exec_of_pixel_faultsAfter hi ha hr hj hready hpixel
  exact ⟨_, hexec, by simp, by simp, by simp, rfl, by simp [hbus], hmem⟩

/-- A pixel that faults before it has written anything with an unmapped byte: a precise `BUS_ERR` (R108, R164). -/
theorem exec_busErr_of_pixel_reads (hi : passSpecOf i = some ps) (ha : PassAccepted s) (hr : r < s.rf.desc.lines)
    (hj : j < s.rf.desc.dests) (hready : PixelsBeforeReady ps s r j) (hl : ∀ a b, Access.wr a b ∉ l)
    (hpixel : ∀ e, Agree (passPort ps s) e.mem s.mem →
      FaultsAfter .busErr info l e (passPixel ps (passPort ps s) s.rf.desc r (s.rf.desc.firstDest + j) e)) :
    ∃ t, exec i s = .next t ∧ EndedWithBusErr t info ∧ t.bus = accessesBefore ps s.mem s.rf.desc r j ++ l ∧
      t.mem = applyWrites s.mem (accessesBefore ps s.mem s.rf.desc r j) := by
  obtain ⟨t, hexec, hdone, herr, hcause, hinfo, hbus, hmem⟩ :=
    exec_latches_of_pixel_faultsAfter hi ha hr hj hready hpixel
  rw [applyWrites_append, applyWrites_readsOnly _ hl] at hmem
  exact ⟨t, hexec, ⟨hdone, herr, hcause, hinfo⟩, hbus, hmem⟩

end

/-! ## The obligations -/

/-- Settles O33: the first pixel faults on the first byte of its offset entry. -/
theorem firstOffsetEntryUnmapped : Obligations.FirstOffsetEntryUnmapped := by
  intro i ps s hi ha hlines hdests hu
  have hready : PixelsBeforeReady ps s 0 0 := fun r' _ j' _ h => by omega
  have hu' : s.platform.isMapped (offsAddr s.rf.desc (s.rf.desc.firstDest + 0) + BitVec.ofNat 64 0) = false := by
    simpa using hu
  obtain ⟨e, hmade, hexec⟩ := exec_of_pixel_faultsAfter hi ha hlines hdests hready fun e _ =>
    passPixel_offset_faultsAfter (b := 0) (by decide) (fun j hj => by omega) hu'
  obtain ⟨hbus, hmem, hdraws⟩ : e.bus = [] ∧ e.mem = s.mem ∧ e.draws = s.draws :=
    ⟨hmade.bus, hmade.mem, hmade.draws⟩
  refine ⟨_, hexec, by simp, by simp, by simp [Cause.code], ?_⟩
  simp [raiseFault, commitEngine, acceptCommand, hbus, hmem, hdraws]

/-- Settles O35: the pixel reads everything and faults before it writes. -/
theorem divZeroIsPrecise : Obligations.DivZeroIsPrecise := by
  intro i ps s r j hi ha hr hj hready hread hw
  obtain ⟨t, hexec, hdone, herr, hcause, hinfo, hbus, hmem⟩ :=
    exec_latches_of_pixel_faultsAfter hi ha hr hj hready fun e he =>
      passPixel_divZero_faultsAfter he (samplesOf_length hi s.mem s.rf.desc r) hread hw
  rw [applyWrites_append, applyWrites_readsOnly _ (pixelReads_readsOnly _ _ _ _ _)] at hmem
  exact ⟨t, hexec, hdone, herr, hcause, hinfo, hbus, hmem⟩

/-- Settles O36: tap `k` reads its coefficient and the bytes of its source pixel before the failing one. -/
theorem sourceBusErrorIsPrecise : Obligations.SourceBusErrorIsPrecise := by
  intro i ps s r j k b hi ha hr hj hk hb hready ho ht hc hne hsrc hu
  have hlen := samplesOf_length hi s.mem s.rf.desc r
  have h := exec_busErr_of_pixel_reads hi ha hr hj hready
    (by simp [readsBeforeTap_readsOnly, readAccesses_readsOnly]) fun e he =>
    passPixel_tap_faultsAfter he hlen hk ho ht fun e1 he1 => passTap_source_faultsAfter he1 hb hc hne hsrc hu
  simpa only [List.append_assoc] using h

/-- Settles O51: the pixel reads the bytes of its offset entry before the failing one. -/
theorem offsetBusErrorIsPrecise : Obligations.OffsetBusErrorIsPrecise := by
  intro i ps s r j b hi ha hr hj hb hready hread hu
  exact exec_busErr_of_pixel_reads hi ha hr hj hready (readAccesses_readsOnly b _) fun e _ =>
    passPixel_offset_faultsAfter hb hread hu

/-- Settles O52: tap `k` reads the bytes of its coefficient before the failing one. -/
theorem coefficientBusErrorIsPrecise : Obligations.CoefficientBusErrorIsPrecise := by
  intro i ps s r j k b hi ha hr hj hk hb hready ho ht hc hu
  have hlen := samplesOf_length hi s.mem s.rf.desc r
  have h := exec_busErr_of_pixel_reads hi ha hr hj hready
    (by simp [readsBeforeTap_readsOnly, readAccesses_readsOnly]) fun e he =>
    passPixel_tap_faultsAfter he hlen hk ho ht fun e1 _ => passTap_coef_faultsAfter _ hb hc hu
  simpa only [List.append_assoc] using h

/-- Settles O37: the pixel reads everything and writes its bytes before the failing one. -/
theorem destinationBusErrorIsPrecise : Obligations.DestinationBusErrorIsPrecise := by
  intro i ps s r j b hi ha hr hj hb hready hread hw hwr hu
  obtain ⟨t, hexec, hdone, herr, hcause, hinfo, hbus, hmem⟩ :=
    exec_latches_of_pixel_faultsAfter hi ha hr hj hready fun e he =>
      passPixel_store_faultsAfter he (samplesOf_length hi s.mem s.rf.desc r) hread hw hb hwr hu
  rw [← hbus] at hmem
  rw [← List.append_assoc] at hbus
  exact ⟨t, hexec, hdone, herr, hcause, hinfo, hbus, hmem⟩

end Sys2Proof.Machine
end

section
/-! What a ready pass makes of its accesses (R92, R105), and the normalisation identity of the weighted passes (R109): the
quotient of a constant window's sum by its weight sum is exact. -/

namespace Sys2Proof.Machine

/-! ## Samples fit the channels of the destination (R90, R99, R122) -/

theorem peekFrom_lt (m : Memory) (acc n : Nat) (a : Addr) : peekFrom m acc n a < (acc + 1) * 256 ^ n := by
  induction n generalizing acc a with
  | zero => simp [peekFrom]
  | succ n ih =>
    have hbyte : (m.read a).toNat < 256 := (m.read a).isLt
    calc peekFrom m acc (n + 1) a < (acc * 256 + (m.read a).toNat + 1) * 256 ^ n := ih _ _
      _ ≤ (acc + 1) * 256 * 256 ^ n := Nat.mul_le_mul_right _ (by omega)
      _ = (acc + 1) * 256 ^ (n + 1) := by ring

theorem peek_lt (m : Memory) (n : Nat) (a : Addr) : peek m n a < 256 ^ n := by
  simpa [peek] using peekFrom_lt m 0 n a

theorem widen8_le {b : Nat} (h : b < 256) : widen8 b ≤ 65535 := by
  unfold widen8; omega

theorem unpackLanes_le {f : PixFmt} {ss : List Nat} (h : ∀ x ∈ ss, x < 256 ^ fmtSw f) :
    ∀ v ∈ unpackLanes f ss, v ≤ 65535 := by
  have hhead : ss.headD 0 < 256 ^ fmtSw f := by
    cases ss with
    | nil => exact Nat.pow_pos (by decide)
    | cons x ss => exact h x List.mem_cons_self
  have hwiden : ∀ x ∈ ss, fmtSw f = 1 → widen8 x ≤ 65535 := fun x hx hf => by
    have hbyte := h x hx
    rw [hf] at hbyte
    exact widen8_le hbyte
  intro v hv
  cases f with
  | rgba8 =>
    obtain ⟨x, hx, rfl⟩ := List.mem_map.1 hv
    exact hwiden x hx rfl
  | rgba16 => exact Nat.le_of_lt_succ (h v hv)
  | gray8 =>
    rcases List.mem_append.1 hv with hgray | halpha
    · rw [List.eq_of_mem_replicate hgray]; exact widen8_le hhead
    · exact (List.mem_singleton.1 halpha).le
  | gray16 =>
    rcases List.mem_append.1 hv with hgray | halpha
    · rw [List.eq_of_mem_replicate hgray]; exact Nat.le_of_lt_succ hhead
    · exact (List.mem_singleton.1 halpha).le
  | ycc8 =>
    rcases List.mem_append.1 hv with hlane | halpha
    · obtain ⟨x, hx, rfl⟩ := List.mem_map.1 hlane
      exact hwiden x hx rfl
    · exact (List.mem_singleton.1 halpha).le

/-- A row of R90 unpacks into 16-bit lanes, or has one format for source and destination. -/
theorem passSpecOf_lanes {i : Instr} {ps : PassSpec} (hi : passSpecOf i = some ps) :
    (ps.unpack = true ∧ ps.dst = .rgba16) ∨ (ps.unpack = false ∧ ps.src = ps.dst) := by
  cases i <;> simp only [passSpecOf, Option.some.injEq, reduceCtorEq] at hi <;> subst hi <;>
    simp [genSpec, fixed8Spec, fixed16Spec, nearestSpec]

theorem samplesOf_lt {i : Instr} {ps : PassSpec} (hi : passSpecOf i = some ps) (m : Memory) (D : Desc) (r : Nat)
    (xc : Int) : ∀ v ∈ samplesOf ps m D r xc, v < 256 ^ fmtSw ps.dst := by
  have hread : ∀ x ∈ (List.range (fmtChans ps.src)).map (fun c =>
      peek m (fmtSw ps.src) (srcAddr D (fmtBpp ps.src) r xc + BitVec.ofNat 64 (c * fmtSw ps.src))),
      x < 256 ^ fmtSw ps.src := by
    simp [peek_lt]
  unfold samplesOf
  rcases passSpecOf_lanes hi with ⟨hunpack, hdst⟩ | ⟨hunpack, hsrc⟩
  · rw [hunpack, hdst]
    exact fun v hv => Nat.lt_succ_of_le (unpackLanes_le hread v hv)
  · rw [hunpack, ← hsrc]
    exact hread

theorem samplesOf_getD_lt {i : Instr} {ps : PassSpec} (hi : passSpecOf i = some ps) (m : Memory) (D : Desc) (r : Nat)
    (xc : Int) (c : Nat) : (samplesOf ps m D r xc).getD c 0 < 256 ^ fmtSw ps.dst := by
  rw [List.getD_eq_getElem?_getD]
  cases h : (samplesOf ps m D r xc)[c]? with
  | none => exact Nat.pow_pos (by decide)
  | some v => exact samplesOf_lt hi m D r xc v (List.mem_of_getElem? h)

/-! ## A constant window (R109) -/

theorem laneSum_of_constant {ps : PassSpec} {m : Memory} {D : Desc} {r d c V : Nat}
    (h : ∀ k < D.taps, coefOf ps m D d k ≠ 0 → (samplesOf ps m D r (coordOf m D d k)).getD c 0 = V) :
    laneSum ps m D r d c = V * weightSum ps m D d := by
  have hterm : ∀ k ∈ List.range D.taps,
      coefOf ps m D d k * (((samplesOf ps m D r (coordOf m D d k)).getD c 0 : Nat) : Int) = V * coefOf ps m D d k := by
    intro k hk
    by_cases hzero : coefOf ps m D d k = 0
    · simp [hzero]
    · rw [h k (List.mem_range.1 hk) hzero, Int.mul_comm]
  rw [laneSum, List.map_congr_left hterm, List.sum_map_mul_left, weightSum]

theorem exists_coefOf_ne_zero {ps : PassSpec} {m : Memory} {D : Desc} {d : Nat} (h : weightSum ps m D d ≠ 0) :
    ∃ k < D.taps, coefOf ps m D d k ≠ 0 := by
  by_contra hnone
  push Not at hnone
  exact h (List.sum_eq_zero (List.forall_mem_map.2 fun k hk => hnone k (List.mem_range.1 hk)))

theorem clampTo_of_le {hi V : Nat} (h : V ≤ hi) : clampTo hi (V : Int) = V := by
  have hclamp := coe_clampTo hi V
  omega

/-- Dividing `V` times the weight sum by the weight sum, of whatever sign, gives `V` back (R103, R104). -/
theorem finishValue_mul {i : Instr} {ps : PassSpec} (hi : passSpecOf i = some ps) (hne : i ≠ .nnYcc8) {V : Nat}
    {W : Int} (hV : V < 256 ^ fmtSw ps.dst) (hW : W ≠ 0) : finishValue ps W (V * W) = V := by
  have hquot : truncDiv (V * W) W = V := Int.mul_tdiv_cancel _ hW
  have h8 : ∀ f, fmtSw f = 1 → V < 256 ^ fmtSw f → finishValue (fixed8Spec f) W (V * W) = V := by
    intro f hf hVf
    rw [hf] at hVf
    have hwrap : wrapS 32 (V : Int) = V := (wrapS_eq_self_iff (by decide)).2 ⟨by omega, by omega⟩
    rw [finishValue, hquot]
    exact (congrArg clamp8 hwrap).trans (clampTo_of_le (Nat.le_of_lt_succ hVf))
  have h16 : ∀ row : PassSpec, row.finish = .clamp16 → row.acc = .signed 64 → V < 256 ^ 2 →
      finishValue row W (V * W) = V := by
    intro row hf hacc hV2
    have hwrap : wrapS 64 (V : Int) = V := (wrapS_eq_self_iff (by decide)).2 ⟨by omega, by omega⟩
    rw [finishValue, hf, hacc, hquot]
    exact (congrArg clamp16 hwrap).trans (clampTo_of_le (Nat.le_of_lt_succ hV2))
  cases i <;> simp only [passSpecOf, Option.some.injEq, reduceCtorEq] at hi <;> subst hi
  case nnYcc8 => exact absurd rfl hne
  case rgba8 | gray8 | ycc8 => exact h8 _ rfl hV
  all_goals exact h16 _ rfl rfl hV

/-! ## The obligations -/

/-- Settles O28: the engine committed has made the accesses of the listing. -/
theorem readyPassMakesItsAccessesInOrder : Obligations.ReadyPassMakesItsAccessesInOrder := by
  intro i ps s hi hs
  obtain ⟨e, ⟨hbus, hmem, hdraws⟩, hexec⟩ := exec_of_passReady hi hs
  obtain ⟨⟨herr, -, -⟩, -⟩ := hs
  refine ⟨_, hexec, by simp, by simp [herr], by simp [hbus], ?_⟩
  simp [CmdEnd.finish, commitEngine, acceptCommand, hmem, hdraws]

/-- Settles O38: the lane sum is `V` times the weight sum, which is not zero, so some tap that is not skipped holds `V` and `V`
fits the channel. -/
theorem constantWindowIsReproduced : Obligations.ConstantWindowIsReproduced := by
  intro i ps s r j c V hi hne hs hdis hwf hr hj hc hconst hweight hlane
  obtain ⟨t, hexec, -, hstored, -⟩ := readyPassStoresEveryPixelValue i ps s hi hs hdis hwf
  obtain ⟨-, -, hsum⟩ := hs.2 r hr j hj
  rw [hweight] at hsum
  obtain ⟨k, hk, hcoef⟩ := exists_coefOf_ne_zero hsum
  have hV : V < 256 ^ fmtSw ps.dst := by
    rw [← hconst k hk hcoef]
    exact samplesOf_getD_lt hi _ _ _ _ _
  refine ⟨t, hexec, ?_⟩
  rw [hstored r hr j hj c hc, pixelValue, laneSum_of_constant hconst, hweight, hlane]
  exact finishValue_mul hi hne hV hsum

end Sys2Proof.Machine
end

section
/-! The generic pass (42_generic): the unpack table (R122), and the alpha lane and the gray lanes of its sources (R125). -/

namespace Sys2Proof.Machine

/-! ## The lanes of an unpacked pixel (R122) -/

theorem unpackLanes_length {f : PixFmt} {ss : List Nat} (h : ss.length = fmtChans f) : (unpackLanes f ss).length = 4 := by
  cases f with
  | rgba8 => rw [unpackLanes, List.length_map, h]; rfl
  | rgba16 => exact h
  | gray8 | gray16 => rfl
  | ycc8 => rw [unpackLanes, List.length_append, List.length_map, h]; rfl

theorem unpackLanes_alpha {f : PixFmt} {ss : List Nat} (hf : fmtChans f < 4) (h : ss.length = fmtChans f) :
    (unpackLanes f ss).getD 3 0 = 65535 := by
  cases f with
  | rgba8 | rgba16 => exact absurd hf (by decide)
  | gray8 | gray16 => rfl
  | ycc8 =>
    have hlen : (ss.map widen8).length = 3 := by rw [List.length_map, h]; rfl
    rw [unpackLanes, List.getD_append_right _ _ _ _ hlen.le, hlen]
    rfl

/-- A gray pixel has one sample, in each of the three colour lanes. -/
theorem unpackLanes_gray {f : PixFmt} (hf : fmtChans f = 1) (ss : List Nat) {c : Nat} (hc : c < 3) :
    (unpackLanes f ss).getD c 0 = (unpackLanes f ss).getD 0 0 := by
  have hlane : ∀ v, (List.replicate 3 v ++ [opaqueAlpha]).getD c 0 = v := fun v => by
    rw [List.getD_append _ _ _ _ (by simpa using hc), List.getD_replicate _ hc]
  cases f with
  | rgba8 | rgba16 | ycc8 => exact absurd hf (by decide)
  | gray8 | gray16 => exact hlane _

/-- The samples of the generic pass are the unpacked samples of a source pixel (R99, R122). -/
theorem samplesOf_genSpec (f : PixFmt) (m : Memory) (D : Desc) (r : Nat) (xc : Int) :
    ∃ ss, ss.length = fmtChans f ∧ samplesOf (genSpec f) m D r xc = unpackLanes f ss :=
  ⟨_, (List.length_map _).trans List.length_range, rfl⟩

/-! ## The sums of the generic pass (R102, R125) -/

theorem coefOf_genSpec_bounds (f : PixFmt) (m : Memory) (D : Desc) (d k : Nat) :
    -(2 ^ 31) ≤ coefOf (genSpec f) m D d k ∧ coefOf (genSpec f) m D d k < 2 ^ 31 :=
  ⟨BitVec.le_toInt _, BitVec.toInt_lt⟩

/-- Neither sum of a generic pass leaves the 64-bit type, with any number of taps that `FILTER_LEN` can hold. -/
theorem accWrap_genSums {i : Instr} {f : PixFmt} (hi : passSpecOf i = some (genSpec f)) (m : Memory) {D : Desc}
    (htaps : D.taps ≤ 65535) (r d c : Nat) :
    accWrap (genSpec f).acc (laneSum (genSpec f) m D r d c) = laneSum (genSpec f) m D r d c ∧
    accWrap (genSpec f).acc (weightSum (genSpec f) m D d) = weightSum (genSpec f) m D d := by
  have hfit := accumulatorHeadroom.1
    ((List.range D.taps).map fun k =>
      (coefOf (genSpec f) m D d k, (samplesOf (genSpec f) m D r (coordOf m D d k)).getD c 0))
    (by simpa using htaps)
    (List.forall_mem_map.2 fun k _ =>
      have ⟨hlo, hhi⟩ := coefOf_genSpec_bounds f m D d k
      ⟨hlo, hhi, Nat.le_of_lt_succ (samplesOf_getD_lt hi m D r _ c)⟩)
  rwa [List.map_map, List.map_map] at hfit

/-- The alpha lane accumulates 65535 times the weight sum, and the quotient is 65535 for any coefficients. -/
theorem pixelValue_alpha {i : Instr} {f : PixFmt} (hi : passSpecOf i = some (genSpec f)) (hf : fmtChans f < 4)
    {m : Memory} {D : Desc} {d : Nat} (htaps : D.taps ≤ 65535)
    (hweight : accWrap (genSpec f).acc (weightSum (genSpec f) m D d) ≠ 0) (r : Nat) :
    pixelValue (genSpec f) m D r d 3 = 65535 := by
  have hgen : i ≠ .nnYcc8 := by rintro rfl; cases hi
  obtain ⟨hlane, hsum⟩ := accWrap_genSums hi m htaps r d 3
  rw [hsum] at hweight
  have halpha : laneSum (genSpec f) m D r d 3 = (65535 : Nat) * weightSum (genSpec f) m D d :=
    laneSum_of_constant fun k _ _ => by
      obtain ⟨ss, hlen, hss⟩ := samplesOf_genSpec f m D r (coordOf m D d k)
      rw [hss, unpackLanes_alpha hf hlen]
  rw [pixelValue, hsum, hlane, halpha]
  exact finishValue_mul hi hgen (show 65535 < 256 ^ 2 by decide) hweight

/-- Over a gray source the colour lanes accumulate the same samples. -/
theorem pixelValue_gray {f : PixFmt} (hf : fmtChans f = 1) (m : Memory) (D : Desc) (r d : Nat) {c : Nat} (hc : c < 3) :
    pixelValue (genSpec f) m D r d c = pixelValue (genSpec f) m D r d 0 := by
  have hsample : ∀ xc, (samplesOf (genSpec f) m D r xc).getD c 0 = (samplesOf (genSpec f) m D r xc).getD 0 0 := fun xc => by
    obtain ⟨ss, -, hss⟩ := samplesOf_genSpec f m D r xc
    rw [hss, unpackLanes_gray hf ss hc]
  simp only [pixelValue, laneSum, hsample]

/-! ## The obligations -/

/-- Settles O22: the rows of the table, the lane count, and the bound on every lane. -/
theorem unpackWidensToFourLanes : Obligations.UnpackWidensToFourLanes :=
  ⟨fun _ _ _ _ => ⟨rfl, rfl, rfl, rfl, rfl⟩, fun _ _ hlen hfit => ⟨unpackLanes_length hlen, unpackLanes_le hfit⟩⟩

/-- Settles O39: what a ready pass stores are the pixel values, and those of the alpha lane and of the gray lanes are known
from the unpacked samples. -/
theorem alphaOfAlphaLessSourcesIsOpaque : Obligations.AlphaOfAlphaLessSourcesIsOpaque := by
  intro f i s hfi hs hdis hwf
  obtain ⟨hi, hf, hgray⟩ : passSpecOf i = some (genSpec f) ∧ fmtChans f < 4 ∧ (f ≠ .ycc8 → fmtChans f = 1) := by
    simp only [List.mem_cons, Prod.mk.injEq, List.not_mem_nil, or_false] at hfi
    rcases hfi with ⟨rfl, rfl⟩ | ⟨rfl, rfl⟩ | ⟨rfl, rfl⟩ <;> exact ⟨rfl, by decide, by decide⟩
  have htaps : s.rf.desc.taps ≤ 65535 := Nat.le_of_lt_succ s.rf.filterLen.isLt
  obtain ⟨t, hexec, -, hstored, -⟩ := readyPassStoresEveryPixelValue i _ s hi hs hdis hwf
  refine ⟨t, hexec, fun r hr j hj => ?_⟩
  obtain ⟨-, -, hweight⟩ := hs.2 r hr j hj
  have hlane : ∀ c < 4, peek t.mem 2 (dstAddr s.rf.desc 8 r (s.rf.desc.firstDest + j) + BitVec.ofNat 64 (c * 2)) =
      pixelValue (genSpec f) s.mem s.rf.desc r (s.rf.desc.firstDest + j) c := hstored r hr j hj
  refine ⟨(hlane 3 (by decide)).trans (pixelValue_alpha hi hf htaps hweight r), fun hne => ?_⟩
  have hcolour : ∀ c < 3, peek t.mem 2 (dstAddr s.rf.desc 8 r (s.rf.desc.firstDest + j)) =
      peek t.mem 2 (dstAddr s.rf.desc 8 r (s.rf.desc.firstDest + j) + BitVec.ofNat 64 (c * 2)) := fun c hc => by
    have hred := hlane 0 (by decide)
    rw [Nat.zero_mul, BitVec.add_zero] at hred
    rw [hred, hlane c (by omega), pixelValue_gray (hgray hne) _ _ _ _ hc]
  exact ⟨hcolour 1 (by decide), hcolour 2 (by decide)⟩

end Sys2Proof.Machine
end

section
/-! The nearest-neighbour pass (44_nearest): its rounding function (R155, R156), the binary32 computation it stands for (R153,
R154), and the pixel with a single selected tap (R155). -/

namespace Sys2Proof.Machine

/-! ## The rounded mean (R153, R155) -/

/-- The mean of `n` samples of one value is that value (R155). -/
theorem roundMean_mul (v : Nat) {n : Int} (hn : 0 < n) : roundMean (v * n) n = v := by
  have hdiv : (2 * (v * n) + n) / (2 * n) = v := by
    rw [show 2 * (v * n) + n = n + 2 * n * v by ring, Int.add_mul_ediv_left _ _ (by omega),
      Int.ediv_eq_zero_of_lt hn.le (by omega), Int.zero_add]
  rw [roundMean, hdiv, Int.toNat_natCast]

theorem roundMean_natCast (p n : Nat) : roundMean p n = (2 * p + n) / (2 * n) := by
  unfold roundMean
  norm_cast

/-- The quotient `a/b` rounded half up is `v` when it lies from the half-integer below `v` up to, and not at, the one above. -/
theorem roundHalfUp_eq_iff {a b v : Nat} (hb : 0 < b) :
    (2 * a + b) / (2 * b) = v ↔ (2 * v - 1) * b ≤ 2 * a ∧ 2 * a < (2 * v + 1) * b := by
  rw [Nat.div_eq_iff (by omega), Nat.sub_mul]
  constructor <;> rintro ⟨hlo, hhi⟩ <;> constructor <;> lia

/-! ## Rounding to the nearest, halfway cases to even (R153) -/

/-- Rounding a quotient does not take it below an integer that it has reached. -/
theorem le_nearestEven {a b h : Nat} (hb : 0 < b) (hle : h * b ≤ a) : h ≤ nearestEven a b := by
  have hfloor : h ≤ a / b := (Nat.le_div_iff_mul_le hb).2 hle
  unfold nearestEven
  split_ifs <;> omega

/-- A quotient more than one half below an integer rounds to less than it. -/
theorem nearestEven_lt {a b h : Nat} (hlt : 2 * a + b < 2 * (h * b)) : nearestEven a b < h := by
  have hfloor : a / b < h := Nat.div_lt_of_lt_mul (by rw [Nat.mul_comm]; omega)
  have hceil : b ≤ 2 * (a % b) → a / b + 1 < h := fun hhalf => by
    have hdecomp : b * (a / b) + a % b = a := Nat.div_add_mod a b
    have hmul : (a / b + 1) * b < h * b := by rw [Nat.add_mul, Nat.mul_comm (a / b)]; omega
    exact Nat.lt_of_mul_lt_mul_right hmul
  unfold nearestEven
  split_ifs <;> omega

/-! ## The binary32 quotient (R153) -/

/-- The search for the scale passes the exponents at which the significand is short of 24 bits. -/
theorem le_quotScale {p n m f k : Nat} (hfuel : m ≤ k + f) (hshort : ∀ j < m, p * 2 ^ j < 2 ^ 23 * n) :
    m ≤ quotScale p n f k := by
  induction f generalizing k with
  | zero => exact hfuel
  | succ f ih =>
    unfold quotScale
    split_ifs with hbits
    · exact Nat.le_of_not_lt fun hk => (hshort k hk).not_ge hbits
    · exact ih (by omega)

/-- Up to 255 the spacing of the binary32 values is at most `2^-16`. -/
theorem sixteen_le_quotScale {p n : Nat} (hn : 0 < n) (hp : p ≤ 255 * n) : 16 ≤ quotScale p n 64 0 :=
  le_quotScale (by decide) fun j hj => calc
    p * 2 ^ j ≤ 255 * n * 2 ^ 15 := Nat.mul_le_mul hp (Nat.pow_le_pow_right (by decide) (Nat.le_of_lt_succ hj))
    _ < 2 ^ 23 * n := by omega

/-- On a grid of spacing `2^-k`, at most `2^-16`, rounding the quotient `p/n` to the grid does not move it to or across a
half-integer that it has not reached: those are grid points, and it lies at least `1/(2n)` below the next one (R153). In the
proof `v` is the rounded mean, and the grid points `(2*v - 1)*h` and `(2*v + 1)*h` are the half-integers around it. -/
theorem round_nearestEven {p n k : Nat} (hn : 0 < n) (hn' : n < 2 ^ 16) (hk : 16 ≤ k) :
    (2 * nearestEven (p * 2 ^ k) n + 2 ^ k) / (2 * 2 ^ k) = (2 * p + n) / (2 * n) := by
  obtain ⟨h, hpow⟩ : ∃ h, 2 ^ k = 2 * h := ⟨2 ^ (k - 1), (mul_pow_sub_one (by omega) 2).symm⟩
  have hgrid : n < 2 * h := hn'.trans_le (hpow ▸ Nat.pow_le_pow_right (by decide) hk)
  obtain ⟨v, hv⟩ : ∃ v, (2 * p + n) / (2 * n) = v := ⟨_, rfl⟩
  obtain ⟨hreached, hnext⟩ := (roundHalfUp_eq_iff hn).1 hv
  have hbelow : (2 * v - 1) * h ≤ nearestEven (p * (2 * h)) n :=
    le_nearestEven hn <| calc
      (2 * v - 1) * h * n = (2 * v - 1) * n * h := by ring
      _ ≤ 2 * p * h := Nat.mul_le_mul_right h hreached
      _ = p * (2 * h) := by ring
  have habove : nearestEven (p * (2 * h)) n < (2 * v + 1) * h :=
    nearestEven_lt <| calc
      2 * (p * (2 * h)) + n < 2 * (p * (2 * h)) + 2 * h := by omega
      _ = 2 * ((2 * p + 1) * h) := by ring
      _ ≤ 2 * ((2 * v + 1) * n * h) := Nat.mul_le_mul_left 2 (Nat.mul_le_mul_right h hnext)
      _ = 2 * ((2 * v + 1) * h * n) := by ring
  rw [hpow, hv, roundHalfUp_eq_iff (by omega)]
  constructor <;> lia

/-! ## A single selected tap (R155) -/

/-- The samples of a source pixel are its three bytes (R99, R150). -/
theorem nearest_sample (m : Memory) (D : Desc) (r : Nat) (xc : Int) {c : Nat} (hc : c < 3) :
    (samplesOf nearestSpec m D r xc).getD c 0 = (m.read (srcAddr D 3 r xc + BitVec.ofNat 64 c)).toNat := by
  have hbytes : samplesOf nearestSpec m D r xc =
      (List.range 3).map fun c => peek m 1 (srcAddr D 3 r xc + BitVec.ofNat 64 (c * 1)) := rfl
  rw [hbytes, List.getD_eq_getElem _ _ (by simpa using hc), List.getElem_map, List.getElem_range, peek_one, Nat.mul_one]

/-- Where all selected taps hold one value in a channel, the channel of the destination pixel is that value (R155). -/
theorem nearest_pixelValue_of_constant {m : Memory} {D : Desc} {r d c V : Nat} (hweight : weightSum nearestSpec m D d ≠ 0)
    (h : ∀ k < D.taps, coefOf nearestSpec m D d k ≠ 0 →
      (samplesOf nearestSpec m D r (coordOf m D d k)).getD c 0 = V) :
    pixelValue nearestSpec m D r d c = V := by
  obtain ⟨hnonneg, -⟩ := nearest_sums m D r d c
  calc pixelValue nearestSpec m D r d c
      = roundMean (laneSum nearestSpec m D r d c) (weightSum nearestSpec m D d) := rfl
    _ = roundMean (V * weightSum nearestSpec m D d) (weightSum nearestSpec m D d) := by rw [laneSum_of_constant h]
    _ = V := roundMean_mul V (lt_of_le_of_ne hnonneg hweight.symm)

/-! ## The obligations -/

/-- Settles O24: the scale of the quotient is that of a grid of spacing at most `2^-16`. -/
theorem nearestRoundingIsTheBinary32Computation : Obligations.NearestRoundingIsTheBinary32Computation := by
  intro p n hn hn' hp
  refine ⟨?_, roundMean_le (by omega) (by omega)⟩
  rw [roundMean_natCast, roundMeanBinary32]
  split_ifs with hzero
  · rw [hzero]
    exact Nat.div_eq_of_lt (by omega)
  · exact (round_nearestEven hn (by omega) (sixteen_le_quotScale hn hp)).symm

/-- Settles O23: the ten rows, and the mean of samples of one value. -/
theorem nearestRoundingTable : Obligations.NearestRoundingTable := by
  refine ⟨by decide, fun s => ?_, fun v n hn => roundMean_mul v (by omega)⟩
  simpa using roundMean_mul s Int.one_pos

/-- Settles O40: the one selected tap is a window of one value in each channel, and what a ready pass stores are the pixel
values. -/
theorem nearestSingleTapReproducesItsPixel : Obligations.NearestSingleTapReproducesItsPixel := by
  intro s r j k hs hdis hwf hr hj _ _ hothers
  obtain ⟨t, hexec, -, hstored, -⟩ := readyPassStoresEveryPixelValue .nnYcc8 nearestSpec s rfl hs hdis hwf
  obtain ⟨-, -, hweight⟩ := hs.2 r hr j hj
  refine ⟨t, hexec, fun b hb => ?_⟩
  have hvalue := nearest_pixelValue_of_constant (r := r) (c := b) hweight fun k' hk' hsel => by
    rw [show k' = k from by_contra fun hne => hsel (hothers k' hk' hne)]
  have hbyte : peek t.mem 1 (dstAddr s.rf.desc 3 r (s.rf.desc.firstDest + j) + BitVec.ofNat 64 (b * 1)) = _ :=
    (hstored r hr j hj b hb).trans hvalue
  rw [peek_one, Nat.mul_one, nearest_sample _ _ _ _ hb] at hbyte
  exact BitVec.eq_of_toNat_eq hbyte

end Sys2Proof.Machine
end

section
/-! Leaving the fault state (R168), and what stops a step: no command does (R107, R177), only the host's own accesses and
requests (R40). -/

namespace Sys2Proof.Machine

/-! ## The write of STATUS (R15, R168) -/

theorem writeStatus_of_clears {v : HostWord} {rf : RegFile} (hv : v.getLsbD 1 = true) (he : statusErr rf.status = true) :
    writeStatus v rf = { rf with status := clearCause rf.status, errInfo := 0 } := by
  simp [writeStatus, hv, he]

theorem writeStatus_of_keeps {v : HostWord} {rf : RegFile} (h : ¬ (v.getLsbD 1 = true ∧ statusErr rf.status = true)) :
    writeStatus v rf = rf := by
  rw [writeStatus, if_neg (by simpa using h)]

/-- Settles O10: the write of STATUS is `writeStatus`, which clears the cause or does nothing. -/
theorem statusWriteLeavesTheFaultState : Obligations.StatusWriteLeavesTheFaultState := by
  intro s v
  have hwrite : hostOp (.wr 1 v) s = .next { s with rf := writeStatus v s.rf } := hostOp_wr_of_ne_zero s v one_ne_zero
  constructor
  · intro hv he
    rw [writeStatus_of_clears hv he] at hwrite
    exact ⟨_, hwrite, by simp, by simp, by simp, by simp, rfl⟩
  · intro h
    rw [hwrite, writeStatus_of_keeps h]

/-! ## What stops a host operation -/

theorem hostWrite_answers (i : Nat) (v : HostWord) (s : State) : ∃ t, hostWrite i v s = .next t := by
  by_cases hi : i = 0
  · obtain ⟨w, body, -, hrun⟩ := hostWriteCmd_command v
    exact ⟨_, by rw [hostWrite, if_pos hi, hrun]⟩
  · exact ⟨_, by rw [hostWrite, if_neg hi]⟩

theorem hostResetDuring_answers (v : HostWord) (s : State) : ∃ t, hostResetDuring v s = .next t := by
  obtain ⟨w, body, -, hrun⟩ := hostWriteCmd_command v
  unfold hostResetDuring
  rw [hrun]
  split <;> exact ⟨_, rfl⟩

/-- The operations that stop the machine, and how: the host's access to an unmapped byte (log 13), and its bus access that
reaches no register (R40, log 10). -/
inductive HostStop (P : Platform) : HostOp → Host.Outcome State Fault Refusal → Prop where
  | unmappedWrite {a : Addr} (b : Byte) (h : P.isMapped a = false) :
    HostStop P (.memWr a b) (.fault (.hostUnmapped a))
  | unmappedRead {a : Addr} (h : P.isMapped a = false) : HostStop P (.memRd a) (.fault (.hostUnmapped a))
  | noRegisterWritten {addr : BitVec 64} {size : Nat} (v : HostWord) (h : regIndex? P.rszBase addr size = none) :
    HostStop P (.busWr addr size v) (.refused .hostAccessUndefined)
  | noRegisterRead {addr : BitVec 64} {size : Nat} (h : regIndex? P.rszBase addr size = none) :
    HostStop P (.busRd addr size) (.refused .hostAccessUndefined)

/-- Every other operation answers with a state. -/
theorem hostOp_answers_or_stops (op : HostOp) (s : State) :
    (∃ t, hostOp op s = .next t) ∨ HostStop s.platform op (hostOp op s) := by
  cases op with
  | wr i v => exact .inl (hostWrite_answers i v s)
  | rd i => exact .inl ⟨_, rfl⟩
  | busWr addr size v =>
    cases h : regIndex? s.platform.rszBase addr size with
    | some i => rw [(hostOp_bus_of_some h v).1]; exact .inl (hostWrite_answers i v s)
    | none => rw [(hostOp_bus_of_none h v).1]; exact .inr (.noRegisterWritten v h)
  | busRd addr size =>
    cases h : regIndex? s.platform.rszBase addr size with
    | some i => rw [(hostOp_bus_of_some h 0).2]; exact .inl ⟨_, rfl⟩
    | none => rw [(hostOp_bus_of_none h 0).2]; exact .inr (.noRegisterRead h)
  | memWr a b =>
    cases h : s.platform.isMapped a with
    | true => exact .inl ⟨_, by rw [hostOp, if_pos h]⟩
    | false =>
      have hstop : hostOp (.memWr a b) s = .fault (.hostUnmapped a) := by simp [hostOp, h]
      rw [hstop]
      exact .inr (.unmappedWrite b h)
  | memRd a =>
    cases h : s.platform.isMapped a with
    | true => exact .inl ⟨_, by rw [hostOp, if_pos h]⟩
    | false =>
      have hstop : hostOp (.memRd a) s = .fault (.hostUnmapped a) := by simp [hostOp, h]
      rw [hstop]
      exact .inr (.unmappedRead h)
  | reset => exact .inl ⟨_, rfl⟩
  | resetDuring v => exact .inl (hostResetDuring_answers v s)

/-! ## What stops a step -/

theorem step_of_idle {s : State} (h : s.pending = []) : step s = .next s := by simp [step, h]

/-- A request that names no register file is refused (log 4). -/
theorem step_of_no_such_register_file {s : State} {q : HostReq} {rest : List HostReq} (hp : s.pending = q :: rest)
    (hq : ¬ q.inst < s.platform.numInst) : step s = .refused .noSuchInstance := by
  simp [step, hp, hostRequest, HostReq.wf, hq]

/-- Everything a step that does not answer can be. -/
theorem step_answers_or_stops (s : State) :
    (∃ t, step s = .next t) ∨ ∃ q rest, s.pending = q :: rest ∧
      ((step s = .refused .noSuchInstance ∧ ¬ q.inst < s.platform.numInst) ∨ HostStop s.platform q.op (step s)) := by
  cases hp : s.pending with
  | nil => exact .inl ⟨s, step_of_idle hp⟩
  | cons q rest =>
    by_cases hq : q.inst < s.platform.numInst
    · have hop := hostOp_answers_or_stops q.op (selectInstance q.inst { s with pending := rest })
      rw [selectInstance_platform, ← step_of_pending hp hq] at hop
      exact hop.imp_right fun hstop => ⟨q, rest, rfl, .inr hstop⟩
    · exact .inr ⟨q, rest, rfl, .inl ⟨step_of_no_such_register_file hp hq, hq⟩⟩

/-- Settles O46, by the inversion of the step that does not answer. -/
theorem stepStopsOnlyForTheHost : Obligations.StepStopsOnlyForTheHost := by
  intro s
  refine ⟨fun f hf => ?_, fun p hr => ?_⟩
  · rcases step_answers_or_stops s with ⟨t, ht⟩ | ⟨⟨k, op⟩, rest, hp, ⟨hno, -⟩ | hstop⟩
    · rw [hf] at ht; cases ht
    · rw [hf] at hno; cases hno
    · rw [hf] at hstop
      cases hstop with
      | unmappedWrite b hu => exact ⟨_, k, rest, rfl, hu, .inl ⟨b, hp⟩⟩
      | unmappedRead hu => exact ⟨_, k, rest, rfl, hu, .inr hp⟩
  · rcases step_answers_or_stops s with ⟨t, ht⟩ | ⟨⟨k, op⟩, rest, hp, ⟨hno, hk⟩ | hstop⟩
    · rw [hr] at ht; cases ht
    · rw [hr] at hno
      cases hno
      exact ⟨_, rest, hp, .inl ⟨rfl, hk⟩⟩
    · rw [hr] at hstop
      cases hstop with
      | noRegisterWritten v hnone => exact ⟨_, rest, hp, .inr ⟨rfl, _, _, hnone, .inl ⟨v, rfl⟩⟩⟩
      | noRegisterRead hnone => exact ⟨_, rest, hp, .inr ⟨rfl, _, _, hnone, .inr rfl⟩⟩

end Sys2Proof.Machine
end

section
/-! How a pass ends: the two descriptor checks (R162) and the outcomes of R177. -/

namespace Sys2Proof.Machine

/-! ## The descriptor checks -/

/-- Which check fails: the first of the two (R162). -/
theorem failingCheck_eq_some_iff {D : Desc} {n : Nat} :
    failingCheck D = some n ↔ (n = 1 ∧ ¬ D.srcMin < D.srcMax) ∨ (n = 2 ∧ D.srcMin < D.srcMax ∧ D.dMin < 0) := by
  unfold failingCheck
  split
  · next h => simp [h, eq_comm]
  · next h =>
    rw [not_not] at h
    split
    · next h' => simp [h, h', eq_comm]
    · next h' => simp [h, h']

/-! ## The ends of a pass -/

/-- The states in which a pass that was accepted with the word `w` in the state `s` can end (R61, R162, R166). -/
inductive PassEnd (w : CmdWord) (s : State) : State → Prop where
  /-- Check `n` failed. -/
  | checkFailed {n : Nat} (h : failingCheck s.rf.desc = some n) :
    PassEnd w s (raiseFault .badDesc (BitVec.ofNat 64 n) (acceptCommand w s))
  /-- The listing ran to its end. -/
  | done (h : failingCheck s.rf.desc = none) (e : Engine) :
    PassEnd w s (CmdEnd.done (commitEngine (acceptCommand w s) e)).finish
  /-- The listing faulted (R163, R164). -/
  | faulted (h : failingCheck s.rf.desc = none) (e : Engine) {c : Cause} (info : BitVec 64)
    (hc : c = .busErr ∨ c = .divZero) :
    PassEnd w s (raiseFault c info (commitEngine (acceptCommand w s) e))

theorem exec_of_check_failed {i : Instr} {ps : PassSpec} {s : State} {n : Nat} (hi : passSpecOf i = some ps)
    (he : statusErr s.rf.status = false) (h : failingCheck s.rf.desc = some n) :
    exec i s = .next (raiseFault .badDesc (BitVec.ofNat 64 n) (acceptCommand (encode i) s)) := by
  rw [exec_pass hi, execPass, runCommand_of_ok he,
    passBody_of_check_failed (s := acceptCommand (encode i) s) h, finish_faulted]

/-- The inversion of a pass. -/
theorem exec_passEnd {i : Instr} {ps : PassSpec} {s t : State} (hi : passSpecOf i = some ps)
    (he : statusErr s.rf.status = false) (ht : exec i s = .next t) : PassEnd (encode i) s t := by
  rw [exec_pass hi, execPass, runCommand_of_ok he] at ht
  cases ht
  rcases passBody_cases ps (acceptCommand (encode i) s) with ⟨n, hn, h⟩ | ⟨hnone, e, -, h | ⟨c, info, h, hc⟩⟩ <;> rw [h]
  · exact .checkFailed hn
  · exact .done (s := s) hnone e
  · exact .faulted (s := s) hnone e info (hc.imp_left And.left)

/-! ## The obligations -/

/-- Settles O26: a failed check is fault entry right after acceptance; with both checks passed no end of the pass latches
`BAD_DESC`. -/
theorem descriptorChecks : Obligations.DescriptorChecks := by
  intro i ps s hi he
  constructor
  · intro n hn
    have hexec := exec_of_check_failed hi he (failingCheck_eq_some_iff.2 hn)
    exact ⟨_, hexec, by simp, by simp, by simp [Cause.code], rfl⟩
  · intro hsrc hmin ⟨_, _, hlegal, _⟩ t ht
    obtain ⟨hcause, -⟩ := hlegal he
    have hnone : failingCheck s.rf.desc = none := failingCheck_eq_none.2 ⟨hsrc, hmin⟩
    cases exec_passEnd hi he ht with
    | checkFailed h => rw [hnone] at h; cases h
    | done _ e => simp [hcause]
    | faulted _ e info hc => rcases hc with rfl | rfl <;> simp [Cause.code]

/-- Settles O31, by the ends of a pass. -/
theorem passEndsDoneOrFaulted : Obligations.PassEndsDoneOrFaulted := by
  intro i ps s t hi he hlegal ht
  have hres : statusReservedZero (setDone false s.rf.status) = true := by simpa using hlegal.1
  have hdone : statusDone (setDone false s.rf.status) = false := by simp
  cases exec_passEnd hi he ht with
  | checkFailed h =>
    refine ⟨rfl, statusLegal_of_latchCause (rf := (acceptCommand (encode i) s).rf) hres hdone rfl,
      .inr ⟨by simp, by simp, .inl ⟨by simp [Cause.code], ?_⟩⟩⟩
    rcases failingCheck_eq_some_iff.1 h with ⟨rfl, -⟩ | ⟨rfl, -⟩
    · exact .inl rfl
    · exact .inr rfl
  | done _ e =>
    exact ⟨rfl, statusLegal_of_setDone (b := true) hlegal he (by simp) rfl, .inl ⟨by simp [Completed, he], rfl⟩⟩
  | faulted _ e info hc =>
    refine ⟨rfl, statusLegal_of_latchCause (rf := (acceptCommand (encode i) s).rf) hres hdone rfl,
      .inr ⟨by simp, by simp, .inr ?_⟩⟩
    rcases hc with rfl | rfl <;> simp [Cause.code]

end Sys2Proof.Machine
end

section
/-! The lines `r0` to `r0 + n - 1` of a pass as a pass of their own (R176): its pixels are those of the whole pass, it reads the
same bytes from every memory that differs in destination bytes only, so it makes the accesses of its lines. -/

namespace Sys2Proof.Machine

/-! ## The descriptor of some of the lines -/

/-- The descriptor of the `n` lines of `D` from line `r0` on. -/
def Desc.part (ps : PassSpec) (D : Desc) (r0 n : Nat) : Desc :=
  { D with
    srcBase := D.srcBase + BitVec.ofNat 64 (r0 * D.srcStride)
    dstBase := D.dstBase + BitVec.ofNat 64 (r0 * fmtBpp ps.dst)
    lines := n }

/-- The accesses of the `n` lines from line `r0` on. -/
def linesAccesses (ps : PassSpec) (m : Memory) (D : Desc) (r0 n : Nat) : List Access :=
  (List.range n).flatMap fun r => lineAccesses ps m D (r0 + r) D.dests

/-- The accesses of a pass are those of its first `n` lines and then those of the rest (R92). -/
theorem passAccesses_split (ps : PassSpec) (m : Memory) {D : Desc} {n : Nat} (hn : n ≤ D.lines) :
    passAccesses ps m D = linesAccesses ps m D 0 n ++ linesAccesses ps m D n (D.lines - n) := by
  obtain ⟨k, hk⟩ := Nat.exists_eq_add_of_le hn
  simp [passAccesses, linesAccesses, hk, List.range_add, List.flatMap_map]

theorem desc_withLines (ps : PassSpec) (rf : RegFile) {n : Nat} (hn : n ≤ rf.lines.toNat) :
    ({ rf with lines := BitVec.ofNat 32 n } : RegFile).desc = rf.desc.part ps 0 n := by
  have hlt : n < 2 ^ 32 := lt_of_le_of_lt hn rf.lines.isLt
  simpa [RegFile.desc, Desc.part] using hlt

theorem desc_linesFrom (ps : PassSpec) (rf : RegFile) {n : Nat} (hn : n ≤ rf.lines.toNat) :
    (linesFrom ps n rf).desc = rf.desc.part ps n (rf.desc.lines - n) := by
  have hsub : (rf.lines - BitVec.ofNat 32 n).toNat = rf.lines.toNat - n := by bv_omega
  simp [linesFrom, RegFile.desc, Desc.part, hsub]

/-- A base that is advanced by `k` bytes takes `k` bytes into every address formed from it (R41). -/
theorem ofInt_toNat_add (a : Addr) (k : Nat) (z : Int) :
    BitVec.ofInt 64 ((a + BitVec.ofNat 64 k).toNat + z) = BitVec.ofInt 64 (a.toNat + k + z) := by
  simp only [BitVec.ofInt_add, BitVec.ofInt_natCast, BitVec.ofNat_toNat, BitVec.setWidth_eq]

section
variable (ps : PassSpec) (m : Memory) (D : Desc) (r0 n : Nat)

theorem srcAddr_part (bpp r : Nat) (xc : Int) : srcAddr (D.part ps r0 n) bpp r xc = srcAddr D bpp (r0 + r) xc := by
  calc srcAddr (D.part ps r0 n) bpp r xc
      = BitVec.ofInt 64 ((D.srcBase + BitVec.ofNat 64 (r0 * D.srcStride)).toNat +
          (r * D.srcStride + (xc - D.srcMin) * bpp)) := congrArg _ (Int.add_assoc _ _ _)
    _ = srcAddr D bpp (r0 + r) xc := by
        rw [ofInt_toNat_add, srcAddr]
        congr 1
        push_cast
        ring

theorem dstAddr_part (r d : Nat) :
    dstAddr (D.part ps r0 n) (fmtBpp ps.dst) r d = dstAddr D (fmtBpp ps.dst) (r0 + r) d := by
  calc dstAddr (D.part ps r0 n) (fmtBpp ps.dst) r d
      = BitVec.ofInt 64 ((D.dstBase + BitVec.ofNat 64 (r0 * fmtBpp ps.dst)).toNat +
          ((d - D.dMin) * D.dstStride + r * fmtBpp ps.dst)) := congrArg _ (Int.add_assoc _ _ _)
    _ = dstAddr D (fmtBpp ps.dst) (r0 + r) d := by
        rw [ofInt_toNat_add, dstAddr]
        congr 1
        push_cast
        ring

theorem samplesOf_part (r : Nat) (xc : Int) : samplesOf ps m (D.part ps r0 n) r xc = samplesOf ps m D (r0 + r) xc := by
  simp only [samplesOf, srcAddr_part]

/-- The coordinates, coefficients and offsets do not depend on the lines. -/
theorem tapAccesses_part (r d i : Nat) : tapAccesses ps m (D.part ps r0 n) r d i = tapAccesses ps m D (r0 + r) d i := by
  rw [tapAccesses, srcAddr_part]
  rfl

theorem laneSum_part (r d c : Nat) : laneSum ps m (D.part ps r0 n) r d c = laneSum ps m D (r0 + r) d c := by
  simp only [laneSum, samplesOf_part]
  rfl

theorem pixelValue_part (r d c : Nat) : pixelValue ps m (D.part ps r0 n) r d c = pixelValue ps m D (r0 + r) d c := by
  rw [pixelValue, laneSum_part]
  rfl

theorem pixelAccesses_part (r d : Nat) : pixelAccesses ps m (D.part ps r0 n) r d = pixelAccesses ps m D (r0 + r) d := by
  have hreads : pixelReads ps m (D.part ps r0 n) r d = pixelReads ps m D (r0 + r) d := by
    rw [pixelReads, readsBeforeTap, funext (tapAccesses_part ps m D r0 n r d)]
    rfl
  simp only [pixelAccesses, hreads, pixelWrites, dstAddr_part, pixelValue_part]

theorem pixelReady_part {P : Port} {r d : Nat} (h : PixelReady ps P m D (r0 + r) d) :
    PixelReady ps P m (D.part ps r0 n) r d := by
  obtain ⟨⟨hoffset, htaps⟩, hwrite, hsum⟩ := h
  refine ⟨⟨hoffset, fun i hi => ?_⟩, by rwa [dstAddr_part], hsum⟩
  obtain ⟨hcoef, hsource⟩ := htaps i hi
  exact ⟨hcoef, fun hne => by rw [srcAddr_part]; exact hsource hne⟩

theorem isDestination_of_part {a : Addr} (hn : r0 + n ≤ D.lines) (h : IsDestination ps (D.part ps r0 n) a) :
    IsDestination ps D a := by
  obtain ⟨r, hr, j, hj, b, hb, rfl⟩ := h
  have hlt : r < n := hr
  exact ⟨r0 + r, by omega, j, hj, b, hb, by rw [dstAddr_part]; rfl⟩

theorem passAccesses_part : passAccesses ps m (D.part ps r0 n) = linesAccesses ps m D r0 n := by
  simp only [passAccesses, linesAccesses, lineAccesses, pixelAccesses_part]
  rfl

end

/-! ## Memories that differ in destination bytes only -/

section
variable {ps : PassSpec} {P : Port} {m m0 : Memory} {D : Desc} {r d : Nat}

theorem startOf_agree (hm : Agree P m m0) (h : Readable P 4 (offsAddr D d)) : startOf m D d = startOf m0 D d := by
  rw [startOf, peek_agree hm h, startOf]

theorem coefOf_agree {i : Nat} (hm : Agree P m m0) (h : Readable P ps.cw (coefAddr D ps.cw d i)) :
    coefOf ps m D d i = coefOf ps m0 D d i := by
  rw [coefOf, peek_agree hm h, coefOf]

theorem coordOf_agree (hm : Agree P m m0) (h : PixelReadable ps P m0 D r d) (i : Nat) :
    coordOf m D d i = coordOf m0 D d i := by
  rw [coordOf, startOf_agree hm h.1, coordOf]

theorem weightSum_agree (hm : Agree P m m0) (h : PixelReadable ps P m0 D r d) :
    weightSum ps m D d = weightSum ps m0 D d :=
  congrArg List.sum (List.map_congr_left fun i hi => coefOf_agree hm (h.2 i (List.mem_range.1 hi)).1)

/-- A tap that is skipped adds 0, whatever its source pixel holds. -/
theorem laneSum_agree (hm : Agree P m m0) (h : PixelReadable ps P m0 D r d) (c : Nat) :
    laneSum ps m D r d c = laneSum ps m0 D r d c := by
  refine congrArg List.sum (List.map_congr_left fun i hi => ?_)
  obtain ⟨hcoef, hsource⟩ := h.2 i (List.mem_range.1 hi)
  rw [coefOf_agree hm hcoef, coordOf_agree hm h]
  by_cases hzero : coefOf ps m0 D d i = 0
  · simp only [hzero, zero_mul]
  · rw [samplesOf_agree hm (hsource hzero)]

theorem pixelAccesses_agree (hm : Agree P m m0) (h : PixelReadable ps P m0 D r d) :
    pixelAccesses ps m D r d = pixelAccesses ps m0 D r d := by
  have htap : ∀ i ∈ List.range D.taps, tapAccesses ps m D r d i = tapAccesses ps m0 D r d i := fun i hi => by
    rw [tapAccesses, coefOf_agree hm (h.2 i (List.mem_range.1 hi)).1, coordOf_agree hm h, tapAccesses]
  have hreads : pixelReads ps m D r d = pixelReads ps m0 D r d :=
    congrArg (readAccesses 4 (offsAddr D d) ++ ·) (List.flatMap_congr htap)
  simp only [pixelAccesses, hreads, pixelWrites, pixelValue, weightSum_agree hm h, laneSum_agree hm h]

theorem pixelReady_agree (hm : Agree P m m0) (h : PixelReady ps P m0 D r d) : PixelReady ps P m D r d := by
  obtain ⟨hread, hwrite, hsum⟩ := h
  refine ⟨⟨hread.1, fun i hi => ?_⟩, hwrite, by rwa [weightSum_agree hm hread]⟩
  obtain ⟨hcoef, hsource⟩ := hread.2 i hi
  exact ⟨hcoef, by rwa [coefOf_agree hm hcoef, coordOf_agree hm hread]⟩

end

/-! ## A destination inside another one -/

/-- `Q` reaches the same memory as `P` and writes no byte that `P` does not write. -/
structure Port.Within (Q P : Port) : Prop where
  platform : Q.platform = P.platform
  dst : ∀ a, P.dst.has a = false → Q.dst.has a = false

theorem Port.Within.readable {Q P : Port} (h : Q.Within P) {k : Nat} {a : Addr} (hr : Readable P k a) :
    Readable Q k a := by
  intro j hj
  rw [h.platform]
  exact (hr j hj).imp_right (h.dst _)

theorem Port.Within.pixelReady {Q P : Port} (h : Q.Within P) {ps : PassSpec} {m : Memory} {D : Desc} {r d : Nat}
    (hp : PixelReady ps P m D r d) : PixelReady ps Q m D r d := by
  obtain ⟨⟨hoffset, htaps⟩, hwrite, hsum⟩ := hp
  refine ⟨⟨h.readable hoffset, fun i hi => ?_⟩, by rwa [Writable, h.platform], hsum⟩
  obtain ⟨hcoef, hsource⟩ := htaps i hi
  exact ⟨h.readable hcoef, fun hne => h.readable (hsource hne)⟩

/-! ## A state that is about to run some of the lines -/

/-- In `s'` a pass over the `n` lines from line `r0` on of the pass of `s` can be started: the descriptor is that of the lines, and
memory differs from that of `s` in destination bytes only. -/
structure RunsPart (ps : PassSpec) (s : State) (r0 n : Nat) (s' : State) : Prop where
  err : statusErr s'.rf.status = false
  platform : s'.platform = s.platform
  desc : s'.rf.desc = s.rf.desc.part ps r0 n
  mem : Agree (passPort ps s) s'.mem s.mem
  lines : r0 + n ≤ s.rf.desc.lines

section
variable {ps : PassSpec} {s s' : State} {r0 n : Nat}

theorem RunsPart.within (h : RunsPart ps s r0 n s') (hmin : 0 ≤ s.rf.desc.dMin) :
    (passPort ps s').Within (passPort ps s) := by
  refine ⟨h.platform, fun a ha => ?_⟩
  have hmin' : 0 ≤ s'.rf.desc.dMin := by rw [h.desc]; exact hmin
  rw [← Bool.not_eq_true, passPort_has_iff ps _ a hmin] at ha
  rw [← Bool.not_eq_true, passPort_has_iff ps s' a hmin', h.desc]
  exact fun hd => ha (isDestination_of_part ps _ r0 n h.lines hd)

/-- Some lines of a ready pass are a ready pass (R176). -/
theorem RunsPart.passReady (h : RunsPart ps s r0 n s') (hs : PassReady ps s) : PassReady ps s' := by
  obtain ⟨⟨-, hsrc, hmin⟩, hready⟩ := hs
  have hlines := h.lines
  refine ⟨⟨h.err, by rw [h.desc]; exact hsrc, by rw [h.desc]; exact hmin⟩, ?_⟩
  rw [h.desc]
  intro r hr j hj
  have hlt : r < n := hr
  exact pixelReady_part ps _ _ r0 n
    ((h.within hmin).pixelReady (pixelReady_agree h.mem (hready (r0 + r) (by omega) j hj)))

/-- The accesses of the lines are those that the whole pass makes in them. -/
theorem RunsPart.passAccesses_eq (h : RunsPart ps s r0 n s') (hs : PassReady ps s) :
    passAccesses ps s'.mem s'.rf.desc = linesAccesses ps s.mem s.rf.desc r0 n := by
  obtain ⟨-, hready⟩ := hs
  have hlines := h.lines
  rw [h.desc, passAccesses_part]
  refine List.flatMap_congr fun r hr => List.flatMap_congr fun j hj => ?_
  have hlt := List.mem_range.1 hr
  obtain ⟨hread, -, -⟩ := hready (r0 + r) (by omega) j (List.mem_range.1 hj)
  exact pixelAccesses_agree h.mem hread

/-- After the accesses of some lines memory still differs in destination bytes only. -/
theorem RunsPart.agree_after (h : RunsPart ps s r0 n s') (hmin : 0 ≤ s.rf.desc.dMin) :
    Agree (passPort ps s) (applyWrites s'.mem (linesAccesses ps s.mem s.rf.desc r0 n)) s.mem := by
  have hlines := h.lines
  refine h.mem.applyWrites _ fun a b hab => ?_
  obtain ⟨r, hr, hab⟩ := List.mem_flatMap.1 hab
  have hlt := List.mem_range.1 hr
  exact (passPort_has_iff ps s a hmin).2 (isDestination_of_wr_mem_lineAccesses (by omega) le_rfl hab)

/-- Some lines of a ready pass, run as a pass of their own, complete with the accesses the whole pass makes in them. -/
theorem RunsPart.exec {i : Instr} (hi : passSpecOf i = some ps) (h : RunsPart ps s r0 n s') (hs : PassReady ps s) :
    ∃ t, exec i s' = .next t ∧ Completed t ∧
      t.mem = applyWrites s'.mem (linesAccesses ps s.mem s.rf.desc r0 n) := by
  obtain ⟨e, ⟨-, hmem, -⟩, hexec⟩ := exec_of_passReady hi (h.passReady hs)
  refine ⟨_, hexec, by simp [Completed, h.err], ?_⟩
  rw [← h.passAccesses_eq hs]
  exact hmem

end

/-- Settles O41: both parts are ready, the second in the memory that the first leaves, and together they make the accesses of
the whole pass in its order. -/
theorem splitPassLeavesTheSameMemory : Obligations.SplitPassLeavesTheSameMemory := by
  intro i ps s n hi hs hn
  obtain ⟨herr, -, hmin⟩ := hs.1
  have hfirst : RunsPart ps s 0 n { s with rf := { s.rf with lines := BitVec.ofNat 32 n } } :=
    ⟨herr, rfl, desc_withLines ps s.rf hn, Agree.refl _ _, (Nat.zero_add n).trans_le hn⟩
  obtain ⟨t1, hexec1, ⟨-, herr1⟩, hmem1⟩ := hfirst.exec hi hs
  obtain ⟨-, hframe⟩ := passWritesOnlyItsDestination i ps _ t1 hi hexec1
  have hsecond : RunsPart ps s n (s.rf.desc.lines - n)
      { t1 with rf := linesFrom ps n { t1.rf with lines := s.rf.lines } } := by
    refine ⟨herr1, by rw [hframe], ?_, ?_, (Nat.add_sub_cancel' hn).le⟩
    · rw [hframe]; exact desc_linesFrom ps s.rf hn
    · exact hmem1 ▸ hfirst.agree_after hmin
  obtain ⟨t2, hexec2, hdone2, hmem2⟩ := hsecond.exec hi hs
  obtain ⟨e, ⟨-, hmem, -⟩, hexec⟩ := exec_of_passReady hi hs
  refine ⟨_, t1, t2, hexec, hexec1, hexec2, ?_, hdone2⟩
  calc t2.mem = applyWrites t1.mem (linesAccesses ps s.mem s.rf.desc n (s.rf.desc.lines - n)) := hmem2
    _ = applyWrites s.mem (passAccesses ps s.mem s.rf.desc) := by
        rw [hmem1, ← applyWrites_append, ← passAccesses_split ps s.mem hn]
    _ = e.mem := hmem.symm

end Sys2Proof.Machine
end

section
/-! Reset and hazards (70_reset_and_hazards): the idle machine (R190), a reset during a command (R191), and the commands in the
reset state (R192). -/

namespace Sys2Proof.Machine

/-! ## A reset during a command (R191) -/

/-- A reset during a command that would end in `u` keeps the writes of the first accesses of `u` and resets the register file. -/
theorem hostResetDuring_of_command {v : HostWord} {s u : State} (he : statusErr s.rf.status = false)
    (hu : hostWriteCmd v s = .next u) :
    ∃ n ≤ u.bus.length, hostResetDuring v s = .next
      { resetInstance s with
        mem := applyWrites s.mem (u.bus.take n), bus := u.bus.take n, draws := u.draws + 1 } := by
  refine ⟨Config.resetPoint u.draws % (u.bus.length + 1), Nat.lt_succ_iff.1 (Nat.mod_lt _ (Nat.succ_pos _)), ?_⟩
  simp [hostResetDuring, he, hu]

/-- Settles O49: the whole command answers, and the reset keeps a prefix of its accesses and the register file of reset. -/
theorem resetDuringACommandLeavesAPrefix : Obligations.ResetDuringACommandLeavesAPrefix := by
  intro s v he
  obtain ⟨u, hu⟩ := hostWrite_answers 0 v s
  obtain ⟨n, hn, ht⟩ := hostResetDuring_of_command he hu
  exact ⟨u, _, n, hu, ht, hn, rfl, readReg_reset, rfl⟩

/-! ## The idle machine (R190) -/

/-- Settles O5: a step with an empty queue of requests is the idle step (log 14). -/
theorem idleWithoutARequest : Obligations.IdleWithoutARequest :=
  fun _ => step_of_idle

/-! ## The reset state (R192) -/

/-- The extent of the reset state is empty, so check 1 fails (R162). -/
theorem failingCheck_reset : failingCheck State.reset.rf.desc = some 1 :=
  failingCheck_eq_some_iff.2 (.inl ⟨rfl, by decide⟩)

/-- The STATUS of a `BAD_DESC` latched in the reset state (R15, R166). -/
theorem latchCause_badDesc_reset : latchCause Cause.badDesc.code (setDone false State.reset.rf.status) = 0x22#32 := by
  decide

/-- Settles O44: a pass ends at its failed check, and a clamp stores the clamped 0. -/
theorem commandsInTheResetState : Obligations.CommandsInTheResetState := by
  have herr : statusErr State.reset.rf.status = false := rfl
  refine ⟨fun i hi => ?_, fun i hi => ?_⟩
  · obtain ⟨ps, hps⟩ := Option.ne_none_iff_exists'.1 hi
    exact ⟨_, exec_of_check_failed hps herr failingCheck_reset, latchCause_badDesc_reset, by simp [Cause.code], rfl⟩
  · cases i with
    | clamp8 =>
      obtain ⟨t, hexec, hdone, -, ht⟩ := clamp8StoresTheClampedOperand State.reset herr
      exact ⟨t, hexec, hdone, by rw [ht]; rfl⟩
    | clamp16 =>
      obtain ⟨t, hexec, hdone, -, ht⟩ := clamp16StoresTheClampedOperand State.reset herr
      exact ⟨t, hexec, hdone, by rw [ht]; rfl⟩
    | _ => simp [passSpecOf] at hi

end Sys2Proof.Machine
end

section
/-! The base case of the invariant (R37) and the constancy of the platform (R5). -/

namespace Sys2Proof.Machine

/-- Settles O2: no byte is listed and no register file is parked, so only the selected one, that of reset, has to be legal. -/
theorem resetStateIsLegal : Obligations.ResetStateIsLegal := by
  have hmem : Memory.wf State.reset.mem := Memory.wf_nil
  have hsel : State.reset.sel < State.reset.platform.numInst := by decide
  have hwf : sparseWf RegFile.reset State.reset.platform.numInst State.reset.parked :=
    ⟨.nil, List.forall_mem_nil _⟩
  have hparked : ∀ c ∈ State.reset.parked, c.1 ≠ State.reset.sel ∧ RegFileLegal c.2 :=
    List.forall_mem_nil _
  exact ⟨hmem, hsel, hwf, hparked, regFileLegal_reset⟩

/-- Settles O48, by the inversion of the step: neither selecting a register file nor any effect of a host operation writes
the platform. -/
theorem platformNeverChanges : Obligations.PlatformNeverChanges := by
  intro s t h
  rcases step_eq_next h with ⟨-, rfl⟩ | ⟨q, rest, -, -, he⟩
  · rfl
  · calc t.platform
        = (selectInstance q.inst { s with pending := rest }).platform := he.keepsOthers.platform
      _ = s.platform := selectInstance_platform q.inst { s with pending := rest }

end Sys2Proof.Machine
end
